-- ==== Sys2Proof/Word.lean ====
section
/-! DEFINITION. The two machine words of ATWT-CORE: a byte of `MEM` and a 32-bit register of the block
(00_scope.md R12, 10_state.md R21, R29). -/

namespace Sys2Proof

/-- A byte of the memory `MEM` (20_memory.md R50). -/
abbrev Byte := BitVec 8

/-- A register of the register block, or the command word (10_state.md R21, 30_encoding.md R80). -/
abbrev Word := BitVec 32

end Sys2Proof
end

