-- ==== Sys2Proof/Syntax.lean ====
section
/-! DEFINITION. The instructions of ATWT-CORE: one constructor for each row of spec/opcode_table.json
(30_encoding.md R82, R95). -/

namespace Sys2Proof

/-- A decoded command word. The planes a command works on are not part of the word: they stand in the
descriptor registers (30_encoding.md R80). -/
inductive Instr where
  /-- EXTRACT, with the radius of CMD[15:8] read as two's complement (30_encoding.md R83). -/
  | extract (radius : Int)
  /-- REPLACE. It has no operand in the command word: CMD[15:8] is not read (30_encoding.md R97). -/
  | replace
deriving DecidableEq, Repr

end Sys2Proof
end

