-- ==== Sys2Proof/WellFormed.lean ====
section
/-! DEFINITION. Which instructions a command word can hold (30_encoding.md R81, R83). -/

namespace Sys2Proof

/-- The RADIUS field is 8-bit two's complement, -128 to 127 (30_encoding.md R83). A radius below 1 is
well formed: it can be written in the command word, and is rejected at START (60_exceptions.md R233). -/
def Instr.wf : Instr → Bool
  | .extract radius => decide (-128 ≤ radius) && decide (radius ≤ 127)
  | .replace => true

end Sys2Proof
end

