-- ==== Sys2Proof/Decode.lean ====
section
/-! DEFINITION. Bit fields, sign extension, the decoder of the command word, and the encoder
(30_encoding.md R81 to R83, R91, R95, R96). -/

namespace Sys2Proof

/-- `v[hi:lo]`, read as an unsigned integer (00_scope.md R12). -/
def bits (v : Word) (hi lo : Nat) : Nat := v.toNat / 2 ^ lo % 2 ^ (hi + 1 - lo)

/-- `sext_n(v)`: an `n`-bit field read as two's complement (00_scope.md R12). -/
def sext (n v : Nat) : Int := if v < 2 ^ (n - 1) then (v : Int) else (v : Int) - 2 ^ n

/-- Why a command word is no instruction. Both reasons are reported as E_OP (60_exceptions.md R231). -/
inductive DecodeError where
  /-- CMD[31:16] or CMD[7:4] is not zero (30_encoding.md R91 (a)). -/
  | reservedBits
  /-- CMD[3:0] is neither 1 nor 2 (30_encoding.md R91 (b)). -/
  | unknownOp
deriving DecidableEq, Repr

/-- What the decoder answers: an instruction, or the reason there is none. -/
inductive Decoded where
  | instr (i : Instr)
  | rejected (e : DecodeError)
deriving DecidableEq, Repr

/-- The decoder of the command word, total on all words (30_encoding.md R96, its first lines). -/
def decode (w : Word) : Decoded :=
  if bits w 31 16 ≠ 0 ∨ bits w 7 4 ≠ 0 then .rejected .reservedBits
  else if bits w 3 0 = 1 then .instr (.extract (sext 8 (bits w 15 8)))
  else if bits w 3 0 = 2 then .instr .replace
  else .rejected .unknownOp

/-- The command word of an instruction (30_encoding.md R81, R94): the radius byte is the radius
modulo 256, and REPLACE is written with a zero RADIUS field. -/
def encode : Instr → Word
  | .extract radius => BitVec.ofNat 32 ((radius % 256).toNat * 2 ^ 8 + 1)
  | .replace => BitVec.ofNat 32 2

/-- The instruction that the decoder reads from the bits `w` of a table row of `nbits` bits. A command
is one 32-bit word, written to CMD in one register access (30_encoding.md R80), so there is no order of
words or bytes to lay out. -/
def decodeTableWord (nbits w : Nat) : Option Instr :=
  match decode (BitVec.ofNat 32 (w % 2 ^ nbits)) with
  | .instr i => some i
  | .rejected _ => none

end Sys2Proof
end

