-- ==== Sys2Proof/Machine/Datum.lean ====
section
/-! DEFINITION. The values the datapath works on: pixel formats, floating formats, floating data, and the
elements of the intermediate buffer (43_format_converter.md R180, R183, R191; 10_state.md R28). -/

namespace Sys2Proof.Machine

/-- The three pixel representations (43_format_converter.md R180). -/
inductive PixFmt where
  | u8
  | u16
  | f32
deriving DecidableEq, Repr, Inhabited

/-- The admitted values of `ACC_FMT`, the floating format of the accumulators and of `IB`
(00_scope.md R11, 92_eei_decisions.md D20). -/
inductive AccFmt where
  /-- IEEE 754 binary32. -/
  | b32
  /-- IEEE 754 binary64. -/
  | b64
deriving DecidableEq, Repr, Inhabited

/-- A floating datum. `fin neg mant exp` is `(-1)^neg * mant * 2^exp`; the operations of Machine/Float.lean
answer it in the one form IEEE 754 gives a number in their format. A NaN has no payload here: its bits are drawn
when it is stored (43_format_converter.md R193). -/
inductive Fp where
  | nan
  | inf (neg : Bool)
  | fin (neg : Bool) (mant : Nat) (exp : Int)
deriving DecidableEq, Repr, Inhabited

/-- A value of the arithmetic domain of a format: an integer for U8 and U16, a datum of `ACC_FMT` for F32
(43_format_converter.md R183; 10_state.md R28). -/
inductive Datum where
  | int (v : Int)
  | flt (v : Fp)
deriving DecidableEq, Repr, Inhabited

end Sys2Proof.Machine
end

