-- ==== Sys2Proof/Machine/Float.lean ====
section
/-! DEFINITION. The IEEE 754 operations of the float domain: round to nearest, ties to even, subnormals kept,
overflow to infinity, no flags (43_format_converter.md R191, R192). That this is what IEEE 754 prescribes is
general knowledge, which the spec names as its decision (92_eei_decisions.md D22). -/

namespace Sys2Proof.Machine

/-- Significand bits of the format (40_blur.md R124). -/
def AccFmt.prec : AccFmt → Nat
  | .b32 => 24
  | .b64 => 53

/-- The exponent of the last place of the smallest numbers of the format. -/
def AccFmt.minExp : AccFmt → Int
  | .b32 => -149
  | .b64 => -1074

/-- The exponent of the last place of the largest numbers of the format. -/
def AccFmt.maxExp : AccFmt → Int
  | .b32 => 104
  | .b64 => 971

/-- `m / 2^d` rounded to the nearest integer, ties to even. -/
def shiftRoundEven (m d : Nat) : Nat :=
  let q := m / 2 ^ d
  if 2 ^ d < 2 * (m % 2 ^ d) ∨ (2 ^ d = 2 * (m % 2 ^ d) ∧ q % 2 = 1) then q + 1 else q

/-- The exponent of the last place that `m * 2^e` has in the format. -/
def roundExp (f : AccFmt) (m : Nat) (e : Int) : Int := max (e + Nat.log2 m + 1 - f.prec) f.minExp

/-- The number `(-1)^neg * m * 2^e` rounded into the format (43_format_converter.md R191). -/
def roundFin (f : AccFmt) (neg : Bool) (m : Nat) (e : Int) : Fp :=
  if m = 0 then .fin neg 0 f.minExp
  else
    let u := roundExp f m e
    let q := if u ≤ e then m * 2 ^ (e - u).toNat else shiftRoundEven m (u - e).toNat
    let q' := if q = 2 ^ f.prec then 2 ^ (f.prec - 1) else q
    let u' := if q = 2 ^ f.prec then u + 1 else u
    if f.maxExp < u' then .inf neg else .fin neg q' u'

/-- `+0.0`, the neutral of F32 and the start of every accumulation (40_blur.md R117). -/
def Fp.zero (f : AccFmt) : Fp := .fin false 0 f.minExp

/-- A natural number as a constant of the format (40_blur.md R110). -/
def Fp.ofNat (f : AccFmt) (n : Nat) : Fp := roundFin f false n 0

/-- The sign changed. -/
def Fp.neg : Fp → Fp
  | .nan => .nan
  | .inf n => .inf (!n)
  | .fin n m e => .fin (!n) m e

/-- A signed significand as an integer, at the exponent `e` not above its own. -/
def alignedMant (neg : Bool) (m : Nat) (ex e : Int) : Int :=
  let v : Int := (m * 2 ^ (ex - e).toNat : Nat)
  if neg then -v else v

/-- `fadd` (43_format_converter.md R191). A zero sum is `+0` unless both operands are negative. -/
def fadd (f : AccFmt) : Fp → Fp → Fp
  | .nan, _ => .nan
  | .inf _, .nan => .nan
  | .fin _ _ _, .nan => .nan
  | .inf a, .inf b => if a = b then .inf a else .nan
  | .inf a, .fin _ _ _ => .inf a
  | .fin _ _ _, .inf b => .inf b
  | .fin na ma ea, .fin nb mb eb =>
    let e := min ea eb
    let v := alignedMant na ma ea e + alignedMant nb mb eb e
    if v = 0 then .fin (na && nb) 0 f.minExp else roundFin f (decide (v < 0)) v.natAbs e

/-- `fsub`: the sum with the sign of the second operand changed. -/
def fsub (f : AccFmt) (a b : Fp) : Fp := fadd f a b.neg

/-- `fmul` (43_format_converter.md R191). -/
def fmul (f : AccFmt) : Fp → Fp → Fp
  | .nan, _ => .nan
  | .inf _, .nan => .nan
  | .fin _ _ _, .nan => .nan
  | .inf a, .inf b => .inf (a ^^ b)
  | .inf a, .fin nb mb _ => if mb = 0 then .nan else .inf (a ^^ nb)
  | .fin na ma _, .inf b => if ma = 0 then .nan else .inf (na ^^ b)
  | .fin na ma ea, .fin nb mb eb => roundFin f (na ^^ nb) (ma * mb) (ea + eb)

/-- How far a dividend is shifted so that the quotient has more bits than the format. -/
def divShift (f : AccFmt) (mb : Nat) : Nat := f.prec + 3 + Nat.log2 mb

/-- The quotient of two significands with a last bit that says whether the division left a remainder; for
rounding to nearest it stands for the exact quotient. -/
def stickyQuotient (f : AccFmt) (ma mb : Nat) : Nat :=
  let n := ma * 2 ^ divShift f mb
  2 * (n / mb) + (if n % mb = 0 then 0 else 1)

/-- `fdiv` (43_format_converter.md R191). -/
def fdiv (f : AccFmt) : Fp → Fp → Fp
  | .nan, _ => .nan
  | .inf _, .nan => .nan
  | .fin _ _ _, .nan => .nan
  | .inf _, .inf _ => .nan
  | .inf a, .fin nb _ _ => .inf (a ^^ nb)
  | .fin na _ _, .inf b => .fin (na ^^ b) 0 f.minExp
  | .fin na ma ea, .fin nb mb eb =>
    if mb = 0 then (if ma = 0 then .nan else .inf (na ^^ nb))
    else roundFin f (na ^^ nb) (stickyQuotient f ma mb) (ea - eb - divShift f mb - 1)

/-- `cvt`: a datum taken into a format, one rounding; widening is exact (43_format_converter.md R192). -/
def fcvt (f : AccFmt) : Fp → Fp
  | .nan => .nan
  | .inf n => .inf n
  | .fin n m e => roundFin f n m e

/-- The datum of a binary32 pattern: bit 31 sign, bits 30:23 exponent, bits 22:0 fraction
(20_memory.md R53). -/
def fpOfBits (w : Word) : Fp :=
  let neg := bits w 31 31 == 1
  let ex := bits w 30 23
  let fr := bits w 22 0
  if ex = 255 then (if fr = 0 then .inf neg else .nan)
  else if ex = 0 then .fin neg fr (-149)
  else .fin neg (2 ^ 23 + fr) ((ex : Int) - 150)

/-- A binary32 pattern from sign, exponent field and fraction field. -/
def packBits (neg : Bool) (ex fr : Nat) : Word :=
  BitVec.ofNat 32 ((if neg then 2 ^ 31 else 0) + ex * 2 ^ 23 + fr)

/-- The NaN a free draw stands for: any sign and any non-zero fraction, exponent field all ones
(43_format_converter.md R193). -/
def nanBits (draw : Word) : Word :=
  packBits (bits draw 31 31 == 1) 255 (if bits draw 22 0 = 0 then 1 else bits draw 22 0)

/-- The binary32 pattern of a datum of binary32; `draw` is used for a NaN only. -/
def fpToBits (draw : Word) : Fp → Word
  | .nan => nanBits draw
  | .inf neg => packBits neg 255 0
  | .fin neg m e => if m < 2 ^ 23 then packBits neg 0 m else packBits neg (e + 150).toNat (m - 2 ^ 23)

end Sys2Proof.Machine
end

