-- ==== Sys2Proof/Config.lean ====
section
/-! DEFINITION. What the implementation fixes, and the free values: constants without a body, of which no proof
can know more than their type (93_implementation_defined.md). -/

namespace Sys2Proof

/-- One past the highest byte address: `2^ADDR_BITS` with `ADDR_BITS = 32` (20_memory.md R50). -/
def Config.memLimit : Nat := 2 ^ 32

/-- What a byte of `MEM` that nothing has written reads as. DESIGN CHOICE, unsafe: 10_state.md R35 gives
memory no reset content (notes/assumptions/2.md). -/
def Config.blankByte : Byte := 0

/-- The free draw behind the `n`-th stored NaN (93_implementation_defined.md U5; notes/assumptions/3.md). -/
opaque Config.nanDraw : Nat → Word

/-- The free content of an element of `IB` that holds no written integer: `n` counts the times the content
of `IB` became unspecified, `key` is the element (93_implementation_defined.md U8; notes/assumptions/4.md). -/
opaque Config.freeIbInt : Nat → Nat → Nat

/-- The free content of an element of `IB` that holds no written floating datum
(93_implementation_defined.md U8; notes/assumptions/4.md). -/
opaque Config.freeIbFp : Nat → Nat → Machine.Fp

/-- The free index behind a tap whose single reflection leaves the plane: of such a tap the spec gives no index,
and forbids to make one up (93_implementation_defined.md U1; notes/assumptions/19.md). -/
opaque Config.strayTap : Nat → Int → Nat

end Sys2Proof
end

