-- ==== Sys2Proof/Machine/State.lean ====
section
/-! DEFINITION. The state of one ATWT-CORE (10_state.md R20), its reset value (R35), and the reasons a step
can stop. -/

namespace Sys2Proof.Machine

/-- The four registers of a plane descriptor (30_encoding.md R84). -/
structure PlaneRegs where
  addr : Word
  stride : Word
  dim : Word
  fmt : Word
deriving DecidableEq, Repr

/-- The eleven read-write registers (10_state.md R21, R38). CTRL and the reserved offsets hold no storage
(R22, R37); STATUS stands in `State`. -/
structure Regs where
  cmd : Word
  p0 : PlaneRegs
  p1 : PlaneRegs
  dstAddr : Word
  dstStride : Word
deriving DecidableEq, Repr

/-- The rejection codes (30_encoding.md R88). -/
inductive RejectCode where
  | eOp
  | eFmt
  | eRadius
  | eMismatch
  | eGeom
  | eAlign
  | eOverlap
deriving DecidableEq, Repr

/-- The values of STATUS.STATE (10_state.md R23). -/
inductive RunState where
  | idle
  | busy
  | done
  | rejected
deriving DecidableEq, Repr

/-- The control position: which pass of the running command is in progress (10_state.md R27, R31). -/
inductive Phase where
  | none
  | hpass
  | vpass
  | rpass
deriving DecidableEq, Repr

/-- Memory, as the list of the bytes that differ from what an unlisted address reads as, addresses strictly
rising (10_state.md R29). -/
abbrev Memory := List Host.Cell

/-- One entry of the schedule of the agents around the block (44_launch_and_status.md R209). The MODEL's own
form of the outside world: host register and memory accesses, the block's turns between them, and reset. -/
inductive Turn where
  /-- `WR`: a register write of `size` bytes at byte offset `off` from REG_BASE (R210, R217). -/
  | regWrite (off size : Nat) (value : Word)
  /-- `RD`: a register read of `size` bytes at byte offset `off` (R211, R217). -/
  | regRead (off size : Nat)
  /-- The host, or any other agent, reads a byte of `MEM`. -/
  | load (addr : Word)
  /-- The host, or any other agent, writes a byte of `MEM`. -/
  | store (addr : Word) (value : Byte)
  /-- The block takes a step while the host does nothing. -/
  | block
  /-- The host polls STATUS until it is not BUSY (30_encoding.md R94 `WAIT`). -/
  | wait
  /-- Reset arrives from outside (70_reset_and_hazards.md R270). -/
  | reset
deriving DecidableEq, Repr

/-- What a host read was answered. -/
inductive Answer where
  /-- The 32 bits a register read returned. -/
  | register (value : Word)
  /-- The byte a memory read returned. -/
  | byte (value : Byte)
deriving DecidableEq, Repr

/-- The machine. The fields from `accFmt` on are the model's own: two platform parameters that no step
changes, and the scheduling of the outside world (INVENTORY.md, State). -/
structure State where
  /-- STATUS (10_state.md R23). -/
  status : Word
  /-- CMD and the descriptor registers (10_state.md R24 to R26). -/
  regs : Regs
  /-- PHASE (10_state.md R27). -/
  phase : Phase
  /-- DONE_SET (10_state.md R27): coordinate `(x, y)` as `y * W + x`, strictly rising. -/
  doneSet : List Nat
  /-- IB (10_state.md R28): the written elements, element `(x, y)` under the key `y * W + x`, keys strictly
  rising. An element that is not listed has unspecified content. -/
  ib : List (Nat × Datum)
  /-- MEM (10_state.md R29). -/
  mem : Memory
  /-- ACC_FMT (92_eei_decisions.md D20), a parameter. -/
  accFmt : AccFmt
  /-- RESIDENT (92_eei_decisions.md D16), a parameter: the bytes of the half-open intervals listed. -/
  resident : List (Nat × Nat)
  /-- How many free values have been drawn. -/
  draws : Nat
  /-- Which coordinate the block takes next, where it is one still to do (20_memory.md R62: any order). -/
  picks : List Nat
  /-- What the agents around the block do next, in order. -/
  agenda : List Turn
  /-- What host reads were answered, the latest first. -/
  answers : List Answer
deriving DecidableEq, Repr

/-- Why the machine stops. Neither is reached from a state that keeps the control invariant
(Safety.lean), as 60_exceptions.md R239 and R249 demand. -/
inductive Fault where
  /-- Raised by a computation step of a BUSY block whose registers hold no command that passes validation.
  START admits none (R213) and the registers are frozen while BUSY (R212). Safe: the model stops. -/
  | unvalidatedCommand
  /-- Raised by a computation step of a BUSY block whose PHASE is not one of the running operation
  (10_state.md R27 knows no such state). Safe: the model stops. -/
  | phaseMismatch
deriving DecidableEq, Repr

/-- What the model gives no meaning, each case as 93_implementation_defined.md asks. -/
inductive Refusal where
  /-- An instruction without a meaning, by its mnemonic; raised by no arm of `exec`. Safe. -/
  | notModelled (mnemonic : String)
  /-- A launch with a footprint not wholly inside RESIDENT, or a host access outside it
  (20_memory.md R67, 93_implementation_defined.md U4). Raised by START and by host accesses. Safe. -/
  | notResident
  /-- A host access to a plane of the running command that its contract forbids
  (20_memory.md R63, 93_implementation_defined.md U3). Raised by host memory accesses. Safe. -/
  | hostContract
  /-- A register access that is not an aligned 32-bit access inside the block
  (44_launch_and_status.md R217, 93_implementation_defined.md U6). Raised by host register accesses. Safe. -/
  | registerAccess
deriving DecidableEq, Repr

/-- A descriptor after reset (10_state.md R35). -/
def PlaneRegs.reset : PlaneRegs := { addr := 0, stride := 0, dim := 0, fmt := 0 }

/-- The read-write registers after reset: CMD holds OP 0 and RADIUS 1, all others 0 (10_state.md R35). -/
def Regs.reset : Regs :=
  { cmd := 0x00000100, p0 := PlaneRegs.reset, p1 := PlaneRegs.reset, dstAddr := 0, dstStride := 0 }

/-- The machine after reset (10_state.md R35, 70_reset_and_hazards.md R271). ACC_FMT and RESIDENT are the
model's choices (notes/assumptions/5.md, 6.md); memory is blank (notes/assumptions/2.md). -/
def State.reset : State :=
  { status := 0
    regs := Regs.reset
    phase := .none
    doneSet := []
    ib := []
    mem := []
    accFmt := .b64
    resident := [(0, Config.memLimit)]
    draws := 0
    picks := []
    agenda := []
    answers := [] }

end Sys2Proof.Machine
end

