-- ==== Sys2Proof/Machine/Flags.lean ====
section
/-! DEFINITION. The block has no flags (10_state.md R32). Its one status is the STATUS word, composed and
read here (10_state.md R23; 30_encoding.md R87, R88). -/

namespace Sys2Proof.Machine

/-- The value of the STATE field (10_state.md R23). -/
def RunState.code : RunState → Nat
  | .idle => 0
  | .busy => 1
  | .done => 2
  | .rejected => 3

/-- The value of the ERR field for a rejection (30_encoding.md R88). -/
def RejectCode.code : RejectCode → Nat
  | .eOp => 1
  | .eFmt => 2
  | .eRadius => 3
  | .eMismatch => 4
  | .eGeom => 5
  | .eAlign => 6
  | .eOverlap => 7

/-- The STATUS word with STATE in bits 1:0 and ERR in bits 7:4, every other bit 0 (30_encoding.md R87). -/
def statusWord (st : RunState) (err : Nat) : Word := BitVec.ofNat 32 (st.code + err * 2 ^ 4)

/-- STATUS.STATE (10_state.md R23). -/
def State.runState (s : State) : RunState :=
  match bits s.status 1 0 with
  | 0 => .idle
  | 1 => .busy
  | 2 => .done
  | _ => .rejected

/-- STATUS.ERR (10_state.md R23). -/
def State.err (s : State) : Nat := bits s.status 7 4

/-- `STATUS.STATE = BUSY`. -/
def State.busy (s : State) : Bool := s.runState == .busy

/-- The ten values STATUS can have (30_encoding.md R87). -/
def legalStatus (w : Word) : Bool :=
  w == statusWord .idle 0 || w == statusWord .busy 0 || w == statusWord .done 0
    || ([1, 2, 3, 4, 5, 6, 7].any fun c => w == statusWord .rejected c)

end Sys2Proof.Machine
end

