-- ==== Sys2Proof/Machine/Memory.lean ====
section
/-! DEFINITION. The byte memory in its canonical form, and the sorted lists that hold DONE_SET and IB
(10_state.md R27 to R29; 20_memory.md R50, R52). -/

namespace Sys2Proof.Machine

/-- The byte at an address. Addresses rise along the list, so the search ends at a larger one. -/
def Memory.read : Memory → Nat → Byte
  | [], _ => Config.blankByte
  | (k, v) :: m, a => if a < k then Config.blankByte else if a = k then v else Memory.read m a

/-- A byte put in front, or nothing where it is what an unlisted address reads as. -/
def Memory.cons (a : Nat) (v : Byte) (m : Memory) : Memory :=
  if v = Config.blankByte then m else (a, v) :: m

/-- Memory with one byte written, in canonical form. -/
def Memory.write : Memory → Nat → Byte → Memory
  | [], a, v => Memory.cons a v []
  | (k, b) :: m, a, v =>
    if a < k then Memory.cons a v ((k, b) :: m)
    else if a = k then Memory.cons a v m
    else (k, b) :: Memory.write m a v

/-- `MemRead(a, n)`: the bytes at `a` to `a + n - 1`, lowest address first (00_scope.md R13). -/
def Memory.readBytes (m : Memory) : Nat → Nat → List Byte
  | _, 0 => []
  | a, n + 1 => m.read a :: Memory.readBytes m (a + 1) n

/-- `MemWrite(a, n, bytes)`: stores the bytes, lowest address first (00_scope.md R13). -/
def Memory.writeBytes : Memory → Nat → List Byte → Memory
  | m, _, [] => m
  | m, a, b :: bs => Memory.writeBytes (m.write a b) (a + 1) bs

/-- Every key of the list is at least `lo`, below the end of memory, rising, and no entry is blank. -/
def Memory.wfFrom : Nat → Memory → Bool
  | _, [] => true
  | lo, (k, v) :: m =>
    decide (lo ≤ k) && decide (k < Config.memLimit) && decide (v ≠ Config.blankByte) && Memory.wfFrom (k + 1) m

/-- The canonical form: addresses strictly rising inside the address space, no blank entry. -/
def Memory.wf (m : Memory) : Bool := Memory.wfFrom 0 m

/-- A coordinate added to a rising list of coordinates (DONE_SET, 10_state.md R27). -/
def insertCoord (k : Nat) : List Nat → List Nat
  | [] => [k]
  | j :: js => if k < j then k :: j :: js else if k = j then j :: js else j :: insertCoord k js

/-- The value of an element of IB, where one is listed. -/
def ibLookup (k : Nat) : List (Nat × Datum) → Option Datum
  | [] => none
  | (j, d) :: ib => if k = j then some d else ibLookup k ib

/-- IB with one element written (10_state.md R28). -/
def ibWrite (k : Nat) (d : Datum) : List (Nat × Datum) → List (Nat × Datum)
  | [] => [(k, d)]
  | (j, e) :: ib =>
    if k < j then (k, d) :: (j, e) :: ib else if k = j then (k, d) :: ib else (j, e) :: ibWrite k d ib

/-- Keys strictly rising from `lo` on. -/
def risingFrom : Nat → List Nat → Bool
  | _, [] => true
  | lo, k :: ks => decide (lo ≤ k) && risingFrom (k + 1) ks

end Sys2Proof.Machine
end

