-- ==== Sys2Proof/Machine/Operands.lean ====
section
/-! DEFINITION. The operands of a command: formats, plane descriptors, the output plane, sample addresses,
footprints, the dilation step (30_encoding.md R83 to R86; 20_memory.md R51, R56; 43_format_converter.md R180,
R182). -/

namespace Sys2Proof.Machine

/-- The format of a format code; the whole register is compared (30_encoding.md R85). -/
def PixFmt.ofCode (w : Word) : Option PixFmt :=
  if w = 0 then some .u8 else if w = 1 then some .u16 else if w = 2 then some .f32 else none

/-- `size(fmt)`, bytes of a sample (43_format_converter.md R182). -/
def PixFmt.size : PixFmt → Nat
  | .u8 => 1
  | .u16 => 2
  | .f32 => 4

/-- `neutral(fmt)` of the integer formats (43_format_converter.md R180). The neutral of F32 is the
floating `+0.0` (Machine/Float.lean, `Fp.zero`); its row here is not used. -/
def PixFmt.neutral : PixFmt → Int
  | .u8 => 128
  | .u16 => 32768
  | .f32 => 0

/-- `max(fmt)` (43_format_converter.md R180); no rule uses that of F32 (R183). -/
def PixFmt.max : PixFmt → Int
  | .u8 => 255
  | .u16 => 65535
  | .f32 => 1

/-- A plane: address and stride in bytes, width and height in samples, format (30_encoding.md R84). -/
structure Plane where
  addr : Nat
  stride : Nat
  width : Nat
  height : Nat
  fmt : PixFmt
deriving DecidableEq, Repr

/-- WIDTH of a DIM register (30_encoding.md R86). -/
def dimWidth (dim : Word) : Nat := bits dim 15 0

/-- HEIGHT of a DIM register (30_encoding.md R86). -/
def dimHeight (dim : Word) : Nat := bits dim 31 16

/-- The format of the command: that of P0, read once (43_format_converter.md R181). Validation has found
the code legal wherever this is used. -/
def Regs.fmt (r : Regs) : PixFmt := (PixFmt.ofCode r.p0.fmt).getD .u8

/-- A plane at the given address and stride with the width, height and format of P0; all planes of a
command have these (10_state.md R26; 42_replace.md R160; 60_exceptions.md R230, R237). -/
def Regs.planeAt (r : Regs) (addr stride : Word) : Plane :=
  { addr := addr.toNat, stride := stride.toNat, width := dimWidth r.p0.dim, height := dimHeight r.p0.dim,
    fmt := r.fmt }

/-- P0, the source of EXTRACT and the base of REPLACE (10_state.md R25). -/
def Regs.srcPlane (r : Regs) : Plane := r.planeAt r.p0.addr r.p0.stride

/-- P1, the detail plane of REPLACE (10_state.md R25). Its own DIM and FMT equal P0's in every command
that passed E_MISMATCH (60_exceptions.md R234). -/
def Regs.detailPlane (r : Regs) : Plane := r.planeAt r.p1.addr r.p1.stride

/-- The output plane DST (10_state.md R26). -/
def Regs.dstPlane (r : Regs) : Plane := r.planeAt r.dstAddr r.dstStride

/-- The number of samples of a plane, `W * H`. -/
def Plane.count (p : Plane) : Nat := p.width * p.height

/-- `addr(P, x, y)` (20_memory.md R51), in unbounded integers. -/
def Plane.sampleAddr (p : Plane) (x y : Nat) : Nat := p.addr + y * p.stride + x * p.fmt.size

/-- The end of the footprint (20_memory.md R56): one past the last sample byte of the last row. -/
def Plane.footEnd (p : Plane) : Nat := p.addr + (p.height - 1) * p.stride + p.width * p.fmt.size

/-- The address lies in the footprint (20_memory.md R56). -/
def Plane.inFoot (p : Plane) (a : Nat) : Bool := decide (p.addr ≤ a) && decide (a < p.footEnd)

/-- The footprints do not meet (20_memory.md R58). -/
def Plane.disjoint (p q : Plane) : Bool := decide (p.footEnd ≤ q.addr) || decide (q.footEnd ≤ p.addr)

/-- The input planes an operation uses (60_exceptions.md R230). -/
def inputPlanes (r : Regs) : Instr → List Plane
  | .extract _ => [r.srcPlane]
  | .replace => [r.srcPlane, r.detailPlane]

/-- `all`: the input planes used and DST (60_exceptions.md R230). -/
def usedPlanes (r : Regs) (i : Instr) : List Plane := inputPlanes r i ++ [r.dstPlane]

/-- `step = 2^(radius-1)`, an unbounded integer (30_encoding.md R83, 40_blur.md R111); used for
`radius >= 1` only. -/
def dilation (radius : Int) : Nat := 2 ^ (radius - 1).toNat

/-- The premise of the range lemma (40_blur.md R113): along an axis of this size, one reflection brings every tap of
every centre back into the plane. -/
def oneReflectionSuffices (size step : Nat) : Bool := decide (2 * step + 1 ≤ size)

/-- The column of coordinate number `k` of a plane `w` wide. -/
def coordX (w k : Nat) : Nat := k % w

/-- The row of coordinate number `k` of a plane `w` wide. -/
def coordY (w k : Nat) : Nat := k / w

/-- The number of coordinate `(x, y)`. -/
def coordKey (w x y : Nat) : Nat := y * w + x

end Sys2Proof.Machine
end

