-- ==== Sys2Proof/Machine/Convert.lean ====
section
/-! DEFINITION. The format converter: byte order, sample load, rounding, clamping, sample store
(43_format_converter.md R184 to R189; 20_memory.md R53). -/

namespace Sys2Proof.Machine

/-- The number that bytes spell, the first the least significant (20_memory.md R53). -/
def leNat : List Byte → Nat
  | [] => 0
  | b :: bs => b.toNat + 2 ^ 8 * leNat bs

/-- The `n` low bytes of a number, the least significant first (43_format_converter.md R188). -/
def leBytes : Nat → Nat → List Byte
  | 0, _ => []
  | n + 1, v => BitVec.ofNat 8 v :: leBytes n (v / 2 ^ 8)

/-- The bytes of a sample, as the unsigned number they spell (20_memory.md R51 to R53). -/
def rawSample (m : Memory) (p : Plane) (x y : Nat) : Nat := leNat (m.readBytes (p.sampleAddr x y) p.fmt.size)

/-- `load` of U8 and U16: the sample zero-extended (43_format_converter.md R184). -/
def loadInt (m : Memory) (p : Plane) (x y : Nat) : Int := (rawSample m p x y : Int)

/-- `load` of F32: the binary32 pattern, widened to `ACC_FMT` (43_format_converter.md R185). -/
def loadFp (f : AccFmt) (m : Memory) (p : Plane) (x y : Nat) : Fp :=
  fcvt f (fpOfBits (BitVec.ofNat 32 (rawSample m p x y)))

/-- `rha(num / den)`, round half away from zero (43_format_converter.md R186). -/
def rha (num : Int) (den : Nat) : Int :=
  if 0 ≤ num then (2 * num + den) / (2 * den) else -((2 * -num + den) / (2 * den))

/-- `clamp(v, lo, hi)` (00_scope.md R12). -/
def clamp (v lo hi : Int) : Int := if v < lo then lo else if hi < v then hi else v

/-- `store`: memory with the sample of plane `p` at `(x, y)` set to the number `v` (43_format_converter.md
R188, R189). -/
def storeRaw (m : Memory) (p : Plane) (x y v : Nat) : Memory :=
  m.writeBytes (p.sampleAddr x y) (leBytes p.fmt.size v)

/-- The binary32 pattern stored for a datum of the float domain: one rounding; a NaN is the given free draw
(43_format_converter.md R189, R193). -/
def storedBits (draw : Word) (v : Fp) : Word := fpToBits draw (fcvt .b32 v)

/-- The datum is a NaN. -/
def Fp.isNan : Fp → Bool
  | .nan => true
  | _ => false

end Sys2Proof.Machine
end

