-- ==== Sys2Proof/Machine/Blur.lean ====
section
/-! DEFINITION. The separable dilated 5-tap pass: kernel, mirror resolver, sums (40_blur.md R110 to R121). -/

namespace Sys2Proof.Machine

/-- The taps `k = -2 .. 2` in their order, each with its weight `K[k+2]` (40_blur.md R110). -/
def taps : List (Int × Nat) := [(-2, 1), (-1, 4), (0, 6), (1, 4), (2, 1)]

/-- `mirror(pos, size)`: reflection without repeating the edge, applied once (40_blur.md R112). -/
def mirror (pos size : Int) : Int :=
  if pos < 0 then -pos else if size ≤ pos then 2 * size - 2 - pos else pos

/-- The coordinate tap `k` reads in a pass centred at `c` (40_blur.md R111, R115). Where `size >= 2*step + 1` it
is the mirrored position (R113). Elsewhere a reflection may leave the plane, and the tap then has no index of its own: it
is a free one of the plane, neither the position clamped nor one reflected again (R114, 93_implementation_defined.md U1).
No command that passed E_GEOM has such a tap. -/
def tapCoord (size step c : Nat) (k : Int) : Nat :=
  let pos := mirror ((c : Int) + k * step) size
  if 0 ≤ pos ∧ pos < size then pos.toNat else Config.strayTap size pos % size

/-- The sum of a pass in the integer domain, over the samples `f` of a row or a column
(40_blur.md R116, R119). -/
def passInt (f : Nat → Int) (size step c : Nat) : Int :=
  taps.foldl (fun acc t => acc + t.2 * f (tapCoord size step c t.1)) 0

/-- The sum of a pass in the float domain, in tap order from `+0.0`, product and sum rounded apart
(40_blur.md R117, R120). -/
def passFp (a : AccFmt) (f : Nat → Fp) (size step c : Nat) : Fp :=
  taps.foldl (fun acc t => fadd a acc (fmul a (f (tapCoord size step c t.1)) (Fp.ofNat a t.2))) (Fp.zero a)

/-- The blurred value in the float domain, `V / 256` (40_blur.md R121). -/
def blurredFp (a : AccFmt) (v : Fp) : Fp := fdiv a v (Fp.ofNat a 256)

end Sys2Proof.Machine
end

