-- ==== Sys2Proof/Machine/Validate.lean ====
section
/-! DEFINITION. Validation of a command at START: the seven conditions and their order
(60_exceptions.md R231 to R238), and the decoding of the eleven command words (30_encoding.md R96). -/

namespace Sys2Proof.Machine

/-- The descriptors of the input planes an operation uses (60_exceptions.md R230). -/
def inputRegs (r : Regs) : Instr → List PlaneRegs
  | .extract _ => [r.p0]
  | .replace => [r.p0, r.p1]

/-- E_FMT: the format code of a used input plane is not 0, 1 or 2 (60_exceptions.md R232). -/
def condFmt (i : Instr) (r : Regs) : Bool := (inputRegs r i).any fun p => (PixFmt.ofCode p.fmt).isNone

/-- E_RADIUS: EXTRACT with a radius below 1 (60_exceptions.md R233). -/
def condRadius : Instr → Bool
  | .extract radius => decide (radius < 1)
  | .replace => false

/-- E_MISMATCH: REPLACE with input planes that differ in format or dimensions (60_exceptions.md R234). -/
def condMismatch (i : Instr) (r : Regs) : Bool :=
  match i with
  | .extract _ => false
  | .replace => r.p0.fmt != r.p1.fmt || r.p0.dim != r.p1.dim

/-- E_GEOM (b) and (c): the stride is too small or the footprint passes the end of memory
(60_exceptions.md R235). -/
def Plane.badGeometry (q : Plane) : Bool :=
  decide (q.stride < q.width * q.fmt.size) || decide (Config.memLimit < q.footEnd)

/-- E_GEOM (d): one reflection does not suffice in a dimension (60_exceptions.md R235; 40_blur.md R113). -/
def tooSmall (i : Instr) (size : Nat) : Bool :=
  match i with
  | .extract radius => !oneReflectionSuffices size (dilation radius)
  | .replace => false

/-- E_GEOM (60_exceptions.md R235). -/
def condGeom (i : Instr) (r : Regs) : Bool :=
  decide (dimWidth r.p0.dim = 0) || decide (dimHeight r.p0.dim = 0)
    || (usedPlanes r i).any Plane.badGeometry
    || tooSmall i (dimWidth r.p0.dim) || tooSmall i (dimHeight r.p0.dim)

/-- The plane's address or stride is no multiple of the sample size (20_memory.md R54). -/
def Plane.misaligned (q : Plane) : Bool :=
  decide (q.addr % q.fmt.size ≠ 0) || decide (q.stride % q.fmt.size ≠ 0)

/-- E_ALIGN (60_exceptions.md R236). -/
def condAlign (i : Instr) (r : Regs) : Bool := (usedPlanes r i).any Plane.misaligned

/-- E_OVERLAP: the output footprint meets that of a used input plane (60_exceptions.md R237). -/
def condOverlap (i : Instr) (r : Regs) : Bool := (inputPlanes r i).any fun p => !(r.dstPlane.disjoint p)

/-- The checks that follow E_OP, in the order of their codes; the first that holds is reported
(60_exceptions.md R238). -/
def validateOp (i : Instr) (r : Regs) : Option RejectCode :=
  if condFmt i r then some .eFmt
  else if condRadius i then some .eRadius
  else if condMismatch i r then some .eMismatch
  else if condGeom i r then some .eGeom
  else if condAlign i r then some .eAlign
  else if condOverlap i r then some .eOverlap
  else none

/-- `validate(REGS)` (60_exceptions.md R238): the rejection code, or nothing where the command is
accepted. -/
def validate (r : Regs) : Option RejectCode :=
  match decode r.cmd with
  | .rejected _ => some .eOp
  | .instr i => validateOp i r

/-- The command that eleven words stand for: the operation with its planes, or the rejection
(30_encoding.md R96). -/
inductive Command where
  | extract (step : Nat) (src dst : Plane)
  | replace (base detail dst : Plane)
  | rejected (c : RejectCode)
deriving DecidableEq, Repr

/-- `decode(cmd, p0, p1, dst)` (30_encoding.md R96), total on all registers. -/
def decodeCommand (r : Regs) : Command :=
  match decode r.cmd with
  | .rejected _ => .rejected .eOp
  | .instr i =>
    match validateOp i r with
    | some c => .rejected c
    | none =>
      match i with
      | .extract radius => .extract (dilation radius) r.srcPlane r.dstPlane
      | .replace => .replace r.srcPlane r.detailPlane r.dstPlane

end Sys2Proof.Machine
end

