-- ==== Sys2Proof/Machine/Ops.lean ====
section
/-! DEFINITION. The operations shared by both instructions: taking the rejection, launching, choosing a
coordinate, storing a sample, completing (44_launch_and_status.md R213, R215, R221; 60_exceptions.md R240). -/

namespace Sys2Proof.Machine

/-- What one step answers. -/
abbrev Result := Host.Outcome State Fault Refusal

/-- The address holds storage (20_memory.md R50: the set RESIDENT). -/
def isResident (rs : List (Nat × Nat)) (a : Nat) : Bool :=
  rs.any fun r => decide (r.1 ≤ a) && decide (a < r.2)

/-- All of `[lo, hi)` holds storage: while `lo` is short of `hi`, an interval that contains `lo` is passed
and the search goes on at its end; `fuel` intervals at most. -/
def coveredFrom (rs : List (Nat × Nat)) (hi : Nat) : Nat → Nat → Bool
  | 0, lo => decide (hi ≤ lo)
  | fuel + 1, lo =>
    if hi ≤ lo then true
    else match rs.find? (fun r => decide (r.1 ≤ lo) && decide (lo < r.2)) with
      | some r => coveredFrom rs hi fuel r.2
      | none => false

/-- The footprint lies wholly inside RESIDENT (20_memory.md R67). -/
def Plane.resident (rs : List (Nat × Nat)) (p : Plane) : Bool := coveredFrom rs p.footEnd rs.length p.addr

/-- The launch premise: every footprint of the command is resident (20_memory.md R67). -/
def commandResident (i : Instr) (s : State) : Bool := (usedPlanes s.regs i).all (Plane.resident s.resident)

/-- Taking the exception `Reject(c)`, the block's only one: STATUS alone changes (60_exceptions.md R240).
There is no return from it (R241): the next START overwrites STATUS. -/
def State.reject (s : State) (c : RejectCode) : State := { s with status := statusWord .rejected c.code }

/-- A validated START: BUSY, in the operation's first phase, nothing computed yet
(44_launch_and_status.md R213). -/
def State.enter (s : State) (p : Phase) : State :=
  { s with status := statusWord .busy 0, phase := p, doneSet := [] }

/-- START of a decoded command: the first failed check rejects it; a footprint outside RESIDENT is outside the
contract; else the block becomes BUSY (44_launch_and_status.md R213; 20_memory.md R67). -/
def launch (i : Instr) (p : Phase) (s : State) : Result :=
  match validateOp i s.regs with
  | some c => .next (s.reject c)
  | none => if commandResident i s then .next (s.enter p) else .refused .notResident

/-- A computation step runs only on registers that passed validation; no run reaches another BUSY state
(44_launch_and_status.md R212, R213). -/
def whenValid (i : Instr) (s : State) (r : Result) : Result :=
  match validateOp i s.regs with
  | some _ => .fault .unvalidatedCommand
  | none => r

/-- The least coordinate number from `k` on, of `fuel` ones, that is not yet done. -/
def firstTodo (done : List Nat) : Nat → Nat → Option Nat
  | 0, _ => none
  | fuel + 1, k => if done.contains k then firstTodo done fuel (k + 1) else some k

/-- The coordinate the block takes next, of `n`: the first entry of `picks` where it is still to do, else
the least one still to do. None where all are done. Any order can be had so (20_memory.md R62). -/
def nextCoord (n : Nat) (s : State) : Option Nat :=
  match s.picks with
  | [] => firstTodo s.doneSet n 0
  | p :: _ => if p < n ∧ ¬ s.doneSet.contains p then some p else firstTodo s.doneSet n 0

/-- A coordinate enters DONE_SET (10_state.md R27). -/
def State.processed (s : State) (k : Nat) : State :=
  { s with doneSet := insertCoord k s.doneSet, picks := s.picks.tail }

/-- The content of IB becomes unspecified (10_state.md R28). -/
def State.discardIb (s : State) : State := { s with ib := [], draws := s.draws + 1 }

/-- An element of IB is written (10_state.md R28). -/
def State.writeIb (s : State) (k : Nat) (d : Datum) : State := { s with ib := ibWrite k d s.ib }

/-- An element of IB read in the integer domain. Where none is written it is a free integer of the range
10_state.md R28 gives. -/
def State.ibInt (s : State) (k : Nat) : Int :=
  match ibLookup k s.ib with
  | some (.int v) => v
  | _ => (Config.freeIbInt s.draws k : Int) % (16 * s.regs.fmt.max + 1)

/-- An element of IB read in the float domain. Where none is written it is a free datum of `ACC_FMT`
(10_state.md R28). -/
def State.ibFp (s : State) (k : Nat) : Fp :=
  match ibLookup k s.ib with
  | some (.flt v) => v
  | _ => fcvt s.accFmt (Config.freeIbFp s.draws k)

/-- The coordinate's sample of DST is stored (43_format_converter.md R188, R189). A NaN takes a free draw of
its own (R193). -/
def State.storeDst (s : State) (k : Nat) (d : Datum) : State :=
  let dst := s.regs.dstPlane
  let x := coordX dst.width k
  let y := coordY dst.width k
  match d with
  | .int v => { s with mem := storeRaw s.mem dst x y v.toNat }
  | .flt v =>
    { s with
      mem := storeRaw s.mem dst x y (storedBits (Config.nanDraw s.draws) v).toNat
      draws := if (fcvt .b32 v).isNan then s.draws + 1 else s.draws }

/-- Completion: every sample of DST is stored (44_launch_and_status.md R215). -/
def State.complete (s : State) : State :=
  { s with status := statusWord .done 0, phase := .none, doneSet := [] }

end Sys2Proof.Machine
end

