-- ==== Sys2Proof/Machine/Extract.lean ====
section
/-! DEFINITION. EXTRACT, the detail extractor (41_extract.md R140 to R149; 40_blur.md R116 to R121). -/

namespace Sys2Proof.Machine

/-- `Hs` at coordinate `k` (40_blur.md R116, R117). -/
def horizontalSum (s : State) (step k : Nat) : Datum :=
  let src := s.regs.srcPlane
  let x := coordX src.width k
  let y := coordY src.width k
  match src.fmt with
  | .f32 => .flt (passFp s.accFmt (fun c => loadFp s.accFmt s.mem src c y) src.width step x)
  | _ => .int (passInt (fun c => loadInt s.mem src c y) src.width step x)

/-- `V` at coordinate `k` in the integer domain, over the elements of IB (40_blur.md R119). -/
def verticalInt (s : State) (step k : Nat) : Int :=
  let src := s.regs.srcPlane
  passInt (fun r => s.ibInt (coordKey src.width (coordX src.width k) r)) src.height step (coordY src.width k)

/-- `V` at coordinate `k` in the float domain (40_blur.md R120). -/
def verticalFp (s : State) (step k : Nat) : Fp :=
  let src := s.regs.srcPlane
  passFp s.accFmt (fun r => s.ibFp (coordKey src.width (coordX src.width k) r)) src.height step
    (coordY src.width k)

/-- The detail of a sample in the integer domain: `clamp(rha(N / 256), 0, max)` with
`N = 256 * (s + n) - V` (41_extract.md R142). -/
def detailInt (fmt : PixFmt) (sample v : Int) : Int := clamp (rha (256 * (sample + fmt.neutral) - v) 256) 0 fmt.max

/-- The detail of a sample in the float domain: `(s - V / 256) + 0.0` (41_extract.md R142, R144). -/
def detailFp (a : AccFmt) (sample v : Fp) : Fp := fadd a (fsub a sample (blurredFp a v)) (Fp.zero a)

/-- The value EXTRACT stores at coordinate `k` (41_extract.md R142). -/
def detailSample (s : State) (step k : Nat) : Datum :=
  let src := s.regs.srcPlane
  let x := coordX src.width k
  let y := coordY src.width k
  match src.fmt with
  | .f32 => .flt (detailFp s.accFmt (loadFp s.accFmt s.mem src x y) (verticalFp s step k))
  | _ => .int (detailInt src.fmt (loadInt s.mem src x y) (verticalInt s step k))

/-- A step of HPASS: one element of IB, or the turn to VPASS where all are written (40_blur.md R118). -/
def hpassStep (step : Nat) (s : State) : State :=
  match nextCoord s.regs.srcPlane.count s with
  | some k => (s.writeIb k (horizontalSum s step k)).processed k
  | none => { s with phase := .vpass, doneSet := [] }

/-- A step of VPASS: one sample of DST, or completion where all are stored; IB is discarded then
(41_extract.md R142; 44_launch_and_status.md R215; 10_state.md R28). -/
def vpassStep (step : Nat) (s : State) : State :=
  match nextCoord s.regs.srcPlane.count s with
  | some k => (s.storeDst k (detailSample s step k)).processed k
  | none => s.discardIb.complete

/-- EXTRACT. On a block that is not BUSY it is launched (44_launch_and_status.md R213); on a BUSY block it
takes the next step of its phase (R221). -/
def execExtract (radius : Int) (s : State) : Result :=
  if s.busy then
    whenValid (.extract radius) s (match s.phase with
      | .hpass => .next (hpassStep (dilation radius) s)
      | .vpass => .next (vpassStep (dilation radius) s)
      | .none => .fault .phaseMismatch
      | .rpass => .fault .phaseMismatch)
  else launch (.extract radius) .hpass s

end Sys2Proof.Machine
end

