-- ==== Sys2Proof/Machine/Replace.lean ====
section
/-! DEFINITION. REPLACE, the detail replacer (42_replace.md R160 to R167). -/

namespace Sys2Proof.Machine

/-- The recombined sample in the integer domain: `clamp(b + t - n, 0, max)` (42_replace.md R162, R163). -/
def recombineInt (fmt : PixFmt) (base detail : Int) : Int := clamp (base + detail - fmt.neutral) 0 fmt.max

/-- The recombined sample in the float domain: `(b + t) - 0.0` (42_replace.md R162, R164). -/
def recombineFp (a : AccFmt) (base detail : Fp) : Fp := fsub a (fadd a base detail) (Fp.zero a)

/-- The value REPLACE stores at coordinate `k` (42_replace.md R162). -/
def recombineSample (s : State) (k : Nat) : Datum :=
  let base := s.regs.srcPlane
  let detail := s.regs.detailPlane
  let x := coordX base.width k
  let y := coordY base.width k
  match base.fmt with
  | .f32 => .flt (recombineFp s.accFmt (loadFp s.accFmt s.mem base x y) (loadFp s.accFmt s.mem detail x y))
  | _ => .int (recombineInt base.fmt (loadInt s.mem base x y) (loadInt s.mem detail x y))

/-- A step of RPASS: one sample of DST, or completion where all are stored (42_replace.md R162;
44_launch_and_status.md R215). -/
def rpassStep (s : State) : State :=
  match nextCoord s.regs.srcPlane.count s with
  | some k => (s.storeDst k (recombineSample s k)).processed k
  | none => s.complete

/-- REPLACE. On a block that is not BUSY it is launched (44_launch_and_status.md R213); on a BUSY block it
takes the next step of RPASS (R221). -/
def execReplace (s : State) : Result :=
  if s.busy then
    whenValid .replace s (match s.phase with
      | .rpass => .next (rpassStep s)
      | .none => .fault .phaseMismatch
      | .hpass => .fault .phaseMismatch
      | .vpass => .fault .phaseMismatch)
  else launch .replace .rpass s

end Sys2Proof.Machine
end

