-- ==== Sys2Proof/Machine/Dispatch.lean ====
section
/-! DEFINITION. The meaning of each instruction, one arm each. -/

namespace Sys2Proof.Machine

def exec (i : Instr) (s : State) : Host.Outcome State Fault Refusal :=
  match i with
  | .extract radius => Sys2Proof.Machine.execExtract radius s
  | .replace => Sys2Proof.Machine.execReplace s

end Sys2Proof.Machine
end

