-- ==== Sys2Proof/Machine/HostOps.lean ====
section
/-! DEFINITION. The agents around the block and the block's own turn: register writes and reads, START, memory
accesses, polling, reset (44_launch_and_status.md R209 to R217; 20_memory.md R63; 70_reset_and_hazards.md R270 to
R273; 30_encoding.md R93, R94). -/

namespace Sys2Proof.Machine

/-- The read-write registers, by the names of 10_state.md R21. -/
inductive RegName where
  | cmd
  | p0Addr
  | p0Stride
  | p0Dim
  | p0Fmt
  | p1Addr
  | p1Stride
  | p1Dim
  | p1Fmt
  | dstAddr
  | dstStride
deriving DecidableEq, Repr

/-- What stands at an offset of the register block (10_state.md R21). -/
inductive RegTarget where
  | ctrl
  | status
  | reserved
  | storage (n : RegName)
deriving DecidableEq, Repr

/-- The offsets of the read-write registers (10_state.md R21). -/
def RegName.offset : RegName → Nat
  | .cmd => 0x08
  | .p0Addr => 0x10
  | .p0Stride => 0x14
  | .p0Dim => 0x18
  | .p0Fmt => 0x1C
  | .p1Addr => 0x20
  | .p1Stride => 0x24
  | .p1Dim => 0x28
  | .p1Fmt => 0x2C
  | .dstAddr => 0x30
  | .dstStride => 0x34

/-- The register map (10_state.md R21, R37; 30_encoding.md R90). Nothing is answered outside the block and
for an offset that is no multiple of 4. -/
def regTarget (off : Nat) : Option RegTarget :=
  match off with
  | 0x00 => some .ctrl
  | 0x04 => some .status
  | 0x08 => some (.storage .cmd)
  | 0x0C => some .reserved
  | 0x10 => some (.storage .p0Addr)
  | 0x14 => some (.storage .p0Stride)
  | 0x18 => some (.storage .p0Dim)
  | 0x1C => some (.storage .p0Fmt)
  | 0x20 => some (.storage .p1Addr)
  | 0x24 => some (.storage .p1Stride)
  | 0x28 => some (.storage .p1Dim)
  | 0x2C => some (.storage .p1Fmt)
  | 0x30 => some (.storage .dstAddr)
  | 0x34 => some (.storage .dstStride)
  | 0x38 => some .reserved
  | 0x3C => some .reserved
  | _ => none

/-- The register an access names: aligned 32-bit accesses only (44_launch_and_status.md R217). -/
def accessTarget (off size : Nat) : Option RegTarget := if size = 4 then regTarget off else none

/-- A read-write register's value (10_state.md R38). -/
def Regs.get (r : Regs) : RegName → Word
  | .cmd => r.cmd
  | .p0Addr => r.p0.addr
  | .p0Stride => r.p0.stride
  | .p0Dim => r.p0.dim
  | .p0Fmt => r.p0.fmt
  | .p1Addr => r.p1.addr
  | .p1Stride => r.p1.stride
  | .p1Dim => r.p1.dim
  | .p1Fmt => r.p1.fmt
  | .dstAddr => r.dstAddr
  | .dstStride => r.dstStride

/-- The registers with one read-write register written, all 32 bits (10_state.md R38). -/
def Regs.set (r : Regs) (n : RegName) (v : Word) : Regs :=
  match n with
  | .cmd => { r with cmd := v }
  | .p0Addr => { r with p0 := { r.p0 with addr := v } }
  | .p0Stride => { r with p0 := { r.p0 with stride := v } }
  | .p0Dim => { r with p0 := { r.p0 with dim := v } }
  | .p0Fmt => { r with p0 := { r.p0 with fmt := v } }
  | .p1Addr => { r with p1 := { r.p1 with addr := v } }
  | .p1Stride => { r with p1 := { r.p1 with stride := v } }
  | .p1Dim => { r with p1 := { r.p1 with dim := v } }
  | .p1Fmt => { r with p1 := { r.p1 with fmt := v } }
  | .dstAddr => { r with dstAddr := v }
  | .dstStride => { r with dstStride := v }

/-- The command the block fetches: the word in CMD, decoded (30_encoding.md R80, R96). -/
def fetch (s : State) : Decoded := decode s.regs.cmd

/-- START (44_launch_and_status.md R213, R214): ignored while BUSY; a word that is no instruction is rejected
with E_OP (60_exceptions.md R231); else the command is launched. -/
def start (s : State) : Result :=
  if s.busy then .next s
  else match fetch s with
    | .rejected _ => .next (s.reject .eOp)
    | .instr i => exec i s

/-- The block's turn: a BUSY block takes the next step of its command (44_launch_and_status.md R220, R221); any
other is idle (60_exceptions.md R248). -/
def blockTurn (s : State) : Result :=
  if s.busy then
    match fetch s with
    | .rejected _ => .fault .unvalidatedCommand
    | .instr i => exec i s
  else .next s

/-- `WR` (44_launch_and_status.md R210, R212). -/
def hostWrite (off size : Nat) (v : Word) (s : State) : Result :=
  match accessTarget off size with
  | none => .refused .registerAccess
  | some .ctrl => if bits v 0 0 = 1 then start s else .next s
  | some .status => .next s
  | some .reserved => .next s
  | some (.storage n) => if s.busy then .next s else .next { s with regs := s.regs.set n v }

/-- What a register reads as: CTRL and reserved offsets 0 (10_state.md R22, R37; 44_launch_and_status.md
R211). -/
def State.readReg (s : State) : RegTarget → Word
  | .ctrl => 0
  | .status => s.status
  | .reserved => 0
  | .storage n => s.regs.get n

/-- A host read is answered. -/
def State.answer (s : State) (a : Answer) : State := { s with answers := a :: s.answers }

/-- `RD` (44_launch_and_status.md R211): no side effect on the block. -/
def hostRead (off size : Nat) (s : State) : Result :=
  match accessTarget off size with
  | none => .refused .registerAccess
  | some t => .next (s.answer (.register (s.readReg t)))

/-- The address lies in the footprint of an input plane of the running command. -/
def runningInput (s : State) (a : Nat) : Bool :=
  match fetch s with
  | .rejected _ => false
  | .instr i => s.busy && (inputPlanes s.regs i).any fun p => p.inFoot a

/-- The address lies in the footprint of the running command's DST. -/
def runningOutput (s : State) (a : Nat) : Bool := s.busy && s.regs.dstPlane.inFoot a

/-- A byte of `MEM` read by the host or another agent. Inside the running command's DST it breaks the host
contract (20_memory.md R63). -/
def hostLoad (addr : Word) (s : State) : Result :=
  if ¬ isResident s.resident addr.toNat then .refused .notResident
  else if runningOutput s addr.toNat then .refused .hostContract
  else .next (s.answer (.byte (s.mem.read addr.toNat)))

/-- A byte of `MEM` written by the host or another agent. Inside a plane of the running command it breaks the
host contract (20_memory.md R63). -/
def hostStore (addr : Word) (v : Byte) (s : State) : Result :=
  if ¬ isResident s.resident addr.toNat then .refused .notResident
  else if runningInput s addr.toNat || runningOutput s addr.toNat then .refused .hostContract
  else .next { s with mem := s.mem.write addr.toNat v }

/-- `WAIT` (30_encoding.md R94): while BUSY the block steps and the host polls on; then the last STATUS value
is answered. The polls that find BUSY are not recorded. -/
def hostWait (s : State) : Result :=
  if s.busy then blockTurn { s with agenda := .wait :: s.agenda }
  else .next (s.answer (.register s.status))

/-- Reset (70_reset_and_hazards.md R271 to R273): every register, PHASE and DONE_SET take their reset values,
the content of IB becomes unspecified, and memory, the platform's parameters and the outside world stay. The
samples of DST that an abandoned command had stored keep their new values (R272). -/
def State.applyReset (s : State) : State :=
  { State.reset with
    mem := s.mem
    accFmt := s.accFmt
    resident := s.resident
    draws := s.draws + 1
    picks := s.picks
    agenda := s.agenda
    answers := s.answers }

/-- One entry of the schedule. -/
def takeTurn (t : Turn) (s : State) : Result :=
  match t with
  | .regWrite off size v => hostWrite off size v s
  | .regRead off size => hostRead off size s
  | .load addr => hostLoad addr s
  | .store addr v => hostStore addr v s
  | .block => blockTurn s
  | .wait => hostWait s
  | .reset => .next s.applyReset

/-- `WR reg, value` for a read-write register (30_encoding.md R93). -/
def wr (n : RegName) (v : Word) : Turn := .regWrite n.offset 4 v

/-- The code of a format (30_encoding.md R85). -/
def PixFmt.code : PixFmt → Word
  | .u8 => 0
  | .u16 => 1
  | .f32 => 2

/-- `PLANE0 addr, stride, w, h, fmt` (30_encoding.md R94). -/
def plane0 (addr stride : Word) (w h : Nat) (f : PixFmt) : List Turn :=
  [wr .p0Addr addr, wr .p0Stride stride, wr .p0Dim (BitVec.ofNat 32 (h * 2 ^ 16 + w)), wr .p0Fmt f.code]

/-- `PLANE1 addr, stride, w, h, fmt` (30_encoding.md R94). -/
def plane1 (addr stride : Word) (w h : Nat) (f : PixFmt) : List Turn :=
  [wr .p1Addr addr, wr .p1Stride stride, wr .p1Dim (BitVec.ofNat 32 (h * 2 ^ 16 + w)), wr .p1Fmt f.code]

/-- `DEST addr, stride` (30_encoding.md R94). -/
def dest (addr stride : Word) : List Turn := [wr .dstAddr addr, wr .dstStride stride]

/-- `WR CTRL, 1`, the canonical START (30_encoding.md R89). -/
def startTurn : Turn := .regWrite 0x00 4 1

/-- `EXTRACT r` and `REPLACE` (30_encoding.md R94): the command word is written, then START. -/
def launchTurns (i : Instr) : List Turn := [wr .cmd (encode i), startTurn]

end Sys2Proof.Machine
end

