-- ==== Sys2Proof/Machine/Step.lean ====
section
/-! DEFINITION. One step of the machine (44_launch_and_status.md R209). -/

namespace Sys2Proof.Machine

/-- One step: the next entry of the schedule acts; where none is left the host is idle and the block has its
turn. -/
def step (s : State) : Host.Outcome State Fault Refusal :=
  match s.agenda with
  | [] => blockTurn s
  | t :: rest => takeTurn t { s with agenda := rest }

/-- The state whose next step launches the command word `w`: the word stands in CMD, the block is not BUSY,
and START is the next thing the host does. The block fetches no instructions (10_state.md R31): this stands
for the two register writes by which a host presents a command. -/
def State.withFetchWord (s : State) (nbits w : Nat) : State :=
  { s with
    status := if s.busy then statusWord .idle 0 else s.status
    phase := .none
    regs := { s.regs with cmd := BitVec.ofNat 32 (w % 2 ^ nbits) }
    agenda := startTurn :: s.agenda }

end Sys2Proof.Machine
end

