-- ==== Sys2Proof/Safety.lean ====
section
/-! DEFINITION. The terms the statements use: the invariant of a run, the values a command leaves behind, runs of
one instruction, and the rational value of a floating datum. -/

namespace Sys2Proof.Machine

/-- The phases of an operation (44_launch_and_status.md R221). -/
def phaseFits : Instr → Phase → Bool
  | .extract _, .hpass => true
  | .extract _, .vpass => true
  | .replace, .rpass => true
  | _, _ => false

/-- A BUSY block runs a command that is an instruction, passed validation, lies in RESIDENT, and is in one of its
own phases (44_launch_and_status.md R212, R213, R221; 20_memory.md R67). -/
def State.Running (s : State) (i : Instr) : Prop :=
  decode s.regs.cmd = .instr i ∧ validateOp i s.regs = none ∧ commandResident i s = true ∧
    phaseFits i s.phase = true

/-- The control and memory invariant: memory in canonical form, STATUS one of its ten words, PHASE = NONE exactly
when not BUSY (10_state.md R27), a BUSY block runs a validated command, DONE_SET is a rising list of coordinates of
the plane, and IB and DONE_SET are empty where the spec gives them no content. -/
structure State.Inv (s : State) : Prop where
  memWf : s.mem.wf = true
  statusLegal : legalStatus s.status = true
  phaseNone : s.phase = .none ↔ s.busy = false
  running : s.busy = true → ∃ i, s.Running i
  idleDone : s.busy = false → s.doneSet = []
  noIb : s.phase ≠ .hpass → s.phase ≠ .vpass → s.ib = []
  doneRising : risingFrom 0 s.doneSet = true
  doneBound : ∀ k ∈ s.doneSet, k < s.regs.srcPlane.count
  ibRising : risingFrom 0 (s.ib.map Prod.fst) = true
  ibBound : ∀ e ∈ s.ib, e.1 < s.regs.srcPlane.count

/-- IB holds the horizontal sums of the source plane: those of DONE_SET during HPASS, all of them during VPASS
(40_blur.md R118; 20_memory.md R62 (b)). -/
def State.IbHolds (s : State) : Prop :=
  ∀ radius, decode s.regs.cmd = .instr (.extract radius) →
    (s.phase = .hpass → ∀ k ∈ s.doneSet, ibLookup k s.ib = some (horizontalSum s (dilation radius) k)) ∧
    (s.phase = .vpass → ∀ k < s.regs.srcPlane.count,
      ibLookup k s.ib = some (horizontalSum s (dilation radius) k))

/-- The value EXTRACT gives coordinate `k`, from the source samples in the memory of `s` alone
(41_extract.md R142, with `IB` replaced by the sums it holds). -/
def extractValue (s : State) (radius : Int) (k : Nat) : Datum :=
  let src := s.regs.srcPlane
  let x := coordX src.width k
  let y := coordY src.width k
  let d := dilation radius
  match src.fmt with
  | .f32 => .flt (detailFp s.accFmt (loadFp s.accFmt s.mem src x y)
      (passFp s.accFmt
        (fun r => passFp s.accFmt (fun c => loadFp s.accFmt s.mem src c r) src.width d x) src.height d y))
  | _ => .int (detailInt src.fmt (loadInt s.mem src x y)
      (passInt (fun r => passInt (fun c => loadInt s.mem src c r) src.width d x) src.height d y))

/-- The number of a stored sample is that of the value: an integer itself; a float its binary32 pattern, where a
NaN may be any NaN pattern (43_format_converter.md R188, R189, R193). -/
def storedAs : Datum → Nat → Prop
  | .int v, raw => raw = v.toNat
  | .flt v, raw => ∃ draw, raw = (storedBits draw v).toNat

/-- The number that the sample of DST at coordinate `k` spells. -/
def State.dstRaw (s : State) (k : Nat) : Nat :=
  rawSample s.mem s.regs.dstPlane (coordX s.regs.dstPlane.width k) (coordY s.regs.dstPlane.width k)

/-- The address stored to for coordinate `k`: that of DST's sample (20_memory.md R51). -/
def State.dstAddrOf (s : State) (k : Nat) : Nat :=
  s.regs.dstPlane.sampleAddr (coordX s.regs.dstPlane.width k) (coordY s.regs.dstPlane.width k)

/-- The byte belongs to a sample of the plane, not to padding (20_memory.md R51, R61). -/
def Plane.sampleByte (p : Plane) (a : Nat) : Prop :=
  ∃ x y, x < p.width ∧ y < p.height ∧ p.sampleAddr x y ≤ a ∧ a < p.sampleAddr x y + p.fmt.size

/-- The coordinate is one of the plane and not yet done, and it is the one the block takes next. -/
def State.takes (s : State) (k : Nat) : Prop := nextCoord s.regs.srcPlane.count s = some k

/-- Addresses and strides of the planes a command uses: P0, then P1 where the operation is REPLACE, then DST
(60_exceptions.md R230). -/
def Regs.descriptors (r : Regs) : List (Nat × Nat) :=
  (r.p0.addr.toNat, r.p0.stride.toNat) ::
    ((if bits r.cmd 3 0 = 2 then [(r.p1.addr.toNat, r.p1.stride.toNat)] else []) ++
      [(r.dstAddr.toNat, r.dstStride.toNat)])

/-- Those of the input planes alone. -/
def Regs.inputs (r : Regs) : List (Nat × Nat) :=
  (r.p0.addr.toNat, r.p0.stride.toNat) ::
    (if bits r.cmd 3 0 = 2 then [(r.p1.addr.toNat, r.p1.stride.toNat)] else [])

/-- The format register holds none of 0, 1, 2 (60_exceptions.md R232). -/
def badFormat (w : Word) : Prop := w ≠ 0 ∧ w ≠ 1 ∧ w ≠ 2

/-- The sample size of P0's format code (43_format_converter.md R182). -/
def Regs.sampleBytes (r : Regs) : Nat := if r.p0.fmt = 0 then 1 else if r.p0.fmt = 1 then 2 else 4

/-- The end of the footprint of a plane at `addr` with the given stride and P0's dimensions
(20_memory.md R56). -/
def Regs.endOf (r : Regs) (d : Nat × Nat) : Nat :=
  d.1 + (dimHeight r.p0.dim - 1) * d.2 + dimWidth r.p0.dim * r.sampleBytes

/-- The condition of each rejection code in the words of 60_exceptions.md R231 to R237, read from the
registers alone. It is what the statements hold `validate` against. -/
def RejectCause (r : Regs) : RejectCode → Prop
  | .eOp => bits r.cmd 31 16 ≠ 0 ∨ bits r.cmd 7 4 ≠ 0 ∨ (bits r.cmd 3 0 ≠ 1 ∧ bits r.cmd 3 0 ≠ 2)
  | .eFmt => badFormat r.p0.fmt ∨ (bits r.cmd 3 0 = 2 ∧ badFormat r.p1.fmt)
  | .eRadius => bits r.cmd 3 0 = 1 ∧ (r.cmd.extractLsb' 8 8).toInt < 1
  | .eMismatch => bits r.cmd 3 0 = 2 ∧ (r.p0.fmt ≠ r.p1.fmt ∨ r.p0.dim ≠ r.p1.dim)
  | .eGeom =>
    dimWidth r.p0.dim = 0 ∨ dimHeight r.p0.dim = 0 ∨
    (∃ d ∈ r.descriptors, d.2 < dimWidth r.p0.dim * r.sampleBytes ∨ 2 ^ 32 < r.endOf d) ∨
    (bits r.cmd 3 0 = 1 ∧
      ((dimWidth r.p0.dim : Int) - 1 < 2 * 2 ^ ((r.cmd.extractLsb' 8 8).toInt - 1).toNat ∨
       (dimHeight r.p0.dim : Int) - 1 < 2 * 2 ^ ((r.cmd.extractLsb' 8 8).toInt - 1).toNat))
  | .eAlign => ∃ d ∈ r.descriptors, d.1 % r.sampleBytes ≠ 0 ∨ d.2 % r.sampleBytes ≠ 0
  | .eOverlap => ∃ d ∈ r.inputs, ¬ (r.endOf (r.dstAddr.toNat, r.dstStride.toNat) ≤ d.1 ∨
      r.endOf d ≤ r.dstAddr.toNat)

/-- `n` steps of one instruction, from START on. -/
def iterExec (i : Instr) : Nat → State → Result
  | 0, s => .next s
  | n + 1, s =>
    match exec i s with
    | .next t => iterExec i n t
    | .fault r => .fault r
    | .refused r => .refused r

/-- The steps of a whole command, from START to DONE: START, one step for each coordinate of each phase, the change of
phase, completion (44_launch_and_status.md R221; notes/assumptions/7.md). -/
def commandSteps (i : Instr) (s : State) : Nat :=
  match i with
  | .extract _ => 2 * s.regs.srcPlane.count + 3
  | .replace => s.regs.srcPlane.count + 2

/-- The value a command gives coordinate `k` of DST, from the samples in the memory of `s` alone (41_extract.md R142,
42_replace.md R162). -/
def commandValue (i : Instr) (s : State) (k : Nat) : Datum :=
  match i with
  | .extract radius => extractValue s radius k
  | .replace => recombineSample s k

/-- The rational value of a finite datum. -/
def Fp.value : Fp → Option ℚ
  | .fin neg m e => some ((if neg then -1 else 1) * (m : ℚ) * 2 ^ e)
  | _ => none

/-- A significand and an exponent of the format: a finite number that it holds exactly
(43_format_converter.md R191). -/
def AccFmt.holds (f : AccFmt) (m : Nat) (e : Int) : Prop := m < 2 ^ f.prec ∧ f.minExp ≤ e ∧ e ≤ f.maxExp

/-- Where overflow begins: halfway from the largest number of the format to the next power of two
(43_format_converter.md R191). -/
def AccFmt.overflow (f : AccFmt) : ℚ := (2 ^ f.prec - 1 / 2) * 2 ^ f.maxExp

/-- The datum is the number with sign `neg` and magnitude `mag`, rounded to nearest, ties to even
(43_format_converter.md R191): from the overflow bound on an infinity; below it a number of the format, none nearer, and
even where another is equally near. -/
def AccFmt.roundsTo (f : AccFmt) (neg : Bool) (mag : ℚ) : Fp → Prop
  | .nan => False
  | .inf sign => sign = neg ∧ f.overflow ≤ mag
  | .fin sign q u =>
    sign = neg ∧ mag < f.overflow ∧ f.holds q u ∧
    ∀ (m : Nat) (e : Int), f.holds m e →
      |mag - q * 2 ^ u| ≤ |mag - m * 2 ^ e| ∧
      (|mag - q * 2 ^ u| = |mag - m * 2 ^ e| → (m : ℚ) * 2 ^ e ≠ q * 2 ^ u → q % 2 = 0)

/-- The rational is a finite number of the format. -/
def AccFmt.represents (f : AccFmt) (q : ℚ) : Prop :=
  ∃ (neg : Bool) (m : Nat) (e : Int), f.holds m e ∧ q = (if neg then -1 else 1) * (m : ℚ) * 2 ^ e

end Sys2Proof.Machine
end

