-- ==== Sys2Proof/Certificates/Slice0/Obligations.lean ====
section
/-! DEFINITION. The statements about the machine, for the provers. -/

open Sys2Proof Sys2Proof.Machine

/-! ## Reset -/

/-- 70_reset_and_hazards.md R271: the registers, PHASE, DONE_SET and IB after reset. -/
def Obligations.ResetStateValues : Prop :=
  State.reset.status = 0x00000000 ∧ State.reset.regs.cmd = 0x00000100 ∧
  State.reset.regs.p0.addr = 0 ∧ State.reset.regs.p0.stride = 0 ∧ State.reset.regs.p0.dim = 0 ∧
  State.reset.regs.p0.fmt = 0 ∧ State.reset.regs.p1.addr = 0 ∧ State.reset.regs.p1.stride = 0 ∧
  State.reset.regs.p1.dim = 0 ∧ State.reset.regs.p1.fmt = 0 ∧ State.reset.regs.dstAddr = 0 ∧
  State.reset.regs.dstStride = 0 ∧ State.reset.phase = .none ∧ State.reset.doneSet = [] ∧
  (∀ k, ibLookup k State.reset.ib = none) ∧
  State.reset.readReg .ctrl = 0 ∧ State.reset.readReg .reserved = 0

/-- 70_reset_and_hazards.md R271, R273: a reset that arrives in any state gives the block its reset values and
leaves memory as it was. -/
def Obligations.ResetInAnyState : Prop :=
  ∀ (s : State) (rest : List Turn), s.agenda = .reset :: rest →
    ∃ t, step s = .next t ∧ t.status = State.reset.status ∧ t.regs = State.reset.regs ∧
      t.phase = .none ∧ t.doneSet = [] ∧ (∀ k, ibLookup k t.ib = none) ∧ t.mem = s.mem

/-- The reset state meets the invariant of Safety.lean. -/
def Obligations.ResetMeetsInvariant : Prop := State.reset.Inv ∧ State.reset.IbHolds

/-! ## Encoding -/

/-- 30_encoding.md R81 to R83, R95: decoding the word of a well-formed instruction gives it back. -/
def Obligations.DecodeOfEncode : Prop :=
  ∀ i : Instr, i.wf = true → decode (encode i) = .instr i

/-- 30_encoding.md R82, R83, R95: the two match and mask rows, the two's complement radius, and no other
instruction: any other word is E_OP. -/
def Obligations.DecodeFollowsOpcodeTable : Prop :=
  ∀ w : Word,
    (w &&& 0xFFFF00FF = 0x00000001 → decode w = .instr (.extract (w.extractLsb' 8 8).toInt)) ∧
    (w &&& 0xFFFF00FF = 0x00000002 → decode w = .instr .replace) ∧
    (w &&& 0xFFFF00FF ≠ 0x00000001 → w &&& 0xFFFF00FF ≠ 0x00000002 →
      (∃ e, decode w = .rejected e) ∧ ∀ r : Regs, r.cmd = w → validate r = some .eOp)

/-- 30_encoding.md R83, R97: every decoded instruction is well formed, and encoding it again gives the word
back, up to the RADIUS field of REPLACE, which is not read. -/
def Obligations.EncodeOfDecode : Prop :=
  ∀ (w : Word) (i : Instr), decode w = .instr i → i.wf = true ∧
    match i with
    | .extract _ => encode i = w
    | .replace => encode i = w &&& 0xFFFF00FF

/-- Words written out from 30_encoding.md R81, R82, R94, R97 decode to the instructions they stand for, and two
reserved words to none. -/
def Obligations.SampleWordsDecode : Prop :=
  decode 0x00000101 = .instr (.extract 1) ∧ decode 0x0000FF01 = .instr (.extract (-1)) ∧
  decode 0x00008001 = .instr (.extract (-128)) ∧ decode 0x00007F01 = .instr (.extract 127) ∧
  decode 0x00000002 = .instr .replace ∧ decode 0x0000FF02 = .instr .replace ∧
  decode 0x00010101 = .rejected .reservedBits ∧ decode 0x00000103 = .rejected .unknownOp

/-! ## The step -/

/-- 44_launch_and_status.md R210, R213: START on a block that is not BUSY runs the command word's
instruction; the step only takes the entry off the schedule. -/
def Obligations.StartRunsDecodedCommand : Prop :=
  ∀ (s : State) (v : Word) (rest : List Turn) (i : Instr),
    s.agenda = .regWrite 0x00 4 v :: rest → bits v 0 0 = 1 → s.busy = false →
    decode s.regs.cmd = .instr i → step s = exec i { s with agenda := rest }

/-- 44_launch_and_status.md R220, R221: a BUSY block whose turn it is runs the command word's instruction. That an empty
schedule gives the block its turn is the model's choice (DESIGN CHOICE, notes/assumptions/7.md), and so is that a poll of
a BUSY block stays on the schedule, records nothing and gives the block its turn (DESIGN CHOICE,
notes/assumptions/12.md). -/
def Obligations.BusyBlockRunsDecodedCommand : Prop :=
  ∀ (s : State) (i : Instr), s.busy = true → decode s.regs.cmd = .instr i →
    (s.agenda = [] → step s = exec i s) ∧
    (∀ rest, s.agenda = .block :: rest → step s = exec i { s with agenda := rest }) ∧
    (∀ rest, s.agenda = .wait :: rest → step s = exec i s)

/-- A table word placed by `withFetchWord` is what the next step runs, whatever the state was. -/
def Obligations.FetchWordRunsNext : Prop :=
  ∀ (s : State) (nbits w : Nat) (i : Instr), decodeTableWord nbits w = some i →
    step (s.withFetchWord nbits w) = exec i { s.withFetchWord nbits w with agenda := s.agenda }

/-! ## Validation and the rejection -/

/-- 60_exceptions.md R231 to R238: `validate` answers a code exactly where its condition holds and that of no
lower code does, and nothing exactly where no condition holds. -/
def Obligations.ValidationReportsLowestCause : Prop :=
  ∀ r : Regs,
    (∀ c, validate r = some c ↔
      RejectCause r c ∧ ∀ c' : RejectCode, c'.code < c.code → ¬ RejectCause r c') ∧
    (validate r = none ↔ ∀ c, ¬ RejectCause r c)

/-- 60_exceptions.md R240, 44_launch_and_status.md R213: a START whose command fails validation changes STATUS,
to REJECTED with the code, and nothing else. -/
def Obligations.RejectionChangesStatusAlone : Prop :=
  ∀ (s : State) (v : Word) (rest : List Turn) (c : RejectCode),
    s.agenda = .regWrite 0x00 4 v :: rest → bits v 0 0 = 1 → s.busy = false → validate s.regs = some c →
    step s = .next { s with agenda := rest, status := BitVec.ofNat 32 (3 + 16 * c.code) }

/-- 60_exceptions.md R231: the registers of reset, launched, are rejected with E_OP. -/
def Obligations.ResetCommandIsRejected : Prop :=
  ∀ (s : State) (rest : List Turn), s.regs = State.reset.regs → s.busy = false →
    s.agenda = .regWrite 0x00 4 1 :: rest → step s = .next { s with agenda := rest, status := 0x00000013 }

/-- 30_encoding.md R96: the decoding of the eleven words gives one outcome, the one `validate` and the command
word say. -/
def Obligations.CommandDecodingIsTotal : Prop :=
  ∀ r : Regs,
    (∀ c, decodeCommand r = .rejected c ↔ validate r = some c) ∧
    (validate r = none →
      (∃ radius, decode r.cmd = .instr (.extract radius) ∧
        decodeCommand r = .extract (2 ^ (radius - 1).toNat) r.srcPlane r.dstPlane) ∨
      (decode r.cmd = .instr .replace ∧ decodeCommand r = .replace r.srcPlane r.detailPlane r.dstPlane))

/-- 20_memory.md R67: a command that passes validation but has a footprint outside RESIDENT is refused by name,
for both instructions. -/
def Obligations.NonResidentLaunchRefused : Prop :=
  ∀ (s : State) (i : Instr), s.busy = false → validateOp i s.regs = none → commandResident i s = false →
    exec i s = .refused .notResident

/-! ## EXTRACT -/

/-- 44_launch_and_status.md R213: a valid EXTRACT on a block that is not BUSY becomes BUSY in HPASS. -/
def Obligations.ExtractStartBecomesBusy : Prop :=
  ∀ (s : State) (radius : Int), s.busy = false → validateOp (.extract radius) s.regs = none →
    commandResident (.extract radius) s = true →
    exec (.extract radius) s = .next { s with status := 0x00000001, phase := .hpass, doneSet := [] }

/-- 40_blur.md R116, R118: in HPASS, on an integer format, EXTRACT writes the horizontal sum of the coordinate it
takes into IB, and changes nothing else but the record of what is done. -/
def Obligations.ExtractHorizontalStepInteger : Prop :=
  ∀ (s : State) (radius : Int) (k : Nat), s.busy = true → validateOp (.extract radius) s.regs = none →
    s.phase = .hpass → s.takes k → s.regs.fmt ≠ .f32 →
    exec (.extract radius) s =
      (let src := s.regs.srcPlane
       let w : Int := src.width
       let x : Int := coordX src.width k
       let d : Int := 2 ^ (radius - 1).toNat
       let f : Int → Int := fun pos => loadInt s.mem src (mirror pos w).toNat (coordY src.width k)
       let sum := 1 * f (x - 2 * d) + 4 * f (x - d) + 6 * f x + 4 * f (x + d) + 1 * f (x + 2 * d)
       .next { s with ib := ibWrite k (.int sum) s.ib, doneSet := insertCoord k s.doneSet,
                      picks := s.picks.tail })

/-- 40_blur.md R117, R118: the same on F32, with the products and sums of `ACC_FMT` in tap order from `+0.0`. -/
def Obligations.ExtractHorizontalStepFloat : Prop :=
  ∀ (s : State) (radius : Int) (k : Nat), s.busy = true → validateOp (.extract radius) s.regs = none →
    s.phase = .hpass → s.takes k → s.regs.fmt = .f32 →
    exec (.extract radius) s =
      (let src := s.regs.srcPlane
       let a := s.accFmt
       let w : Int := src.width
       let x : Int := coordX src.width k
       let d : Int := 2 ^ (radius - 1).toNat
       let p : Int → Nat → Fp := fun pos weight =>
         fmul a (loadFp a s.mem src (mirror pos w).toNat (coordY src.width k)) (Fp.ofNat a weight)
       let sum := fadd a (fadd a (fadd a (fadd a (fadd a (Fp.zero a) (p (x - 2 * d) 1)) (p (x - d) 4))
         (p x 6)) (p (x + d) 4)) (p (x + 2 * d) 1)
       .next { s with ib := ibWrite k (.flt sum) s.ib, doneSet := insertCoord k s.doneSet,
                      picks := s.picks.tail })

/-- 40_blur.md R118: when every element of IB is written, PHASE becomes VPASS with nothing done in it. -/
def Obligations.ExtractTurnsToVertical : Prop :=
  ∀ (s : State) (radius : Int), s.busy = true → validateOp (.extract radius) s.regs = none →
    s.phase = .hpass → (∀ k < s.regs.srcPlane.count, k ∈ s.doneSet) →
    exec (.extract radius) s = .next { s with phase := .vpass, doneSet := [] }

/-- 41_extract.md R143, 40_blur.md R119: in VPASS, on an integer format, EXTRACT stores the closed form at the
coordinate it takes, and changes nothing else but the record of what is done. -/
def Obligations.ExtractVerticalStepInteger : Prop :=
  ∀ (s : State) (radius : Int) (k : Nat), s.busy = true → validateOp (.extract radius) s.regs = none →
    s.phase = .vpass → s.takes k → s.regs.fmt ≠ .f32 →
    exec (.extract radius) s =
      (let src := s.regs.srcPlane
       let dst := s.regs.dstPlane
       let x := coordX src.width k
       let y := coordY src.width k
       let h : Int := src.height
       let d : Int := 2 ^ (radius - 1).toNat
       let f : Int → Int := fun pos => s.ibInt ((mirror pos h).toNat * src.width + x)
       let v := 1 * f (y - 2 * d) + 4 * f (y - d) + 6 * f y + 4 * f (y + d) + 1 * f (y + 2 * d)
       let n := 256 * (loadInt s.mem src x y + src.fmt.neutral) - v
       let out := if n < 0 then 0 else min ((n + 128) / 256) src.fmt.max
       .next { s with mem := storeRaw s.mem dst x y out.toNat, doneSet := insertCoord k s.doneSet,
                      picks := s.picks.tail })

/-- 41_extract.md R144, 40_blur.md R120, R121: the same on F32; a NaN is stored as a free draw, and takes one. -/
def Obligations.ExtractVerticalStepFloat : Prop :=
  ∀ (s : State) (radius : Int) (k : Nat), s.busy = true → validateOp (.extract radius) s.regs = none →
    s.phase = .vpass → s.takes k → s.regs.fmt = .f32 →
    exec (.extract radius) s =
      (let src := s.regs.srcPlane
       let dst := s.regs.dstPlane
       let a := s.accFmt
       let x := coordX src.width k
       let y := coordY src.width k
       let h : Int := src.height
       let d : Int := 2 ^ (radius - 1).toNat
       let p : Int → Nat → Fp := fun pos weight =>
         fmul a (s.ibFp ((mirror pos h).toNat * src.width + x)) (Fp.ofNat a weight)
       let v := fadd a (fadd a (fadd a (fadd a (fadd a (Fp.zero a) (p (y - 2 * d) 1)) (p (y - d) 4))
         (p y 6)) (p (y + d) 4)) (p (y + 2 * d) 1)
       let out := fadd a (fsub a (loadFp a s.mem src x y) (fdiv a v (Fp.ofNat a 256))) (Fp.zero a)
       .next { s with mem := storeRaw s.mem dst x y (storedBits (Config.nanDraw s.draws) out).toNat,
                      draws := if fcvt .b32 out = .nan then s.draws + 1 else s.draws,
                      doneSet := insertCoord k s.doneSet, picks := s.picks.tail })

/-- 44_launch_and_status.md R215: when every sample of DST is stored, EXTRACT is DONE; IB is discarded. -/
def Obligations.ExtractCompletes : Prop :=
  ∀ (s : State) (radius : Int), s.busy = true → validateOp (.extract radius) s.regs = none →
    s.phase = .vpass → (∀ k < s.regs.srcPlane.count, k ∈ s.doneSet) →
    exec (.extract radius) s = .next { s with status := 0x00000002, phase := .none, doneSet := [], ib := [],
                                              draws := s.draws + 1 }

/-- The frame of EXTRACT (41_extract.md R145; 20_memory.md R59, R61): registers, parameters, schedule and answers
stay; memory changes in the stored sample alone, and only in VPASS; IB changes in the written element alone;
STATUS changes at START and at completion alone. -/
def Obligations.ExtractFrame : Prop :=
  ∀ (radius : Int) (s t : State), s.mem.wf = true → exec (.extract radius) s = .next t →
    t.regs = s.regs ∧ t.accFmt = s.accFmt ∧ t.resident = s.resident ∧ t.agenda = s.agenda ∧
    t.answers = s.answers ∧
    (∀ k, s.busy = true → s.phase = .vpass → s.takes k →
      ∀ a, a < s.dstAddrOf k ∨ s.dstAddrOf k + s.regs.dstPlane.fmt.size ≤ a →
        t.mem.read a = s.mem.read a) ∧
    (s.busy = false ∨ s.phase ≠ .vpass ∨ (∀ k, ¬ s.takes k) → t.mem = s.mem ∧ (s.busy = false → t.ib = s.ib)) ∧
    (s.busy = true → s.phase = .hpass → ∀ k, s.takes k →
      ∀ j, j ≠ k → ibLookup j t.ib = ibLookup j s.ib) ∧
    (s.busy = true → ∀ k, s.takes k → t.status = s.status ∧ t.phase = s.phase ∧ (s.phase = .vpass → t.ib = s.ib)) ∧
    (s.busy = false ∨ s.phase ≠ .vpass → t.draws = s.draws)

/-- 41_extract.md R142, 44_launch_and_status.md R218, 20_memory.md R61: the whole command. From a block that is not
BUSY, a valid EXTRACT runs in `2 * W * H + 3` steps to DONE; every sample of DST holds the detail of the source
samples at START, in whatever order coordinates are taken, and no byte outside the samples of DST changes. -/
def Obligations.ExtractWholeCommand : Prop :=
  ∀ (s : State) (radius : Int), s.Inv → s.busy = false → decode s.regs.cmd = .instr (.extract radius) →
    validateOp (.extract radius) s.regs = none → commandResident (.extract radius) s = true →
    ∃ t, iterExec (.extract radius) (2 * s.regs.srcPlane.count + 3) s = .next t ∧
      t.status = 0x00000002 ∧ t.phase = .none ∧ t.regs = s.regs ∧
      (∀ k < s.regs.srcPlane.count, storedAs (extractValue s radius k) (t.dstRaw k)) ∧
      (∀ a, ¬ s.regs.dstPlane.sampleByte a → t.mem.read a = s.mem.read a)

/-- 41_extract.md R147, integer formats: EXTRACT of a constant plane leaves the neutral value in every sample of
DST. -/
def Obligations.ExtractOfConstantIsNeutral : Prop :=
  ∀ (s : State) (radius c : Int), s.Inv → s.busy = false → decode s.regs.cmd = .instr (.extract radius) →
    validateOp (.extract radius) s.regs = none → commandResident (.extract radius) s = true →
    s.regs.fmt ≠ .f32 →
    (∀ x y, x < s.regs.srcPlane.width → y < s.regs.srcPlane.height → loadInt s.mem s.regs.srcPlane x y = c) →
    ∃ t, iterExec (.extract radius) (2 * s.regs.srcPlane.count + 3) s = .next t ∧
      ∀ k < s.regs.srcPlane.count, (t.dstRaw k : Int) = s.regs.fmt.neutral

/-! ## REPLACE -/

/-- 44_launch_and_status.md R213: a valid REPLACE on a block that is not BUSY becomes BUSY in RPASS. -/
def Obligations.ReplaceStartBecomesBusy : Prop :=
  ∀ s : State, s.busy = false → validateOp .replace s.regs = none → commandResident .replace s = true →
    exec .replace s = .next { s with status := 0x00000001, phase := .rpass, doneSet := [] }

/-- 42_replace.md R162, R163: in RPASS, on an integer format, REPLACE stores the clamped recombination at the
coordinate it takes, and changes nothing else but the record of what is done. -/
def Obligations.ReplaceStepInteger : Prop :=
  ∀ (s : State) (k : Nat), s.busy = true → validateOp .replace s.regs = none → s.phase = .rpass →
    s.takes k → s.regs.fmt ≠ .f32 →
    exec .replace s =
      (let base := s.regs.srcPlane
       let x := coordX base.width k
       let y := coordY base.width k
       let v := loadInt s.mem base x y + loadInt s.mem s.regs.detailPlane x y - base.fmt.neutral
       let out := max 0 (min v base.fmt.max)
       .next { s with mem := storeRaw s.mem s.regs.dstPlane x y out.toNat,
                      doneSet := insertCoord k s.doneSet, picks := s.picks.tail })

/-- 42_replace.md R162, R164: the same on F32, `(base + detail) - 0.0` in `ACC_FMT`, unclamped. -/
def Obligations.ReplaceStepFloat : Prop :=
  ∀ (s : State) (k : Nat), s.busy = true → validateOp .replace s.regs = none → s.phase = .rpass →
    s.takes k → s.regs.fmt = .f32 →
    exec .replace s =
      (let base := s.regs.srcPlane
       let a := s.accFmt
       let x := coordX base.width k
       let y := coordY base.width k
       let out := fsub a (fadd a (loadFp a s.mem base x y) (loadFp a s.mem s.regs.detailPlane x y)) (Fp.zero a)
       .next { s with mem := storeRaw s.mem s.regs.dstPlane x y (storedBits (Config.nanDraw s.draws) out).toNat,
                      draws := if fcvt .b32 out = .nan then s.draws + 1 else s.draws,
                      doneSet := insertCoord k s.doneSet, picks := s.picks.tail })

/-- 44_launch_and_status.md R215: when every sample of DST is stored, REPLACE is DONE; IB is not touched. -/
def Obligations.ReplaceCompletes : Prop :=
  ∀ s : State, s.busy = true → validateOp .replace s.regs = none → s.phase = .rpass →
    (∀ k < s.regs.srcPlane.count, k ∈ s.doneSet) →
    exec .replace s = .next { s with status := 0x00000002, phase := .none, doneSet := [] }

/-- The frame of REPLACE (42_replace.md R165; 20_memory.md R60, R61): registers, IB, parameters, schedule and
answers stay; memory changes in the stored sample alone; STATUS changes at START and at completion alone. -/
def Obligations.ReplaceFrame : Prop :=
  ∀ s t : State, s.mem.wf = true → exec .replace s = .next t →
    t.regs = s.regs ∧ t.accFmt = s.accFmt ∧ t.resident = s.resident ∧ t.agenda = s.agenda ∧
    t.answers = s.answers ∧ t.ib = s.ib ∧
    (∀ k, s.busy = true → s.takes k →
      ∀ a, a < s.dstAddrOf k ∨ s.dstAddrOf k + s.regs.dstPlane.fmt.size ≤ a →
        t.mem.read a = s.mem.read a) ∧
    (s.busy = false ∨ (∀ k, ¬ s.takes k) → t.mem = s.mem ∧ t.draws = s.draws) ∧
    (s.busy = true → ∀ k, s.takes k → t.status = s.status ∧ t.phase = s.phase)

/-- 42_replace.md R162, 44_launch_and_status.md R218, 20_memory.md R61: the whole command, in `W * H + 2` steps. -/
def Obligations.ReplaceWholeCommand : Prop :=
  ∀ s : State, s.Inv → s.busy = false → decode s.regs.cmd = .instr .replace →
    validateOp .replace s.regs = none → commandResident .replace s = true →
    ∃ t, iterExec .replace (s.regs.srcPlane.count + 2) s = .next t ∧
      t.status = 0x00000002 ∧ t.phase = .none ∧ t.regs = s.regs ∧
      (∀ k < s.regs.srcPlane.count, storedAs (recombineSample s k) (t.dstRaw k)) ∧
      (∀ a, ¬ s.regs.dstPlane.sampleByte a → t.mem.read a = s.mem.read a)

/-- 42_replace.md R166 (d): on an integer format, where the base samples are `S - D + neutral` and the detail
samples `D`, REPLACE leaves `S` in DST, exactly. -/
def Obligations.ReplaceInvertsDetail : Prop :=
  ∀ (s : State) (orig : Nat → Nat → Int), s.Inv → s.busy = false → decode s.regs.cmd = .instr .replace →
    validateOp .replace s.regs = none → commandResident .replace s = true → s.regs.fmt ≠ .f32 →
    (∀ x y, x < s.regs.srcPlane.width → y < s.regs.srcPlane.height →
      0 ≤ orig x y ∧ orig x y ≤ s.regs.fmt.max ∧
      loadInt s.mem s.regs.srcPlane x y =
        orig x y - loadInt s.mem s.regs.detailPlane x y + s.regs.fmt.neutral) →
    ∃ t, iterExec .replace (s.regs.srcPlane.count + 2) s = .next t ∧
      ∀ x y, x < s.regs.srcPlane.width → y < s.regs.srcPlane.height →
        (rawSample t.mem t.regs.dstPlane x y : Int) = orig x y

/-! ## A command cut short -/

/-- 70_reset_and_hazards.md R272: when a reset abandons a running EXTRACT or REPLACE after any number of its steps,
every sample of DST has its old value or the one the command stores, every byte outside the samples of DST is intact,
and STATUS is IDLE. -/
def Obligations.AbandonedCommandKeepsOldOrNew : Prop :=
  ∀ (s : State) (i : Instr) (n : Nat), s.Inv → s.busy = false → decode s.regs.cmd = .instr i →
    validateOp i s.regs = none → commandResident i s = true → n < commandSteps i s →
    ∃ t u, iterExec i n s = .next t ∧ takeTurn .reset t = .next u ∧ u.status = 0x00000000 ∧
      (∀ k < s.regs.srcPlane.count,
        (let raw := rawSample u.mem s.regs.dstPlane (coordX s.regs.dstPlane.width k)
          (coordY s.regs.dstPlane.width k)
         raw = s.dstRaw k ∨ storedAs (commandValue i s k) raw)) ∧
      (∀ a, ¬ s.regs.dstPlane.sampleByte a → u.mem.read a = s.mem.read a)

/-! ## The machine -/

/-- Every step of the machine keeps the control and memory invariant. -/
def Obligations.StepKeepsInvariant : Prop :=
  ∀ s t : State, s.Inv → step s = .next t → t.Inv

/-- 20_memory.md R62 (b), 40_blur.md R118: every step keeps IB equal to the horizontal sums of the source plane as
it stands in memory. -/
def Obligations.StepKeepsIbSums : Prop :=
  ∀ s t : State, s.Inv → s.IbHolds → step s = .next t → t.IbHolds

/-- 60_exceptions.md R239, R249: in a state of the invariant no step ends in a fault. -/
def Obligations.NoStepFaults : Prop :=
  ∀ (s : State) (r : Fault), s.Inv → step s ≠ .fault r

/-- 44_launch_and_status.md R219: a BUSY block with an idle host is DONE after at most `2 * W * H + 2` steps. -/
def Obligations.BusyBlockReachesDone : Prop :=
  ∀ s : State, s.Inv → s.busy = true → s.agenda = [] →
    ∃ n t, n ≤ 2 * s.regs.srcPlane.count + 2 ∧ Sys2Proof.core.run n s = .next t ∧ t.status = 0x00000002 ∧
      t.regs = s.regs

/-- 20_memory.md R62 (d): on an integer format the final memory of an EXTRACT and of a REPLACE does not depend on the
order in which the coordinates are taken. -/
def Obligations.CoordinateOrderIsUnobservable : Prop :=
  ∀ (s : State) (i : Instr) (ps : List Nat), s.Inv → s.busy = false → decode s.regs.cmd = .instr i →
    validateOp i s.regs = none → commandResident i s = true → s.regs.fmt ≠ .f32 →
    ∃ t u, iterExec i (commandSteps i s) s = .next t ∧
      iterExec i (commandSteps i s) { s with picks := ps } = .next u ∧
      t.status = 0x00000002 ∧ u.status = 0x00000002 ∧ t.mem = u.mem

/-- 10_state.md R36, 41_extract.md R148, integer formats: what EXTRACT leaves in DST depends on the dimensions, the
format, the radius and the source samples, not on addresses, strides, earlier commands or other memory. -/
def Obligations.OutputDependsOnSamplesOnly : Prop :=
  ∀ (s s' : State) (radius : Int), s.Inv → s'.Inv → s.busy = false → s'.busy = false →
    decode s.regs.cmd = .instr (.extract radius) → decode s'.regs.cmd = .instr (.extract radius) →
    validateOp (.extract radius) s.regs = none → validateOp (.extract radius) s'.regs = none →
    commandResident (.extract radius) s = true → commandResident (.extract radius) s' = true →
    s.regs.fmt ≠ .f32 → s'.regs.p0.dim = s.regs.p0.dim → s'.regs.p0.fmt = s.regs.p0.fmt →
    (∀ x y, x < s.regs.srcPlane.width → y < s.regs.srcPlane.height →
      loadInt s'.mem s'.regs.srcPlane x y = loadInt s.mem s.regs.srcPlane x y) →
    ∃ t t', iterExec (.extract radius) (2 * s.regs.srcPlane.count + 3) s = .next t ∧
      iterExec (.extract radius) (2 * s.regs.srcPlane.count + 3) s' = .next t' ∧
      ∀ k < s.regs.srcPlane.count, t'.dstRaw k = t.dstRaw k

/-- 44_launch_and_status.md R216: STATUS DONE or REJECTED stays through every step but a START and a reset. -/
def Obligations.StatusPersists : Prop :=
  ∀ s t : State, s.runState = .done ∨ s.runState = .rejected → step s = .next t →
    (∀ v, s.agenda.head? = some (.regWrite 0x00 4 v) → bits v 0 0 ≠ 1) → s.agenda.head? ≠ some .reset →
    t.status = s.status

/-! ## The host -/

/-- 10_state.md R38, 44_launch_and_status.md R210: a write to a read-write register of a block that is not BUSY
stores all 32 bits, changes no other register and nothing else, and a read then returns the value. -/
def Obligations.HostWriteStoresRegister : Prop :=
  ∀ (s : State) (n : RegName) (v : Word) (rest : List Turn), s.busy = false →
    s.agenda = .regWrite n.offset 4 v :: rest →
    ∃ r, step s = .next { s with agenda := rest, regs := r } ∧ r.get n = v ∧
      (∀ m, m ≠ n → r.get m = s.regs.get m) ∧
      hostRead n.offset 4 { s with agenda := rest, regs := r } =
        .next { s with agenda := rest, regs := r, answers := .register v :: s.answers }

/-- 44_launch_and_status.md R212, R214: a register write, START among them, to a BUSY block changes nothing. -/
def Obligations.BusyBlockIgnoresWrites : Prop :=
  ∀ (s : State) (off : Nat) (v : Word) (rest : List Turn), s.busy = true → off % 4 = 0 → off < 0x40 →
    s.agenda = .regWrite off 4 v :: rest → step s = .next { s with agenda := rest }

/-- 44_launch_and_status.md R210, 10_state.md R22, R37: a write to STATUS, to a reserved offset, or to CTRL with bit
0 clear changes nothing, BUSY or not. -/
def Obligations.WritesWithoutEffect : Prop :=
  ∀ (s : State) (off : Nat) (v : Word) (rest : List Turn),
    (off = 0x04 ∨ off = 0x0C ∨ off = 0x38 ∨ off = 0x3C ∨ (off = 0x00 ∧ bits v 0 0 = 0)) →
    s.agenda = .regWrite off 4 v :: rest → step s = .next { s with agenda := rest }

/-- 44_launch_and_status.md R211: what each register reads as, at any time, with no side effect on the block. -/
def Obligations.HostReadAnswers : Prop :=
  ∀ (s : State) (off : Nat) (rest : List Turn), s.agenda = .regRead off 4 :: rest →
    ((off = 0x00 ∨ off = 0x0C ∨ off = 0x38 ∨ off = 0x3C) →
      step s = .next { s with agenda := rest, answers := .register 0 :: s.answers }) ∧
    (off = 0x04 → step s = .next { s with agenda := rest, answers := .register s.status :: s.answers }) ∧
    (∀ n : RegName, off = n.offset →
      step s = .next { s with agenda := rest, answers := .register (s.regs.get n) :: s.answers })

/-- 44_launch_and_status.md R217: a register access that is not an aligned 32-bit access inside the block is
refused by name. -/
def Obligations.OddRegisterAccessRefused : Prop :=
  ∀ (s : State) (off size : Nat) (v : Word) (rest : List Turn), (size ≠ 4 ∨ off % 4 ≠ 0 ∨ 0x40 ≤ off) →
    (s.agenda = .regWrite off size v :: rest → step s = .refused .registerAccess) ∧
    (s.agenda = .regRead off size :: rest → step s = .refused .registerAccess)

/-- 20_memory.md R63: while BUSY, a host write into an input plane or into DST of the running command, and a host
read of DST, are refused by name. -/
def Obligations.HostContractIsKept : Prop :=
  ∀ (s : State) (i : Instr) (a : Word) (v : Byte) (rest : List Turn), s.busy = true →
    decode s.regs.cmd = .instr i → isResident s.resident a.toNat = true →
    ((∃ p ∈ usedPlanes s.regs i, p.inFoot a.toNat = true) → s.agenda = .store a v :: rest →
      step s = .refused .hostContract) ∧
    (s.regs.dstPlane.inFoot a.toNat = true → s.agenda = .load a :: rest → step s = .refused .hostContract)

/-- 20_memory.md R50, R63: where the contract allows it, a host write changes the one byte, a host read answers the
byte and changes nothing. While BUSY the contract allows a write outside every footprint of the running command and a
read outside that of DST, an input plane included. Byte accesses and the list of answers are the model's own form
(DESIGN CHOICE, notes/assumptions/11.md, 15.md). -/
def Obligations.HostMemoryAccess : Prop :=
  ∀ (s : State) (a : Word) (v : Byte) (rest : List Turn), s.mem.wf = true →
    isResident s.resident a.toNat = true → (s.busy = true → s.regs.dstPlane.inFoot a.toNat = false) →
    ((s.busy = true → ∀ i, decode s.regs.cmd = .instr i →
        ∀ p ∈ inputPlanes s.regs i, p.inFoot a.toNat = false) →
      s.agenda = .store a v :: rest →
      ∃ t, step s = .next t ∧ t.mem.wf = true ∧ t.mem.read a.toNat = v ∧
        (∀ b, b ≠ a.toNat → t.mem.read b = s.mem.read b) ∧
        t = { s with agenda := rest, mem := t.mem }) ∧
    (s.agenda = .load a :: rest →
      step s = .next { s with agenda := rest, answers := .byte (s.mem.read a.toNat) :: s.answers })

/-- 30_encoding.md R94, on a block that is not BUSY: each pseudo-instruction does the register writes it stands for. A
descriptor then reads back as the plane written, EXTRACT and REPLACE put their word into CMD and run START, and WAIT
answers STATUS. That a host's operations are entries of a schedule and its answers a list is the model's own form
(DESIGN CHOICE, notes/assumptions/7.md, 12.md, 15.md). -/
def Obligations.PseudoInstructionsExpand : Prop :=
  ∀ (s : State) (addr stride : Word) (w h : Nat) (f : PixFmt) (i : Instr) (rest : List Turn), s.busy = false →
    w < 2 ^ 16 → h < 2 ^ 16 → i.wf = true →
    (s.agenda = plane0 addr stride w h f ++ rest → ∃ dim,
      Sys2Proof.core.run 4 s = .next { s with agenda := rest, regs := { s.regs with p0 := ⟨addr, stride, dim, f.code⟩ } } ∧
      dimWidth dim = w ∧ dimHeight dim = h ∧ PixFmt.ofCode f.code = some f) ∧
    (s.agenda = plane1 addr stride w h f ++ rest → ∃ dim,
      Sys2Proof.core.run 4 s = .next { s with agenda := rest, regs := { s.regs with p1 := ⟨addr, stride, dim, f.code⟩ } } ∧
      dimWidth dim = w ∧ dimHeight dim = h ∧ PixFmt.ofCode f.code = some f) ∧
    (s.agenda = dest addr stride ++ rest →
      Sys2Proof.core.run 2 s =
        .next { s with agenda := rest, regs := { s.regs with dstAddr := addr, dstStride := stride } }) ∧
    (s.agenda = launchTurns i ++ rest → ∃ u, step s = .next u ∧ u.regs.cmd = encode i ∧
      step u = exec i { s with agenda := rest, regs := { s.regs with cmd := encode i } }) ∧
    (s.agenda = .wait :: rest →
      step s = .next { s with agenda := rest, answers := .register s.status :: s.answers })

/-- 20_memory.md R56, R67: the residency test of a footprint is exact. -/
def Obligations.ResidencyTestIsExact : Prop :=
  ∀ (rs : List (Nat × Nat)) (p : Plane),
    p.resident rs = true ↔ ∀ a, p.addr ≤ a → a < p.footEnd → isResident rs a = true

/-! ## Arithmetic -/

/-- 40_blur.md R113: one reflection gives an index in range at every centre and tap exactly where the size is at
least `2 * step + 1`; E_GEOM lets an axis of EXTRACT pass exactly where its size is at least `2^radius + 1`; and so every
tap of an accepted EXTRACT, along both axes, reads its mirrored position, inside the plane. -/
def Obligations.MirrorRangeIsExact : Prop :=
  (∀ size step : Nat, 1 ≤ size →
    ((∀ (c : Nat) (k : Int), c < size → -2 ≤ k → k ≤ 2 →
        0 ≤ mirror (c + k * step) size ∧ mirror (c + k * step) size ≤ size - 1) ↔
      2 * step + 1 ≤ size)) ∧
  (∀ (radius : Int) (size : Nat), 1 ≤ radius →
    (tooSmall (.extract radius) size = false ↔ 2 ^ radius.toNat + 1 ≤ size)) ∧
  (∀ (r : Regs) (radius : Int) (size c : Nat) (k : Int), validateOp (.extract radius) r = none →
    size = dimWidth r.p0.dim ∨ size = dimHeight r.p0.dim → c < size → -2 ≤ k → k ≤ 2 →
    (tapCoord size (dilation radius) c k : Int) = mirror (c + k * 2 ^ (radius - 1).toNat) size ∧
      tapCoord size (dilation radius) c k < size)

/-- 40_blur.md R125: the bounds of the two sums in the integer domain, on a plane that one reflection suffices for
(R113, R114). -/
def Obligations.IntegerSumBounds : Prop :=
  ∀ (f : Nat → Nat → Int) (m : Int) (w h step x y : Nat), 2 * step + 1 ≤ w → 2 * step + 1 ≤ h →
    (∀ c r, c < w → r < h → 0 ≤ f c r ∧ f c r ≤ m) → x < w → y < h →
    (let hs := fun r => passInt (fun c => f c r) w step x
     let v := passInt hs h step y
     0 ≤ hs y ∧ hs y ≤ 16 * m ∧ 0 ≤ v ∧ v ≤ 256 * m ∧ 36 * f x y ≤ v)

/-- 43_format_converter.md R186: `rha` is rounding half away from zero of the rational. -/
def Obligations.RhaRoundsHalfAway : Prop :=
  ∀ (num : Int) (den : Nat), 0 < den →
    rha num den = if 0 ≤ (num : ℚ) / den then ⌊(num : ℚ) / den + 1 / 2⌋ else -⌊-((num : ℚ) / den) + 1 / 2⌋

/-- 43_format_converter.md R195: after the clamp, rounding half up gives the same, and so does clamping before
truncation. -/
def Obligations.RoundingFormsAgree : Prop :=
  ∀ (num m : Int) (den : Nat), 0 < den → 0 ≤ m →
    clamp (rha num den) 0 m = clamp ⌊(num : ℚ) / den + 1 / 2⌋ 0 m ∧
    clamp (rha num den) 0 m = ⌊max 0 (min ((num : ℚ) / den + 1 / 2) m)⌋

/-- 43_format_converter.md R191, R192, their rounding, and that of a conversion: every `(-1)^neg * m * 2^e` goes to
the nearest number of the format, to the even one of two equally near, and to an infinity exactly from halfway past the
largest number on. The exponent ranges, and where overflow begins, are IEEE 754's, taken from general knowledge
(PRESUMED, notes/assumptions/13.md). -/
def Obligations.RoundingIsNearestEven : Prop :=
  ∀ (f : AccFmt) (neg : Bool) (m : Nat) (e : Int),
    f.roundsTo neg ((m : ℚ) * 2 ^ e) (roundFin f neg m e) ∧
    f.roundsTo neg ((m : ℚ) * 2 ^ e) (fcvt f (.fin neg m e))

/-- 43_format_converter.md R191: on finite data each of the four operations answers the exact result, rounded once: a
finite number or an infinity, and the result itself where the format holds it. A zero sum is `+0` unless both
operands are negative; a product or quotient has the sign of its operands' signs; a quotient by zero is an infinity, and
zero by zero a NaN. The exponent ranges, the signs of zeros and the quotients by zero are IEEE 754's, taken from general
knowledge (PRESUMED, notes/assumptions/13.md). -/
def Obligations.OperationsRoundExactResult : Prop :=
  ∀ (f : AccFmt) (na nb : Bool) (ma mb : Nat) (ea eb : Int),
    let a : Fp := .fin na ma ea
    let b : Fp := .fin nb mb eb
    ∀ qa qb : ℚ, a.value = some qa → b.value = some qb →
      (qa + qb ≠ 0 → f.roundsTo (decide (qa + qb < 0)) |qa + qb| (fadd f a b)) ∧
      (qa + qb = 0 → fadd f a b = .fin (na && nb) 0 f.minExp) ∧
      (qa - qb ≠ 0 → f.roundsTo (decide (qa - qb < 0)) |qa - qb| (fsub f a b)) ∧
      (qa - qb = 0 → fsub f a b = .fin (na && !nb) 0 f.minExp) ∧
      f.roundsTo (na ^^ nb) |qa * qb| (fmul f a b) ∧
      (qb ≠ 0 → f.roundsTo (na ^^ nb) |qa / qb| (fdiv f a b)) ∧
      (qb = 0 → fdiv f a b = if qa = 0 then .nan else .inf (na ^^ nb)) ∧
      (f.represents (qa + qb) → (fadd f a b).value = some (qa + qb)) ∧
      (f.represents (qa - qb) → (fsub f a b).value = some (qa - qb)) ∧
      (f.represents (qa * qb) → (fmul f a b).value = some (qa * qb)) ∧
      (qb ≠ 0 → f.represents (qa / qb) → (fdiv f a b).value = some (qa / qb))

/-- 43_format_converter.md R193, 41_extract.md R144: infinities and NaNs in the operations and conversions, and in the
residual of EXTRACT: an infinite blurred value gives the opposite infinity at a finite sample, and a NaN at a sample
that is the same infinity. What the operations answer is IEEE 754's, taken from general knowledge (PRESUMED,
notes/assumptions/13.md). -/
def Obligations.NonFiniteOperandsPropagate : Prop :=
  ∀ (f : AccFmt) (v : Fp) (p q n : Bool) (m : Nat) (e : Int),
    (fadd f .nan v = .nan ∧ fadd f v .nan = .nan ∧ fsub f .nan v = .nan ∧ fsub f v .nan = .nan ∧
      fmul f .nan v = .nan ∧ fmul f v .nan = .nan ∧ fdiv f .nan v = .nan ∧ fdiv f v .nan = .nan ∧
      fcvt f .nan = .nan) ∧
    (fadd f (.inf p) (.inf q) = (if p = q then .inf p else .nan) ∧
      fadd f (.inf p) (.fin n m e) = .inf p ∧ fadd f (.fin n m e) (.inf p) = .inf p) ∧
    (fsub f (.inf p) (.inf q) = (if p = q then .nan else .inf p) ∧
      fsub f (.inf p) (.fin n m e) = .inf p ∧ fsub f (.fin n m e) (.inf p) = .inf (!p)) ∧
    (fmul f (.inf p) (.inf q) = .inf (p ^^ q) ∧
      fmul f (.inf p) (.fin n m e) = (if m = 0 then .nan else .inf (p ^^ n)) ∧
      fmul f (.fin n m e) (.inf p) = (if m = 0 then .nan else .inf (n ^^ p))) ∧
    (fdiv f (.inf p) (.inf q) = .nan ∧ fdiv f (.inf p) (.fin n m e) = .inf (p ^^ n) ∧
      fdiv f (.fin n m e) (.inf p) = .fin (n ^^ p) 0 f.minExp) ∧
    fcvt f (.inf p) = .inf p ∧
    detailFp f (.fin n m e) (.inf p) = .inf (!p) ∧ detailFp f (.inf p) (.inf p) = .nan

/-- 43_format_converter.md R185, R189, R192: an F32 sample that is not a NaN, loaded into either `ACC_FMT` and stored,
is the same pattern. -/
def Obligations.LoadStoreKeepsPattern : Prop :=
  ∀ (f : AccFmt) (w draw : Word), fpOfBits w ≠ .nan → storedBits draw (fcvt f (fpOfBits w)) = w

/-- 43_format_converter.md R193: a NaN is stored as a binary32 NaN, any of them may be drawn, and the draw matters to
nothing else. -/
def Obligations.StoredNanIsAnyNan : Prop :=
  (∀ draw : Word, bits (storedBits draw .nan) 30 23 = 255 ∧ bits (storedBits draw .nan) 22 0 ≠ 0) ∧
  (∀ w : Word, bits w 30 23 = 255 → bits w 22 0 ≠ 0 → ∃ draw, storedBits draw .nan = w) ∧
  (∀ (v : Fp) (draw draw' : Word), fcvt .b32 v ≠ .nan → storedBits draw v = storedBits draw' v)

/-- 40_blur.md R124: the float procedure on integer samples up to 65535 gives, in binary32 and in binary64, exactly
the blurred value of the integer domain, on a plane that one reflection suffices for (R113, R114). -/
def Obligations.FloatBlurOfIntegersIsExact : Prop :=
  ∀ (f : AccFmt) (g : Nat → Nat → Nat) (w h step x y : Nat), 2 * step + 1 ≤ w → 2 * step + 1 ≤ h →
    (∀ c r, c < w → r < h → g c r ≤ 65535) → x < w → y < h →
    (blurredFp f (passFp f (fun r => passFp f (fun c => Fp.ofNat f (g c r)) w step x) h step y)).value =
      some ((passInt (fun r => passInt (fun c => (g c r : Int)) w step x) h step y : ℚ) / 256)

/-- 41_extract.md R147, 40_blur.md R126, F32 with `ACC_FMT = B64`: on a constant plane of a finite binary32 value that one
reflection suffices for (R113, R114) the blurred value is that value, and the detail stored is `+0.0`. -/
def Obligations.ConstantFloatPlaneIsNeutralInB64 : Prop :=
  ∀ (pattern draw : Word) (g : Nat → Nat → Fp) (w h step x y : Nat), bits pattern 30 23 ≠ 255 →
    2 * step + 1 ≤ w → 2 * step + 1 ≤ h →
    (∀ c r, c < w → r < h → g c r = fcvt .b64 (fpOfBits pattern)) → x < w → y < h →
    (let v := passFp .b64 (fun r => passFp .b64 (fun c => g c r) w step x) h step y
     (blurredFp .b64 v).value = (g x y).value ∧ storedBits draw (detailFp .b64 (g x y) v) = 0x00000000)
end

