-- ==== Sys2Proof/Laws/Memory.lean ====
section
/-! SUPPORT. The laws of the byte memory and of the rising lists: read after write, the frame, the canonical form
(10_state.md R27 to R29; 20_memory.md R50). -/

namespace Sys2Proof.Machine

theorem Memory.wfFrom_mono {lo hi : Nat} (h : hi ≤ lo) : ∀ {m : Memory}, m.wfFrom lo = true → m.wfFrom hi = true
  | [], _ => rfl
  | (k, v) :: m, hm => by
    simp only [Memory.wfFrom, Bool.and_eq_true, decide_eq_true_eq] at hm ⊢
    exact ⟨⟨⟨by omega, hm.1.1.2⟩, hm.1.2⟩, hm.2⟩

theorem Memory.read_below {lo a : Nat} (h : a < lo) : ∀ {m : Memory}, m.wfFrom lo = true →
    m.read a = Config.blankByte
  | [], _ => rfl
  | (k, v) :: m, hm => by
    simp only [Memory.wfFrom, Bool.and_eq_true, decide_eq_true_eq] at hm
    have : a < k := by omega
    simp [Memory.read, this]

theorem Memory.cons_wf {lo a : Nat} {v : Byte} {m : Memory} (hlo : lo ≤ a) (ha : a < Config.memLimit)
    (hm : m.wfFrom (a + 1) = true) : (Memory.cons a v m).wfFrom lo = true := by
  unfold Memory.cons
  split
  · exact Memory.wfFrom_mono (by omega) hm
  · rename_i hv
    simp [Memory.wfFrom, hlo, ha, hv, hm]

/-- A write keeps the canonical form. -/
theorem Memory.write_wfFrom {a : Nat} (v : Byte) (ha : a < Config.memLimit) : ∀ {lo : Nat} {m : Memory},
    lo ≤ a → m.wfFrom lo = true → (m.write a v).wfFrom lo = true
  | lo, [], hlo, _ => Memory.cons_wf hlo ha rfl
  | lo, (k, b) :: m, hlo, hm => by
    have hm' := hm
    simp only [Memory.wfFrom, Bool.and_eq_true, decide_eq_true_eq] at hm
    simp only [Memory.write]
    split
    · refine Memory.cons_wf hlo ha ?_
      simp only [Memory.wfFrom, Bool.and_eq_true, decide_eq_true_eq]
      exact ⟨⟨⟨by omega, hm.1.1.2⟩, hm.1.2⟩, hm.2⟩
    · split
      · rename_i _ hk
        exact Memory.cons_wf hlo ha (by rw [hk]; exact hm.2)
      · simp only [Memory.wfFrom, Bool.and_eq_true, decide_eq_true_eq]
        exact ⟨hm.1, Memory.write_wfFrom v ha (by omega) hm.2⟩

theorem Memory.write_wf {m : Memory} {a : Nat} (v : Byte) (ha : a < Config.memLimit) (hm : m.wf = true) :
    (m.write a v).wf = true := Memory.write_wfFrom v ha (Nat.zero_le a) hm

theorem Memory.read_cons {a b : Nat} {v : Byte} {m : Memory} (hm : m.wfFrom (a + 1) = true) :
    (Memory.cons a v m).read b = if b = a then v else m.read b := by
  unfold Memory.cons
  split
  · rename_i hv
    by_cases hb : b = a
    · simp [hb, hv, Memory.read_below (Nat.lt_succ_self a) hm]
    · simp [hb]
  · by_cases hb : b = a
    · simp [hb, Memory.read]
    · by_cases hlt : b < a
      · simp [Memory.read, hlt, hb, Memory.read_below (show b < a + 1 by omega) hm]
      · simp [Memory.read, hlt, hb]

/-- What a byte reads as after a write: the byte written at its address, the old byte everywhere else. -/
theorem Memory.read_write_from {a b : Nat} {v : Byte} : ∀ {lo : Nat} {m : Memory}, m.wfFrom lo = true →
    (m.write a v).read b = if b = a then v else m.read b
  | _, [], _ => Memory.read_cons rfl
  | lo, (k, c) :: m, hm => by
    have hm' := hm
    simp only [Memory.wfFrom, Bool.and_eq_true, decide_eq_true_eq] at hm
    simp only [Memory.write]
    split
    · rename_i hk
      refine Memory.read_cons ?_
      simp only [Memory.wfFrom, Bool.and_eq_true, decide_eq_true_eq]
      exact ⟨⟨⟨by omega, hm.1.1.2⟩, hm.1.2⟩, hm.2⟩
    · rename_i hk
      split
      · rename_i hak
        subst hak
        rw [Memory.read_cons hm.2]
        by_cases hb : b = a
        · simp [hb]
        · by_cases hlt : b < a
          · simp [hb, hlt, Memory.read, Memory.read_below (show b < a + 1 by omega) hm.2]
          · simp [hb, hlt, Memory.read]
      · rename_i hak
        have ih := Memory.read_write_from (a := a) (b := b) (v := v) hm.2
        by_cases hlt : b < k
        · have : b ≠ a := by omega
          simp [Memory.read, hlt, this]
        · by_cases hbk : b = k
          · have : b ≠ a := by omega
            subst hbk
            simp [Memory.read, this]
          · simp [Memory.read, hlt, hbk, ih]

theorem Memory.read_write {m : Memory} (hm : m.wf = true) (a b : Nat) (v : Byte) :
    (m.write a v).read b = if b = a then v else m.read b := Memory.read_write_from hm

/-- Writing bytes keeps the canonical form. -/
theorem Memory.writeBytes_wf : ∀ {bs : List Byte} {m : Memory} {a : Nat}, a + bs.length ≤ Config.memLimit →
    m.wf = true → (m.writeBytes a bs).wf = true
  | [], _, _, _, hm => hm
  | b :: bs, m, a, ha, hm => by
    simp only [List.length_cons] at ha
    have hw := Memory.write_wf b (show a < Config.memLimit by omega) hm
    exact Memory.writeBytes_wf (bs := bs) (m := m.write a b) (a := a + 1) (by omega) hw

/-- What a byte reads as after bytes were written. -/
theorem Memory.read_writeBytes : ∀ {bs : List Byte} {m : Memory} {a : Nat} (b : Nat),
    a + bs.length ≤ Config.memLimit → m.wf = true →
    (m.writeBytes a bs).read b =
      if h : a ≤ b ∧ b < a + bs.length then bs[b - a]'(by omega) else m.read b
  | [], m, a, b, _, _ => by
    have : ¬ (a ≤ b ∧ b < a) := by omega
    simp [Memory.writeBytes, this]
  | c :: bs, m, a, b, ha, hm => by
    simp only [List.length_cons] at ha
    have hw := Memory.write_wf c (show a < Config.memLimit by omega) hm
    simp only [Memory.writeBytes]
    rw [Memory.read_writeBytes b (by omega) hw]
    by_cases h1 : a + 1 ≤ b ∧ b < a + 1 + bs.length
    · have h2 : a ≤ b ∧ b < a + (c :: bs).length := by simp only [List.length_cons]; omega
      rw [dif_pos h1, dif_pos h2]
      have : b - a = (b - (a + 1)) + 1 := by omega
      simp [this]
    · rw [dif_neg h1, Memory.read_write hm]
      by_cases hb : b = a
      · subst hb
        simp
      · have h2 : ¬ (a ≤ b ∧ b < a + (c :: bs).length) := by simp only [List.length_cons]; omega
        rw [dif_neg h2, if_neg hb]

/-- Bytes outside the ones written read as before. -/
theorem Memory.read_writeBytes_frame {bs : List Byte} {m : Memory} {a b : Nat}
    (ha : a + bs.length ≤ Config.memLimit) (hm : m.wf = true) (hb : b < a ∨ a + bs.length ≤ b) :
    (m.writeBytes a bs).read b = m.read b := by
  rw [Memory.read_writeBytes b ha hm, dif_neg (by omega)]

/-- Two memories in canonical form that read alike are equal. -/
theorem Memory.ext_from : ∀ {lo : Nat} {m n : Memory}, m.wfFrom lo = true → n.wfFrom lo = true →
    (∀ a, lo ≤ a → m.read a = n.read a) → m = n
  | _, [], [], _, _, _ => rfl
  | lo, [], (k, v) :: n, _, hn, h => by
    simp only [Memory.wfFrom, Bool.and_eq_true, decide_eq_true_eq] at hn
    have := h k hn.1.1.1
    simp only [Memory.read, lt_irrefl, if_true, if_false] at this
    exact absurd this.symm hn.1.2
  | lo, (k, v) :: m, [], hm, _, h => by
    simp only [Memory.wfFrom, Bool.and_eq_true, decide_eq_true_eq] at hm
    have := h k hm.1.1.1
    simp only [Memory.read, lt_irrefl, if_true, if_false] at this
    exact absurd this hm.1.2
  | lo, (k, v) :: m, (j, w) :: n, hm, hn, h => by
    simp only [Memory.wfFrom, Bool.and_eq_true, decide_eq_true_eq] at hm hn
    rcases Nat.lt_trichotomy k j with hkj | hkj | hkj
    · have := h k hm.1.1.1
      simp only [Memory.read, lt_irrefl, if_true, if_false, hkj] at this
      exact absurd this hm.1.2
    · subst hkj
      have hv := h k hm.1.1.1
      simp only [Memory.read, lt_irrefl, if_true, if_false] at hv
      subst hv
      have : m = n := Memory.ext_from hm.2 hn.2 fun a ha => by
        have hr := h a (by omega)
        have h1 : ¬ a < k := by omega
        have h2 : a ≠ k := by omega
        simpa [Memory.read, h1, h2] using hr
      rw [this]
    · have := h j hn.1.1.1
      simp only [Memory.read, lt_irrefl, if_true, if_false, hkj] at this
      exact absurd this.symm hn.1.2

theorem Memory.ext {m n : Memory} (hm : m.wf = true) (hn : n.wf = true) (h : ∀ a, m.read a = n.read a) :
    m = n := Memory.ext_from hm hn fun a _ => h a

/-- Membership in a coordinate list after an insertion. -/
@[simp] theorem mem_insertCoord {k j : Nat} : ∀ {l : List Nat}, j ∈ insertCoord k l ↔ j = k ∨ j ∈ l
  | [] => by simp [insertCoord]
  | i :: l => by
    simp only [insertCoord]
    split
    · simp
    · split
      · rename_i hk
        subst hk
        simp
      · simp [mem_insertCoord (l := l), or_left_comm]

/-- An insertion keeps a coordinate list rising. -/
theorem risingFrom_insertCoord {k : Nat} : ∀ {lo : Nat} {l : List Nat}, lo ≤ k → risingFrom lo l = true →
    risingFrom lo (insertCoord k l) = true
  | lo, [], hlo, _ => by simp [insertCoord, risingFrom, hlo]
  | lo, i :: l, hlo, hl => by
    simp only [risingFrom, Bool.and_eq_true, decide_eq_true_eq] at hl
    simp only [insertCoord]
    split
    · simp only [risingFrom, Bool.and_eq_true, decide_eq_true_eq]
      exact ⟨hlo, by omega, hl.2⟩
    · split
      · simp only [risingFrom, Bool.and_eq_true, decide_eq_true_eq]
        exact hl
      · simp only [risingFrom, Bool.and_eq_true, decide_eq_true_eq]
        exact ⟨hl.1, risingFrom_insertCoord (by omega) hl.2⟩

/-- An element of IB after a write. -/
@[simp] theorem ibLookup_ibWrite {k j : Nat} {d : Datum} : ∀ {ib : List (Nat × Datum)},
    ibLookup j (ibWrite k d ib) = if j = k then some d else ibLookup j ib
  | [] => by simp [ibWrite, ibLookup]
  | (i, e) :: ib => by
    simp only [ibWrite]
    split
    · simp [ibLookup]
    · split
      · rename_i hk
        subst hk
        by_cases hj : j = k <;> simp [ibLookup, hj]
      · by_cases hj : j = i
        · have : j ≠ k := by omega
          subst hj
          simp [ibLookup, this]
        · simp [ibLookup, hj, ibLookup_ibWrite (ib := ib)]

/-- The keys of IB after a write are those of an inserted coordinate. -/
theorem keys_ibWrite {k : Nat} {d : Datum} : ∀ {ib : List (Nat × Datum)},
    (ibWrite k d ib).map Prod.fst = insertCoord k (ib.map Prod.fst)
  | [] => rfl
  | (i, e) :: ib => by
    simp only [ibWrite, insertCoord, List.map_cons]
    split
    · rfl
    · split
      · rename_i hk
        simp [hk]
      · simp [keys_ibWrite (ib := ib)]

end Sys2Proof.Machine
end

