-- ==== Sys2Proof/Laws/State.lean ====
section
/-! SUPPORT. One lemma per field and update of the state, so that no later proof unfolds a record update. -/

namespace Sys2Proof.Machine

@[simp] theorem State.reject_status (s : State) (c : RejectCode) : (s.reject c).status = statusWord .rejected c.code := rfl
@[simp] theorem State.reject_regs (s : State) (c : RejectCode) : (s.reject c).regs = s.regs := rfl
@[simp] theorem State.reject_phase (s : State) (c : RejectCode) : (s.reject c).phase = s.phase := rfl
@[simp] theorem State.reject_doneSet (s : State) (c : RejectCode) : (s.reject c).doneSet = s.doneSet := rfl
@[simp] theorem State.reject_ib (s : State) (c : RejectCode) : (s.reject c).ib = s.ib := rfl
@[simp] theorem State.reject_mem (s : State) (c : RejectCode) : (s.reject c).mem = s.mem := rfl
@[simp] theorem State.reject_accFmt (s : State) (c : RejectCode) : (s.reject c).accFmt = s.accFmt := rfl
@[simp] theorem State.reject_resident (s : State) (c : RejectCode) : (s.reject c).resident = s.resident := rfl
@[simp] theorem State.reject_draws (s : State) (c : RejectCode) : (s.reject c).draws = s.draws := rfl
@[simp] theorem State.reject_picks (s : State) (c : RejectCode) : (s.reject c).picks = s.picks := rfl
@[simp] theorem State.reject_agenda (s : State) (c : RejectCode) : (s.reject c).agenda = s.agenda := rfl
@[simp] theorem State.reject_answers (s : State) (c : RejectCode) : (s.reject c).answers = s.answers := rfl

@[simp] theorem State.enter_status (s : State) (p : Phase) : (s.enter p).status = statusWord .busy 0 := rfl
@[simp] theorem State.enter_regs (s : State) (p : Phase) : (s.enter p).regs = s.regs := rfl
@[simp] theorem State.enter_phase (s : State) (p : Phase) : (s.enter p).phase = p := rfl
@[simp] theorem State.enter_doneSet (s : State) (p : Phase) : (s.enter p).doneSet = [] := rfl
@[simp] theorem State.enter_ib (s : State) (p : Phase) : (s.enter p).ib = s.ib := rfl
@[simp] theorem State.enter_mem (s : State) (p : Phase) : (s.enter p).mem = s.mem := rfl
@[simp] theorem State.enter_accFmt (s : State) (p : Phase) : (s.enter p).accFmt = s.accFmt := rfl
@[simp] theorem State.enter_resident (s : State) (p : Phase) : (s.enter p).resident = s.resident := rfl
@[simp] theorem State.enter_draws (s : State) (p : Phase) : (s.enter p).draws = s.draws := rfl
@[simp] theorem State.enter_picks (s : State) (p : Phase) : (s.enter p).picks = s.picks := rfl
@[simp] theorem State.enter_agenda (s : State) (p : Phase) : (s.enter p).agenda = s.agenda := rfl
@[simp] theorem State.enter_answers (s : State) (p : Phase) : (s.enter p).answers = s.answers := rfl

@[simp] theorem State.processed_status (s : State) (k : Nat) : (s.processed k).status = s.status := rfl
@[simp] theorem State.processed_regs (s : State) (k : Nat) : (s.processed k).regs = s.regs := rfl
@[simp] theorem State.processed_phase (s : State) (k : Nat) : (s.processed k).phase = s.phase := rfl
@[simp] theorem State.processed_doneSet (s : State) (k : Nat) : (s.processed k).doneSet = insertCoord k s.doneSet := rfl
@[simp] theorem State.processed_ib (s : State) (k : Nat) : (s.processed k).ib = s.ib := rfl
@[simp] theorem State.processed_mem (s : State) (k : Nat) : (s.processed k).mem = s.mem := rfl
@[simp] theorem State.processed_accFmt (s : State) (k : Nat) : (s.processed k).accFmt = s.accFmt := rfl
@[simp] theorem State.processed_resident (s : State) (k : Nat) : (s.processed k).resident = s.resident := rfl
@[simp] theorem State.processed_draws (s : State) (k : Nat) : (s.processed k).draws = s.draws := rfl
@[simp] theorem State.processed_picks (s : State) (k : Nat) : (s.processed k).picks = s.picks.tail := rfl
@[simp] theorem State.processed_agenda (s : State) (k : Nat) : (s.processed k).agenda = s.agenda := rfl
@[simp] theorem State.processed_answers (s : State) (k : Nat) : (s.processed k).answers = s.answers := rfl

@[simp] theorem State.discardIb_status (s : State) : s.discardIb.status = s.status := rfl
@[simp] theorem State.discardIb_regs (s : State) : s.discardIb.regs = s.regs := rfl
@[simp] theorem State.discardIb_phase (s : State) : s.discardIb.phase = s.phase := rfl
@[simp] theorem State.discardIb_doneSet (s : State) : s.discardIb.doneSet = s.doneSet := rfl
@[simp] theorem State.discardIb_ib (s : State) : s.discardIb.ib = [] := rfl
@[simp] theorem State.discardIb_mem (s : State) : s.discardIb.mem = s.mem := rfl
@[simp] theorem State.discardIb_accFmt (s : State) : s.discardIb.accFmt = s.accFmt := rfl
@[simp] theorem State.discardIb_resident (s : State) : s.discardIb.resident = s.resident := rfl
@[simp] theorem State.discardIb_draws (s : State) : s.discardIb.draws = s.draws + 1 := rfl
@[simp] theorem State.discardIb_picks (s : State) : s.discardIb.picks = s.picks := rfl
@[simp] theorem State.discardIb_agenda (s : State) : s.discardIb.agenda = s.agenda := rfl
@[simp] theorem State.discardIb_answers (s : State) : s.discardIb.answers = s.answers := rfl

@[simp] theorem State.writeIb_status (s : State) (k : Nat) (d : Datum) : (s.writeIb k d).status = s.status := rfl
@[simp] theorem State.writeIb_regs (s : State) (k : Nat) (d : Datum) : (s.writeIb k d).regs = s.regs := rfl
@[simp] theorem State.writeIb_phase (s : State) (k : Nat) (d : Datum) : (s.writeIb k d).phase = s.phase := rfl
@[simp] theorem State.writeIb_doneSet (s : State) (k : Nat) (d : Datum) : (s.writeIb k d).doneSet = s.doneSet := rfl
@[simp] theorem State.writeIb_ib (s : State) (k : Nat) (d : Datum) : (s.writeIb k d).ib = ibWrite k d s.ib := rfl
@[simp] theorem State.writeIb_mem (s : State) (k : Nat) (d : Datum) : (s.writeIb k d).mem = s.mem := rfl
@[simp] theorem State.writeIb_accFmt (s : State) (k : Nat) (d : Datum) : (s.writeIb k d).accFmt = s.accFmt := rfl
@[simp] theorem State.writeIb_resident (s : State) (k : Nat) (d : Datum) : (s.writeIb k d).resident = s.resident := rfl
@[simp] theorem State.writeIb_draws (s : State) (k : Nat) (d : Datum) : (s.writeIb k d).draws = s.draws := rfl
@[simp] theorem State.writeIb_picks (s : State) (k : Nat) (d : Datum) : (s.writeIb k d).picks = s.picks := rfl
@[simp] theorem State.writeIb_agenda (s : State) (k : Nat) (d : Datum) : (s.writeIb k d).agenda = s.agenda := rfl
@[simp] theorem State.writeIb_answers (s : State) (k : Nat) (d : Datum) : (s.writeIb k d).answers = s.answers := rfl

@[simp] theorem State.complete_status (s : State) : s.complete.status = statusWord .done 0 := rfl
@[simp] theorem State.complete_regs (s : State) : s.complete.regs = s.regs := rfl
@[simp] theorem State.complete_phase (s : State) : s.complete.phase = .none := rfl
@[simp] theorem State.complete_doneSet (s : State) : s.complete.doneSet = [] := rfl
@[simp] theorem State.complete_ib (s : State) : s.complete.ib = s.ib := rfl
@[simp] theorem State.complete_mem (s : State) : s.complete.mem = s.mem := rfl
@[simp] theorem State.complete_accFmt (s : State) : s.complete.accFmt = s.accFmt := rfl
@[simp] theorem State.complete_resident (s : State) : s.complete.resident = s.resident := rfl
@[simp] theorem State.complete_draws (s : State) : s.complete.draws = s.draws := rfl
@[simp] theorem State.complete_picks (s : State) : s.complete.picks = s.picks := rfl
@[simp] theorem State.complete_agenda (s : State) : s.complete.agenda = s.agenda := rfl
@[simp] theorem State.complete_answers (s : State) : s.complete.answers = s.answers := rfl

@[simp] theorem State.answer_status (s : State) (a : Answer) : (s.answer a).status = s.status := rfl
@[simp] theorem State.answer_regs (s : State) (a : Answer) : (s.answer a).regs = s.regs := rfl
@[simp] theorem State.answer_phase (s : State) (a : Answer) : (s.answer a).phase = s.phase := rfl
@[simp] theorem State.answer_doneSet (s : State) (a : Answer) : (s.answer a).doneSet = s.doneSet := rfl
@[simp] theorem State.answer_ib (s : State) (a : Answer) : (s.answer a).ib = s.ib := rfl
@[simp] theorem State.answer_mem (s : State) (a : Answer) : (s.answer a).mem = s.mem := rfl
@[simp] theorem State.answer_accFmt (s : State) (a : Answer) : (s.answer a).accFmt = s.accFmt := rfl
@[simp] theorem State.answer_resident (s : State) (a : Answer) : (s.answer a).resident = s.resident := rfl
@[simp] theorem State.answer_draws (s : State) (a : Answer) : (s.answer a).draws = s.draws := rfl
@[simp] theorem State.answer_picks (s : State) (a : Answer) : (s.answer a).picks = s.picks := rfl
@[simp] theorem State.answer_agenda (s : State) (a : Answer) : (s.answer a).agenda = s.agenda := rfl
@[simp] theorem State.answer_answers (s : State) (a : Answer) : (s.answer a).answers = a :: s.answers := rfl

@[simp] theorem State.applyReset_status (s : State) : s.applyReset.status = 0 := rfl
@[simp] theorem State.applyReset_regs (s : State) : s.applyReset.regs = Regs.reset := rfl
@[simp] theorem State.applyReset_phase (s : State) : s.applyReset.phase = .none := rfl
@[simp] theorem State.applyReset_doneSet (s : State) : s.applyReset.doneSet = [] := rfl
@[simp] theorem State.applyReset_ib (s : State) : s.applyReset.ib = [] := rfl
@[simp] theorem State.applyReset_mem (s : State) : s.applyReset.mem = s.mem := rfl
@[simp] theorem State.applyReset_accFmt (s : State) : s.applyReset.accFmt = s.accFmt := rfl
@[simp] theorem State.applyReset_resident (s : State) : s.applyReset.resident = s.resident := rfl
@[simp] theorem State.applyReset_draws (s : State) : s.applyReset.draws = s.draws + 1 := rfl
@[simp] theorem State.applyReset_picks (s : State) : s.applyReset.picks = s.picks := rfl
@[simp] theorem State.applyReset_agenda (s : State) : s.applyReset.agenda = s.agenda := rfl
@[simp] theorem State.applyReset_answers (s : State) : s.applyReset.answers = s.answers := rfl

@[simp] theorem State.storeDst_status (s : State) (k : Nat) (d : Datum) : (s.storeDst k d).status = s.status := by
  cases d <;> rfl
@[simp] theorem State.storeDst_regs (s : State) (k : Nat) (d : Datum) : (s.storeDst k d).regs = s.regs := by
  cases d <;> rfl
@[simp] theorem State.storeDst_phase (s : State) (k : Nat) (d : Datum) : (s.storeDst k d).phase = s.phase := by
  cases d <;> rfl
@[simp] theorem State.storeDst_doneSet (s : State) (k : Nat) (d : Datum) : (s.storeDst k d).doneSet = s.doneSet := by
  cases d <;> rfl
@[simp] theorem State.storeDst_ib (s : State) (k : Nat) (d : Datum) : (s.storeDst k d).ib = s.ib := by
  cases d <;> rfl
@[simp] theorem State.storeDst_accFmt (s : State) (k : Nat) (d : Datum) : (s.storeDst k d).accFmt = s.accFmt := by
  cases d <;> rfl
@[simp] theorem State.storeDst_resident (s : State) (k : Nat) (d : Datum) : (s.storeDst k d).resident = s.resident := by
  cases d <;> rfl
@[simp] theorem State.storeDst_picks (s : State) (k : Nat) (d : Datum) : (s.storeDst k d).picks = s.picks := by
  cases d <;> rfl
@[simp] theorem State.storeDst_agenda (s : State) (k : Nat) (d : Datum) : (s.storeDst k d).agenda = s.agenda := by
  cases d <;> rfl
@[simp] theorem State.storeDst_answers (s : State) (k : Nat) (d : Datum) : (s.storeDst k d).answers = s.answers := by
  cases d <;> rfl

/-- What storing a sample does to memory: the bytes of one number at the sample's address. -/
theorem State.storeDst_mem (s : State) (k : Nat) (d : Datum) :
    ∃ v, storedAs d v ∧ (s.storeDst k d).mem =
      storeRaw s.mem s.regs.dstPlane (coordX s.regs.dstPlane.width k) (coordY s.regs.dstPlane.width k) v := by
  cases d with
  | int v => exact ⟨v.toNat, rfl, rfl⟩
  | flt v => exact ⟨_, ⟨_, rfl⟩, rfl⟩

/-- STATE is read back from the status words the block writes. -/
@[simp] theorem runState_statusWord (s : State) (st : RunState) (h : s.status = statusWord st 0) :
    s.runState = st := by
  unfold State.runState
  rw [h]
  cases st <;> rfl

theorem busy_of_status (s : State) (h : s.status = statusWord .busy 0) : s.busy = true := by
  simp [State.busy, runState_statusWord s .busy h]

theorem not_busy_of_done (s : State) (h : s.status = statusWord .done 0) : s.busy = false := by
  simp [State.busy, runState_statusWord s .done h]

theorem not_busy_of_rejected (s : State) (c : RejectCode) (h : s.status = statusWord .rejected c.code) :
    s.busy = false := by
  unfold State.busy State.runState
  rw [h]
  cases c <;> rfl

@[simp] theorem State.enter_busy (s : State) (p : Phase) : (s.enter p).busy = true := busy_of_status _ rfl

@[simp] theorem State.complete_busy (s : State) : s.complete.busy = false := not_busy_of_done _ rfl

@[simp] theorem State.reject_busy (s : State) (c : RejectCode) : (s.reject c).busy = false :=
  not_busy_of_rejected _ c rfl

@[simp] theorem State.applyReset_busy (s : State) : s.applyReset.busy = false := by
  simp [State.busy, State.runState, bits]

/-- Reading a register back after writing it, and every other register (10_state.md R38). -/
@[simp] theorem Regs.get_set_same (r : Regs) (n : RegName) (v : Word) : (r.set n v).get n = v := by
  cases n <;> rfl

theorem Regs.get_set_other (r : Regs) (n m : RegName) (v : Word) (h : m ≠ n) :
    (r.set n v).get m = r.get m := by
  cases n <;> cases m <;> first | rfl | exact absurd rfl h

end Sys2Proof.Machine
end

