-- ==== Sys2Proof/Laws/Ops.lean ====
section
/-! SUPPORT. For each shared operation, once, everything it can do: the choice of a coordinate, launching, the
computation steps, the two instructions, and the schedule (44_launch_and_status.md R209 to R221). -/

namespace Sys2Proof.Machine

theorem firstTodo_some {done : List Nat} : ∀ {fuel k j : Nat}, firstTodo done fuel k = some j →
    k ≤ j ∧ j < k + fuel ∧ j ∉ done
  | fuel + 1, k, j, h => by
    simp only [firstTodo] at h
    split at h
    · have := firstTodo_some h
      exact ⟨by omega, by omega, this.2.2⟩
    · rename_i hk
      cases h
      exact ⟨le_rfl, by omega, by simpa using hk⟩

theorem firstTodo_none {done : List Nat} : ∀ {fuel k : Nat},
    firstTodo done fuel k = none ↔ ∀ j, k ≤ j → j < k + fuel → j ∈ done
  | 0, k => by
    simp only [firstTodo, true_iff]
    intro j h1 h2
    omega
  | fuel + 1, k => by
    simp only [firstTodo]
    split
    · rename_i hk
      rw [firstTodo_none]
      constructor
      · intro h j h1 h2
        by_cases hj : j = k
        · subst hj
          simpa using hk
        · exact h j (by omega) (by omega)
      · intro h j h1 h2
        exact h j (by omega) (by omega)
    · rename_i hk
      simp only [reduceCtorEq, false_iff]
      intro h
      exact hk (by simpa using h k le_rfl (by omega))

/-- The coordinate taken next is one of the plane that is still to do. -/
theorem nextCoord_some {n k : Nat} {s : State} (h : nextCoord n s = some k) : k < n ∧ k ∉ s.doneSet := by
  unfold nextCoord at h
  split at h
  · have := firstTodo_some h
    exact ⟨by omega, this.2.2⟩
  · split at h
    · rename_i hp
      cases h
      exact ⟨hp.1, by simpa using hp.2⟩
    · have := firstTodo_some h
      exact ⟨by omega, this.2.2⟩

/-- There is no next coordinate exactly when all are done. -/
theorem nextCoord_none {n : Nat} {s : State} : nextCoord n s = none ↔ ∀ k < n, k ∈ s.doneSet := by
  have key : firstTodo s.doneSet n 0 = none ↔ ∀ k < n, k ∈ s.doneSet := by
    rw [firstTodo_none]
    constructor
    · intro h k hk
      exact h k (Nat.zero_le k) (by omega)
    · intro h k _ hk
      exact h k (by omega)
  unfold nextCoord
  split
  · exact key
  · split
    · rename_i hp
      simp only [reduceCtorEq, false_iff]
      intro h
      exact hp.2 (by simpa using h _ hp.1)
    · exact key

/-- A pick that is still to do is taken: any order can be had. -/
theorem nextCoord_pick {n k : Nat} {s : State} {ps : List Nat} (hp : s.picks = k :: ps) (hk : k < n)
    (hd : k ∉ s.doneSet) : nextCoord n s = some k := by
  unfold nextCoord
  rw [hp]
  simp [hk, hd]

/-- All that a launch can do. -/
theorem launch_cases {i : Instr} {p : Phase} {s t : State} (h : launch i p s = .next t) :
    (∃ c, validateOp i s.regs = some c ∧ t = s.reject c) ∨
    (validateOp i s.regs = none ∧ commandResident i s = true ∧ t = s.enter p) := by
  unfold launch at h
  split at h
  · rename_i c hc
    cases h
    exact .inl ⟨c, hc, rfl⟩
  · rename_i hc
    split at h
    · rename_i hr
      cases h
      exact .inr ⟨hc, hr, rfl⟩
    · cases h

theorem launch_reject {i : Instr} {p : Phase} {s : State} {c : RejectCode}
    (h : validateOp i s.regs = some c) : launch i p s = .next (s.reject c) := by
  simp [launch, h]

theorem launch_enter {i : Instr} {p : Phase} {s : State} (h : validateOp i s.regs = none)
    (hr : commandResident i s = true) : launch i p s = .next (s.enter p) := by
  simp [launch, h, hr]

theorem whenValid_next {i : Instr} {s t : State} {r : Result} (h : whenValid i s r = .next t) :
    validateOp i s.regs = none ∧ r = .next t := by
  unfold whenValid at h
  split at h
  · cases h
  · rename_i hv
    exact ⟨hv, h⟩

theorem whenValid_ok {i : Instr} {s : State} {r : Result} (h : validateOp i s.regs = none) :
    whenValid i s r = r := by
  simp [whenValid, h]

/-- All that EXTRACT can do on a block that goes on. -/
theorem execExtract_cases {radius : Int} {s t : State} (h : execExtract radius s = .next t) :
    (s.busy = false ∧ ∃ c, validateOp (.extract radius) s.regs = some c ∧ t = s.reject c) ∨
    (s.busy = false ∧ validateOp (.extract radius) s.regs = none ∧
      commandResident (.extract radius) s = true ∧ t = s.enter .hpass) ∨
    (s.busy = true ∧ validateOp (.extract radius) s.regs = none ∧ s.phase = .hpass ∧
      t = hpassStep (dilation radius) s) ∨
    (s.busy = true ∧ validateOp (.extract radius) s.regs = none ∧ s.phase = .vpass ∧
      t = vpassStep (dilation radius) s) := by
  unfold execExtract at h
  split at h
  · rename_i hb
    obtain ⟨hv, hr⟩ := whenValid_next h
    cases hp : s.phase <;> rw [hp] at hr <;> cases hr
    · exact .inr (.inr (.inl ⟨hb, hv, rfl, rfl⟩))
    · exact .inr (.inr (.inr ⟨hb, hv, rfl, rfl⟩))
  · rename_i hb
    have hb' : s.busy = false := by simpa using hb
    rcases launch_cases h with hc | ⟨hv, hr, ht⟩
    · exact .inl ⟨hb', hc⟩
    · exact .inr (.inl ⟨hb', hv, hr, ht⟩)

/-- All that REPLACE can do on a block that goes on. -/
theorem execReplace_cases {s t : State} (h : execReplace s = .next t) :
    (s.busy = false ∧ ∃ c, validateOp .replace s.regs = some c ∧ t = s.reject c) ∨
    (s.busy = false ∧ validateOp .replace s.regs = none ∧ commandResident .replace s = true ∧
      t = s.enter .rpass) ∨
    (s.busy = true ∧ validateOp .replace s.regs = none ∧ s.phase = .rpass ∧ t = rpassStep s) := by
  unfold execReplace at h
  split at h
  · rename_i hb
    obtain ⟨hv, hr⟩ := whenValid_next h
    cases hp : s.phase <;> rw [hp] at hr <;> cases hr
    exact .inr (.inr ⟨hb, hv, rfl, rfl⟩)
  · rename_i hb
    have hb' : s.busy = false := by simpa using hb
    rcases launch_cases h with hc | ⟨hv, hr, ht⟩
    · exact .inl ⟨hb', hc⟩
    · exact .inr (.inl ⟨hb', hv, hr, ht⟩)

/-- All that a step of HPASS can do (40_blur.md R118). -/
theorem hpassStep_cases (d : Nat) (s : State) :
    (∃ k, nextCoord s.regs.srcPlane.count s = some k ∧
      hpassStep d s = (s.writeIb k (horizontalSum s d k)).processed k) ∨
    (nextCoord s.regs.srcPlane.count s = none ∧ hpassStep d s = { s with phase := .vpass, doneSet := [] }) := by
  unfold hpassStep
  cases h : nextCoord s.regs.srcPlane.count s with
  | some k => exact .inl ⟨k, rfl, rfl⟩
  | none => exact .inr ⟨rfl, rfl⟩

/-- All that a step of VPASS can do (41_extract.md R142; 44_launch_and_status.md R215). -/
theorem vpassStep_cases (d : Nat) (s : State) :
    (∃ k, nextCoord s.regs.srcPlane.count s = some k ∧
      vpassStep d s = (s.storeDst k (detailSample s d k)).processed k) ∨
    (nextCoord s.regs.srcPlane.count s = none ∧ vpassStep d s = s.discardIb.complete) := by
  unfold vpassStep
  cases h : nextCoord s.regs.srcPlane.count s with
  | some k => exact .inl ⟨k, rfl, rfl⟩
  | none => exact .inr ⟨rfl, rfl⟩

/-- All that a step of RPASS can do (42_replace.md R162; 44_launch_and_status.md R215). -/
theorem rpassStep_cases (s : State) :
    (∃ k, nextCoord s.regs.srcPlane.count s = some k ∧
      rpassStep s = (s.storeDst k (recombineSample s k)).processed k) ∨
    (nextCoord s.regs.srcPlane.count s = none ∧ rpassStep s = s.complete) := by
  unfold rpassStep
  cases h : nextCoord s.regs.srcPlane.count s with
  | some k => exact .inl ⟨k, rfl, rfl⟩
  | none => exact .inr ⟨rfl, rfl⟩

/-- All that the block's own turn can do. -/
theorem blockTurn_cases {s t : State} (h : blockTurn s = .next t) :
    (s.busy = false ∧ t = s) ∨
    (s.busy = true ∧ ∃ i, decode s.regs.cmd = .instr i ∧ exec i s = .next t) := by
  unfold blockTurn fetch at h
  split at h
  · rename_i hb
    split at h
    · cases h
    · rename_i i hi
      exact .inr ⟨hb, i, hi, h⟩
  · rename_i hb
    cases h
    exact .inl ⟨by simpa using hb, rfl⟩

/-- All that START can do (44_launch_and_status.md R213, R214). -/
theorem start_cases {s t : State} (h : start s = .next t) :
    (s.busy = true ∧ t = s) ∨
    (s.busy = false ∧ (∃ e, decode s.regs.cmd = .rejected e) ∧ t = s.reject .eOp) ∨
    (s.busy = false ∧ ∃ i, decode s.regs.cmd = .instr i ∧ exec i s = .next t) := by
  unfold start fetch at h
  split at h
  · rename_i hb
    cases h
    exact .inl ⟨hb, rfl⟩
  · rename_i hb
    have hb' : s.busy = false := by simpa using hb
    split at h
    · rename_i e he
      cases h
      exact .inr (.inl ⟨hb', ⟨e, he⟩, rfl⟩)
    · rename_i i hi
      exact .inr (.inr ⟨hb', i, hi, h⟩)

/-- All that a register write can do (44_launch_and_status.md R210, R212). -/
theorem hostWrite_cases {off size : Nat} {v : Word} {s t : State} (h : hostWrite off size v s = .next t) :
    (start s = .next t) ∨ t = s ∨ (s.busy = false ∧ ∃ n, t = { s with regs := s.regs.set n v }) := by
  unfold hostWrite at h
  split at h
  · cases h
  · split at h
    · exact .inl h
    · cases h
      exact .inr (.inl rfl)
  · cases h
    exact .inr (.inl rfl)
  · cases h
    exact .inr (.inl rfl)
  · rename_i n _
    split at h
    · cases h
      exact .inr (.inl rfl)
    · rename_i hb
      cases h
      exact .inr (.inr ⟨by simpa using hb, n, rfl⟩)

theorem hostRead_cases {off size : Nat} {s t : State} (h : hostRead off size s = .next t) :
    ∃ a, t = s.answer a := by
  unfold hostRead at h
  split at h
  · cases h
  · cases h
    exact ⟨_, rfl⟩

theorem hostLoad_cases {a : Word} {s t : State} (h : hostLoad a s = .next t) : ∃ a, t = s.answer a := by
  unfold hostLoad at h
  split at h
  · cases h
  · split at h
    · cases h
    · cases h
      exact ⟨_, rfl⟩

/-- A host store goes on only outside the running command's planes (20_memory.md R63). -/
theorem hostStore_cases {a : Word} {v : Byte} {s t : State} (h : hostStore a v s = .next t) :
    isResident s.resident a.toNat = true ∧ runningInput s a.toNat = false ∧ runningOutput s a.toNat = false ∧
      t = { s with mem := s.mem.write a.toNat v } := by
  unfold hostStore at h
  split at h
  · cases h
  · rename_i hres
    split at h
    · cases h
    · rename_i hc
      cases h
      simp only [Bool.or_eq_true, not_or, Bool.not_eq_true] at hc
      exact ⟨by simpa using hres, hc.1, hc.2, rfl⟩

theorem hostWait_cases {s t : State} (h : hostWait s = .next t) :
    (s.busy = true ∧ blockTurn { s with agenda := .wait :: s.agenda } = .next t) ∨
    (s.busy = false ∧ t = s.answer (.register s.status)) := by
  unfold hostWait at h
  split at h
  · rename_i hb
    exact .inl ⟨hb, h⟩
  · rename_i hb
    cases h
    exact .inr ⟨by simpa using hb, rfl⟩

end Sys2Proof.Machine
end

