-- ==== Sys2Proof/Laws/PerInstr.lean ====
section
/-! SUPPORT. Statements about every instruction as syntax, one lemma per constructor. -/

namespace Sys2Proof.Laws

/-- The encoded word of a well-formed instruction has zero reserved fields, the operation code of its row, and the
radius modulo 256 in its RADIUS field, zero for REPLACE (30_encoding.md R81, R82, R94). -/
def EncodingFields.Statement (i : Instr) : Prop :=
  i.wf = true → bits (encode i) 31 16 = 0 ∧ bits (encode i) 7 4 = 0 ∧
    match i with
    | .extract radius => bits (encode i) 3 0 = 1 ∧ bits (encode i) 15 8 = (radius % 256).toNat
    | .replace => bits (encode i) 3 0 = 2 ∧ bits (encode i) 15 8 = 0

theorem EncodingFields.extract (radius : Int) : EncodingFields.Statement (.extract radius) := by
  intro _
  have h0 : 0 ≤ radius % 256 := Int.emod_nonneg _ (by decide)
  have h1 : radius % 256 < 256 := Int.emod_lt_of_pos _ (by decide)
  simp only [encode, bits, BitVec.toNat_ofNat]
  omega

theorem EncodingFields.replace : EncodingFields.Statement .replace := by
  intro _
  simp [encode, bits]

end Sys2Proof.Laws
end

