-- ==== Sys2Proof/Laws/Planes.lean ====
section
/-! SUPPORT. What validation gives a command: sample addresses inside the address space, samples of one plane
apart, output samples apart from input samples; and what storing a sample does to samples and bytes
(20_memory.md R51 to R58; 43_format_converter.md R184 to R189). -/

namespace Sys2Proof.Machine

/-- An accepted command fails none of the six checks. -/
theorem validateOp_none {i : Instr} {r : Regs} : validateOp i r = none ↔
    condFmt i r = false ∧ condRadius i = false ∧ condMismatch i r = false ∧ condGeom i r = false ∧
      condAlign i r = false ∧ condOverlap i r = false := by
  unfold validateOp
  cases condFmt i r <;> cases condRadius i <;> cases condMismatch i r <;> cases condGeom i r <;>
    cases condAlign i r <;> cases condOverlap i r <;> simp

theorem PixFmt.size_pos (f : PixFmt) : 0 < f.size := by cases f <;> decide

/-- The planes of a command have the width, height and format of P0. -/
theorem usedPlanes_shape {i : Instr} {r : Regs} {q : Plane} (h : q ∈ usedPlanes r i) :
    q.width = r.srcPlane.width ∧ q.height = r.srcPlane.height ∧ q.fmt = r.srcPlane.fmt := by
  cases i <;> simp only [usedPlanes, inputPlanes, List.cons_append, List.nil_append, List.mem_cons,
    List.not_mem_nil, or_false] at h
  · rcases h with rfl | rfl <;> exact ⟨rfl, rfl, rfl⟩
  · rcases h with rfl | rfl | rfl <;> exact ⟨rfl, rfl, rfl⟩

theorem dst_mem_usedPlanes (i : Instr) (r : Regs) : r.dstPlane ∈ usedPlanes r i := by
  simp [usedPlanes]

theorem src_mem_inputPlanes (i : Instr) (r : Regs) : r.srcPlane ∈ inputPlanes r i := by
  cases i <;> simp [inputPlanes]

theorem input_mem_usedPlanes {i : Instr} {r : Regs} {q : Plane} (h : q ∈ inputPlanes r i) :
    q ∈ usedPlanes r i := by
  simp [usedPlanes, h]

/-- The geometry of an accepted command (60_exceptions.md R235). -/
theorem accepted_geometry {i : Instr} {r : Regs} (h : validateOp i r = none) {q : Plane}
    (hq : q ∈ usedPlanes r i) :
    0 < q.width ∧ 0 < q.height ∧ q.width * q.fmt.size ≤ q.stride ∧ q.footEnd ≤ Config.memLimit := by
  have hg := (validateOp_none.mp h).2.2.2.1
  have hs := usedPlanes_shape hq
  simp only [condGeom, Bool.or_eq_false_iff, decide_eq_false_iff_not, List.any_eq_false] at hg
  have hb := hg.1.1.2 q hq
  simp only [Plane.badGeometry, Bool.or_eq_true, decide_eq_true_eq, not_or, not_lt] at hb
  have hw : r.srcPlane.width = dimWidth r.p0.dim := rfl
  have hh : r.srcPlane.height = dimHeight r.p0.dim := rfl
  refine ⟨?_, ?_, hb.1, hb.2⟩
  · rw [hs.1, hw]
    exact Nat.pos_of_ne_zero hg.1.1.1.1
  · rw [hs.2.1, hh]
    exact Nat.pos_of_ne_zero hg.1.1.1.2

@[simp] theorem oneReflectionSuffices_iff {size step : Nat} :
    oneReflectionSuffices size step = true ↔ 2 * step + 1 ≤ size := decide_eq_true_iff

/-- EXTRACT is accepted only where one reflection suffices (40_blur.md R113). -/
theorem accepted_step {radius : Int} {r : Regs} (h : validateOp (.extract radius) r = none) :
    2 * dilation radius + 1 ≤ r.srcPlane.width ∧ 2 * dilation radius + 1 ≤ r.srcPlane.height := by
  have hg := (validateOp_none.mp h).2.2.2.1
  simp only [condGeom, tooSmall, Bool.or_eq_false_iff, Bool.not_eq_false', oneReflectionSuffices_iff] at hg
  have hw : r.srcPlane.width = dimWidth r.p0.dim := rfl
  have hh : r.srcPlane.height = dimHeight r.p0.dim := rfl
  exact ⟨hw ▸ hg.1.2, hh ▸ hg.2⟩

/-- An accepted command's DST does not meet its inputs (20_memory.md R58). -/
theorem accepted_disjoint {i : Instr} {r : Regs} (h : validateOp i r = none) {q : Plane}
    (hq : q ∈ inputPlanes r i) : r.dstPlane.footEnd ≤ q.addr ∨ q.footEnd ≤ r.dstPlane.addr := by
  have ho := (validateOp_none.mp h).2.2.2.2.2
  simp only [condOverlap, List.any_eq_false] at ho
  have := ho q hq
  simp only [Plane.disjoint, Bool.not_eq_true', Bool.not_eq_false, Bool.or_eq_true, decide_eq_true_eq] at this
  exact this

/-- The range lemma of the mirror resolver (40_blur.md R113), its sufficient half. -/
theorem mirror_mem_range {size step c : Nat} {k : Int} (hs : 2 * step + 1 ≤ size) (hc : c < size) (h1 : -2 ≤ k)
    (h2 : k ≤ 2) : 0 ≤ mirror (c + k * step) size ∧ mirror (c + k * step) size < size := by
  have a1 : -2 * (step : Int) ≤ k * step := Int.mul_le_mul_of_nonneg_right h1 (Int.natCast_nonneg step)
  have a2 : k * step ≤ 2 * (step : Int) := Int.mul_le_mul_of_nonneg_right h2 (Int.natCast_nonneg step)
  unfold mirror
  split
  · omega
  · split <;> omega

/-- Where one reflection suffices, a tap reads the mirrored position (40_blur.md R113, R115). -/
theorem tapCoord_eq_mirror {size step c : Nat} {k : Int} (hs : 2 * step + 1 ≤ size) (hc : c < size) (h1 : -2 ≤ k)
    (h2 : k ≤ 2) : tapCoord size step c k = (mirror (c + k * step) size).toNat :=
  if_pos (mirror_mem_range hs hc h1 h2)

/-- A tap never reads outside the plane (40_blur.md R114). -/
theorem tapCoord_lt {size : Nat} (step c : Nat) (k : Int) (hs : 0 < size) : tapCoord size step c k < size := by
  unfold tapCoord
  dsimp only
  split
  · omega
  · exact Nat.mod_lt _ hs

/-- A sample lies inside the footprint of its plane (20_memory.md R51, R56). -/
theorem sample_in_foot {p : Plane} {x y : Nat} (hx : x < p.width) (hy : y < p.height) :
    p.addr ≤ p.sampleAddr x y ∧ p.sampleAddr x y + p.fmt.size ≤ p.footEnd := by
  unfold Plane.sampleAddr Plane.footEnd
  have h1 : y * p.stride ≤ (p.height - 1) * p.stride := Nat.mul_le_mul_right _ (by omega)
  have h2 : (x + 1) * p.fmt.size ≤ p.width * p.fmt.size := Nat.mul_le_mul_right _ hx
  rw [Nat.add_mul] at h2
  omega

/-- Two samples of one plane do not meet, where a row fits its stride (20_memory.md R55). -/
theorem samples_apart {p : Plane} (hs : p.width * p.fmt.size ≤ p.stride) {x y x' y' : Nat}
    (hx : x < p.width) (hx' : x' < p.width) (hne : ¬ (x = x' ∧ y = y')) :
    p.sampleAddr x y + p.fmt.size ≤ p.sampleAddr x' y' ∨
      p.sampleAddr x' y' + p.fmt.size ≤ p.sampleAddr x y := by
  unfold Plane.sampleAddr
  have e1 : (x + 1) * p.fmt.size ≤ p.width * p.fmt.size := Nat.mul_le_mul_right _ hx
  have e2 : (x' + 1) * p.fmt.size ≤ p.width * p.fmt.size := Nat.mul_le_mul_right _ hx'
  rw [Nat.add_mul] at e1 e2
  rcases Nat.lt_trichotomy y y' with h | h | h
  · have : (y + 1) * p.stride ≤ y' * p.stride := Nat.mul_le_mul_right _ h
    rw [Nat.add_mul] at this
    left
    omega
  · subst h
    rcases Nat.lt_trichotomy x x' with g | g | g
    · have : (x + 1) * p.fmt.size ≤ x' * p.fmt.size := Nat.mul_le_mul_right _ g
      rw [Nat.add_mul] at this
      left
      omega
    · exact absurd ⟨g, rfl⟩ hne
    · have : (x' + 1) * p.fmt.size ≤ x * p.fmt.size := Nat.mul_le_mul_right _ g
      rw [Nat.add_mul] at this
      right
      omega
  · have : (y' + 1) * p.stride ≤ y * p.stride := Nat.mul_le_mul_right _ h
    rw [Nat.add_mul] at this
    right
    omega

/-- The coordinate of a number below `W * H` is in the plane. -/
theorem coord_lt {w h k : Nat} (hk : k < w * h) : coordX w k < w ∧ coordY w k < h := by
  have hw : 0 < w := Nat.pos_of_ne_zero fun e => by simp [e] at hk
  exact ⟨Nat.mod_lt _ hw, Nat.div_lt_of_lt_mul hk⟩

/-- Coordinates and their numbers are in one-to-one correspondence. -/
theorem coordKey_coord (w k : Nat) : coordKey w (coordX w k) (coordY w k) = k := by
  unfold coordKey coordX coordY
  rw [Nat.mul_comm]
  exact Nat.div_add_mod k w

theorem coord_of_key {w x : Nat} (y : Nat) (hx : x < w) :
    coordX w (coordKey w x y) = x ∧ coordY w (coordKey w x y) = y := by
  unfold coordKey coordX coordY
  have hw : 0 < w := by omega
  constructor
  · rw [Nat.add_comm, Nat.add_mul_mod_self_right, Nat.mod_eq_of_lt hx]
  · rw [Nat.add_comm, Nat.add_mul_div_right _ _ hw, Nat.div_eq_of_lt hx, Nat.zero_add]

theorem coordKey_lt {w h x y : Nat} (hx : x < w) (hy : y < h) : coordKey w x y < w * h := by
  unfold coordKey
  have : (y + 1) * w ≤ h * w := Nat.mul_le_mul_right _ hy
  rw [Nat.add_mul] at this
  rw [Nat.mul_comm w h]
  omega

@[simp] theorem leBytes_length (n v : Nat) : (leBytes n v).length = n := by
  induction n generalizing v with
  | zero => rfl
  | succ n ih => simp [leBytes, ih]

/-- The bytes of a number spell it (20_memory.md R53). -/
theorem leNat_leBytes (n v : Nat) : leNat (leBytes n v) = v % 2 ^ (8 * n) := by
  induction n generalizing v with
  | zero => simp [leBytes, leNat, Nat.mod_one]
  | succ n ih =>
    simp only [leBytes, leNat, ih, BitVec.toNat_ofNat]
    rw [Nat.mul_succ, Nat.pow_add, Nat.mul_comm (2 ^ (8 * n)), Nat.mod_mul]

theorem Memory.readBytes_congr {m n : Memory} : ∀ {c a : Nat},
    (∀ b, a ≤ b → b < a + c → m.read b = n.read b) → m.readBytes a c = n.readBytes a c
  | 0, _, _ => rfl
  | c + 1, a, h => by
    simp only [Memory.readBytes]
    rw [h a le_rfl (by omega), Memory.readBytes_congr fun b h1 h2 => h b (by omega) (by omega)]

/-- Bytes just written are read back. -/
theorem Memory.readBytes_writeBytes : ∀ {bs : List Byte} {m : Memory} {a : Nat},
    a + bs.length ≤ Config.memLimit → m.wf = true → (m.writeBytes a bs).readBytes a bs.length = bs
  | [], _, _, _, _ => rfl
  | b :: bs, m, a, ha, hm => by
    have hr := Memory.read_writeBytes (bs := b :: bs) (m := m) a ha hm
    have h0 : a ≤ a ∧ a < a + (b :: bs).length := by simp
    rw [dif_pos h0] at hr
    simp only [List.length_cons] at ha
    have hw := Memory.write_wf b (show a < Config.memLimit by omega) hm
    have ih := Memory.readBytes_writeBytes (bs := bs) (m := m.write a b) (a := a + 1) (by omega) hw
    simp only [List.length_cons, Memory.readBytes]
    rw [hr]
    simp only [Memory.writeBytes]
    rw [ih]
    simp

/-- Storing a sample keeps the canonical form. -/
theorem storeRaw_wf {m : Memory} {p : Plane} {x y v : Nat} (hm : m.wf = true)
    (ha : p.sampleAddr x y + p.fmt.size ≤ Config.memLimit) : (storeRaw m p x y v).wf = true :=
  Memory.writeBytes_wf (by simpa using ha) hm

/-- Bytes outside the stored sample read as before. -/
theorem storeRaw_frame {m : Memory} {p : Plane} {x y v b : Nat} (hm : m.wf = true)
    (ha : p.sampleAddr x y + p.fmt.size ≤ Config.memLimit)
    (hb : b < p.sampleAddr x y ∨ p.sampleAddr x y + p.fmt.size ≤ b) :
    (storeRaw m p x y v).read b = m.read b :=
  Memory.read_writeBytes_frame (by simpa using ha) hm (by simpa using hb)

/-- The stored sample spells the stored number. -/
theorem rawSample_storeRaw {m : Memory} {p : Plane} {x y v : Nat} (hm : m.wf = true)
    (ha : p.sampleAddr x y + p.fmt.size ≤ Config.memLimit) :
    rawSample (storeRaw m p x y v) p x y = v % 2 ^ (8 * p.fmt.size) := by
  unfold rawSample storeRaw
  have h := Memory.readBytes_writeBytes (bs := leBytes p.fmt.size v) (m := m) (a := p.sampleAddr x y)
    (by simpa using ha) hm
  rw [leBytes_length] at h
  rw [h, leNat_leBytes]

/-- A sample that does not meet the stored one is unchanged. -/
theorem rawSample_storeRaw_other {m : Memory} {p q : Plane} {x y v x' y' : Nat} (hm : m.wf = true)
    (ha : p.sampleAddr x y + p.fmt.size ≤ Config.memLimit)
    (hd : p.sampleAddr x y + p.fmt.size ≤ q.sampleAddr x' y' ∨
      q.sampleAddr x' y' + q.fmt.size ≤ p.sampleAddr x y) :
    rawSample (storeRaw m p x y v) q x' y' = rawSample m q x' y' := by
  unfold rawSample
  rw [Memory.readBytes_congr fun b h1 h2 => storeRaw_frame hm ha (by omega)]

end Sys2Proof.Machine
end

