-- ==== Sys2Proof/Laws/Values.lean ====
section
/-! SUPPORT. The values of the passes by the domain of the format, and the shape all planes of a command share
(43_format_converter.md R183; 10_state.md R26). -/

namespace Sys2Proof.Machine

@[simp] theorem Regs.dstPlane_width (r : Regs) : r.dstPlane.width = r.srcPlane.width := rfl
@[simp] theorem Regs.dstPlane_height (r : Regs) : r.dstPlane.height = r.srcPlane.height := rfl
@[simp] theorem Regs.dstPlane_fmt (r : Regs) : r.dstPlane.fmt = r.fmt := rfl
@[simp] theorem Regs.srcPlane_fmt (r : Regs) : r.srcPlane.fmt = r.fmt := rfl
@[simp] theorem Regs.detailPlane_width (r : Regs) : r.detailPlane.width = r.srcPlane.width := rfl
@[simp] theorem Regs.detailPlane_height (r : Regs) : r.detailPlane.height = r.srcPlane.height := rfl
@[simp] theorem Regs.detailPlane_fmt (r : Regs) : r.detailPlane.fmt = r.fmt := rfl

@[simp] theorem commandSteps_extract (radius : Int) (s : State) :
    commandSteps (.extract radius) s = 2 * s.regs.srcPlane.count + 3 := rfl
@[simp] theorem commandSteps_replace (s : State) : commandSteps .replace s = s.regs.srcPlane.count + 2 := rfl
@[simp] theorem commandValue_extract (radius : Int) (s : State) (k : Nat) :
    commandValue (.extract radius) s k = extractValue s radius k := rfl
@[simp] theorem commandValue_replace (s : State) (k : Nat) : commandValue .replace s k = recombineSample s k := rfl

/-- STATE and BUSY depend on STATUS alone. -/
theorem State.busy_congr {s t : State} (h : t.status = s.status) : t.busy = s.busy := by
  unfold State.busy State.runState
  rw [h]

theorem horizontalSum_int {s : State} (h : s.regs.fmt ≠ .f32) (d k : Nat) :
    horizontalSum s d k = .int (passInt
      (fun c => loadInt s.mem s.regs.srcPlane c (coordY s.regs.srcPlane.width k)) s.regs.srcPlane.width d
      (coordX s.regs.srcPlane.width k)) := by
  unfold horizontalSum
  simp only [Regs.srcPlane_fmt]

theorem horizontalSum_flt {s : State} (h : s.regs.fmt = .f32) (d k : Nat) :
    horizontalSum s d k = .flt (passFp s.accFmt
      (fun c => loadFp s.accFmt s.mem s.regs.srcPlane c (coordY s.regs.srcPlane.width k)) s.regs.srcPlane.width d
      (coordX s.regs.srcPlane.width k)) := by
  unfold horizontalSum
  simp only [Regs.srcPlane_fmt, h]

theorem detailSample_int {s : State} (h : s.regs.fmt ≠ .f32) (d k : Nat) :
    detailSample s d k = .int (detailInt s.regs.fmt
      (loadInt s.mem s.regs.srcPlane (coordX s.regs.srcPlane.width k) (coordY s.regs.srcPlane.width k))
      (verticalInt s d k)) := by
  unfold detailSample
  simp only [Regs.srcPlane_fmt]

theorem detailSample_flt {s : State} (h : s.regs.fmt = .f32) (d k : Nat) :
    detailSample s d k = .flt (detailFp s.accFmt
      (loadFp s.accFmt s.mem s.regs.srcPlane (coordX s.regs.srcPlane.width k) (coordY s.regs.srcPlane.width k))
      (verticalFp s d k)) := by
  unfold detailSample
  simp only [Regs.srcPlane_fmt, h]

theorem recombineSample_int {s : State} (h : s.regs.fmt ≠ .f32) (k : Nat) :
    recombineSample s k = .int (recombineInt s.regs.fmt
      (loadInt s.mem s.regs.srcPlane (coordX s.regs.srcPlane.width k) (coordY s.regs.srcPlane.width k))
      (loadInt s.mem s.regs.detailPlane (coordX s.regs.srcPlane.width k)
        (coordY s.regs.srcPlane.width k))) := by
  unfold recombineSample
  simp only [Regs.srcPlane_fmt]

theorem recombineSample_flt {s : State} (h : s.regs.fmt = .f32) (k : Nat) :
    recombineSample s k = .flt (recombineFp s.accFmt
      (loadFp s.accFmt s.mem s.regs.srcPlane (coordX s.regs.srcPlane.width k) (coordY s.regs.srcPlane.width k))
      (loadFp s.accFmt s.mem s.regs.detailPlane (coordX s.regs.srcPlane.width k)
        (coordY s.regs.srcPlane.width k))) := by
  unfold recombineSample
  simp only [Regs.srcPlane_fmt, h]

theorem extractValue_int {s : State} (h : s.regs.fmt ≠ .f32) (radius : Int) (k : Nat) :
    extractValue s radius k = .int (detailInt s.regs.fmt
      (loadInt s.mem s.regs.srcPlane (coordX s.regs.srcPlane.width k) (coordY s.regs.srcPlane.width k))
      (passInt (fun r => passInt (fun c => loadInt s.mem s.regs.srcPlane c r) s.regs.srcPlane.width
        (dilation radius) (coordX s.regs.srcPlane.width k)) s.regs.srcPlane.height (dilation radius)
        (coordY s.regs.srcPlane.width k))) := by
  unfold extractValue
  simp only [Regs.srcPlane_fmt]

theorem extractValue_flt {s : State} (h : s.regs.fmt = .f32) (radius : Int) (k : Nat) :
    extractValue s radius k = .flt (detailFp s.accFmt
      (loadFp s.accFmt s.mem s.regs.srcPlane (coordX s.regs.srcPlane.width k) (coordY s.regs.srcPlane.width k))
      (passFp s.accFmt (fun r => passFp s.accFmt (fun c => loadFp s.accFmt s.mem s.regs.srcPlane c r)
        s.regs.srcPlane.width (dilation radius) (coordX s.regs.srcPlane.width k)) s.regs.srcPlane.height
        (dilation radius) (coordY s.regs.srcPlane.width k))) := by
  unfold extractValue
  simp only [Regs.srcPlane_fmt, h]

/-- The clamped value lies in the range (43_format_converter.md R187). -/
theorem clamp_range {v m : Int} (h : 0 ≤ m) : 0 ≤ clamp v 0 m ∧ clamp v 0 m ≤ m := by
  unfold clamp
  split
  · exact ⟨le_rfl, h⟩
  · split <;> omega

end Sys2Proof.Machine
end

