-- ==== Sys2Proof/Tests/Slice0.lean ====
section
/-! SUPPORT. Tests of one step each, with results from the spec's worked examples, and a witness for the hypotheses
of every statement that has some. -/

namespace Sys2Proof.Tests

open Sys2Proof Sys2Proof.Machine

/-! ## Well-formedness and decoding -/

/-- 30_encoding.md R83: the radius field holds -128 to 127. -/
theorem test_wf_refuses_radius_below : (Instr.extract (-129)).wf = false := by decide
theorem test_wf_refuses_radius_above : (Instr.extract 128).wf = false := by decide
theorem test_wf_bounds : (Instr.extract (-128)).wf = true ∧ (Instr.extract 127).wf = true := by decide

/-- 30_encoding.md R95, the pattern of EXTRACT with `r` = 11111110: radius -2. -/
theorem test_decode_extract : decode 0b00000000000000001111111000000001 = .instr (.extract (-2)) := by decide
/-- 30_encoding.md R94: `EXTRACT 3` is the word 0x00000301. -/
theorem test_decode_extract_three : decode 0x00000301 = .instr (.extract 3) := by decide
/-- 30_encoding.md R95, the pattern of REPLACE with `r` = 10100101, which is not read. -/
theorem test_decode_replace : decode 0b00000000000000001010010100000010 = .instr .replace := by decide
/-- 95_test_vectors.md V48: a reserved bit is set. -/
theorem test_decode_refuses_reserved : decode 0x00000111 = .rejected .reservedBits := by decide
/-- 95_test_vectors.md V49: OP 0. -/
theorem test_decode_refuses_op : decode 0x00000100 = .rejected .unknownOp := by decide

/-! ## Small states -/

/-- A 3 by 3 plane of `b`-byte samples at 0x1000, a second one at 0x1800, the output at 0x2000. -/
def smallRegs (cmd fmt : Word) (b : Nat) : Regs :=
  { cmd := cmd
    p0 := { addr := 0x1000, stride := BitVec.ofNat 32 (3 * b), dim := 0x00030003, fmt := fmt }
    p1 := { addr := 0x1800, stride := BitVec.ofNat 32 (3 * b), dim := 0x00030003, fmt := fmt }
    dstAddr := 0x2000
    dstStride := BitVec.ofNat 32 (3 * b) }

/-- The block after reset with those registers written. -/
def ready (cmd fmt : Word) (b : Nat) : State := { State.reset with regs := smallRegs cmd fmt b }

/-- A block that is BUSY in a phase. -/
def inPhase (p : Phase) (s : State) : State := { s with status := 0x00000001, phase := p }

/-- All nine coordinates done. -/
def allDone (s : State) : State := { s with doneSet := [0, 1, 2, 3, 4, 5, 6, 7, 8] }

/-- One entry on the schedule. -/
def next (t : Turn) (s : State) : State := { s with agenda := [t] }

/-- The state a step goes on in. -/
def goesOn : Result → Option State
  | .next s => some s
  | _ => none

/-- EXTRACT with radius 1 on U8, on F32, and REPLACE on U8, on F32. -/
def readyE8 : State := ready 0x00000101 0 1
def readyE32 : State := ready 0x00000101 2 4
def readyR8 : State := ready 0x00000002 0 1
def readyR32 : State := ready 0x00000002 2 4

/-! ## One step against the spec's numbers -/

/-- 40_blur.md R116, its worked example: the row 10, 20, 30 at `x = 0` takes columns 2, 1, 0, 1, 2:
`30 + 4*20 + 6*10 + 4*20 + 30 = 280`. -/
theorem test_extract_horizontal :
    ((goesOn (exec (.extract 1)
      (inPhase .hpass { readyE8 with mem := [(0x1000, 10), (0x1001, 20), (0x1002, 30)] }))).map
        fun t => t.ib) = some [(0, .int 280)] := by decide

/-- 41_extract.md R149 at `(0,0)`: IB column 280, 1080, 1710 and sample 10 give 84; three rows, so taps 2, 1, 0, 1, 2. -/
theorem test_extract_vertical :
    ((goesOn (exec (.extract 1)
      (inPhase .vpass { readyE8 with mem := [(0x1000, 10)], ib := [(0, .int 280), (3, .int 1080), (6, .int 1710)] }))).map
        fun t => (t.mem.read 0x2000, t.doneSet)) = some (84, [0]) := by decide

/-- 95_test_vectors.md V24: 200 and 200 give 272, stored 255. -/
theorem test_replace_clamps :
    ((goesOn (exec .replace
      (inPhase .rpass { readyR8 with mem := [(0x1000, 200), (0x1800, 200)] }))).map
        fun t => t.mem.read 0x2000) = some 255 := by decide

/-- 95_test_vectors.md V35: 1.5 and 1.0 give 2.5, stored unclamped, the least significant byte first. -/
theorem test_replace_float :
    ((goesOn (exec .replace
      (inPhase .rpass { readyR32 with mem := [(0x1002, 0xC0), (0x1003, 0x3F), (0x1802, 0x80), (0x1803, 0x3F)] }))).map
        fun t => t.mem.readBytes 0x2000 4) = some [0x00, 0x00, 0x20, 0x40] := by decide +kernel

/-- A table word is launched as the first command after reset: EXTRACT with radius 1 on planes of width 0 is E_GEOM
(70_reset_and_hazards.md R274). -/
theorem test_fetch_word_runs :
    ((goesOn (step (State.reset.withFetchWord 32 0x00000101))).map fun t => t.status) = some 0x00000053 := by
  decide

/-! ## Witnesses: a quiet block meets the invariant -/

theorem ready_busy (cmd fmt : Word) (b : Nat) : (ready cmd fmt b).busy = false := by
  have h : (ready cmd fmt b).busy = State.reset.busy := State.busy_congr rfl
  rw [h]
  decide

theorem ready_inv (cmd fmt : Word) (b : Nat) : (ready cmd fmt b).Inv where
  memWf := rfl
  statusLegal := (by decide : legalStatus 0 = true)
  phaseNone := by
    constructor
    · intro _
      exact ready_busy cmd fmt b
    · intro _
      rfl
  running := fun h => by
    rw [ready_busy] at h
    cases h
  idleDone := fun _ => rfl
  noIb := fun _ _ => rfl
  doneRising := rfl
  doneBound := fun k hk => by
    have hk' : k ∈ ([] : List Nat) := hk
    cases hk'
  ibRising := rfl
  ibBound := fun e he => by
    have he' : e ∈ ([] : List (Nat × Datum)) := he
    cases he'

/-- A BUSY block in HPASS that meets the invariant, and whose IB holds what it should. -/
theorem hpass_inv : (inPhase .hpass readyE8).Inv where
  memWf := rfl
  statusLegal := (by decide : legalStatus 1 = true)
  phaseNone := by
    constructor
    · intro h
      exact absurd h (by decide)
    · intro h
      exact absurd h (by decide)
  running := fun _ => ⟨.extract 1, by decide, by decide, by decide, rfl⟩
  idleDone := fun _ => rfl
  noIb := fun h _ => absurd rfl h
  doneRising := rfl
  doneBound := fun k hk => by
    have hk' : k ∈ ([] : List Nat) := hk
    cases hk'
  ibRising := rfl
  ibBound := fun e he => by
    have he' : e ∈ ([] : List (Nat × Datum)) := he
    cases he'

theorem hpass_ib : (inPhase .hpass readyE8).IbHolds := by
  intro radius _
  constructor
  · intro _ k hk
    have hk' : k ∈ ([] : List Nat) := hk
    cases hk'
  · intro h
    exact absurd h (by decide)

/-! ## Witnesses for the hypotheses, one for each statement -/

theorem witness_ResetInAnyState : (next .reset (inPhase .hpass readyE8)).agenda = .reset :: [] := rfl

theorem witness_DecodeOfEncode : (Instr.extract (-128)).wf = true ∧ Instr.replace.wf = true := by decide

/-- One word for each clause. -/
theorem witness_DecodeFollowsOpcodeTable :
    (0x0000FF01 : Word) &&& 0xFFFF00FF = 0x00000001 ∧ (0x0000FF02 : Word) &&& 0xFFFF00FF = 0x00000002 ∧
    (0x00010101 : Word) &&& 0xFFFF00FF ≠ 0x00000001 ∧ (0x00010101 : Word) &&& 0xFFFF00FF ≠ 0x00000002 ∧
    (Regs.reset.set .cmd 0x00010101).cmd = 0x00010101 := by decide

theorem witness_EncodeOfDecode :
    decode 0x00008001 = .instr (.extract (-128)) ∧ decode 0x0000FF02 = .instr .replace := by decide

theorem witness_StartRunsDecodedCommand :
    (next startTurn readyE8).agenda = .regWrite 0x00 4 1 :: [] ∧ bits 1 0 0 = 1 ∧
    (next startTurn readyE8).busy = false ∧ decode (next startTurn readyE8).regs.cmd = .instr (.extract 1) := by
  decide

/-- One state for each clause. -/
theorem witness_BusyBlockRunsDecodedCommand :
    (inPhase .hpass readyE8).busy = true ∧ decode (inPhase .hpass readyE8).regs.cmd = .instr (.extract 1) ∧
    (inPhase .hpass readyE8).agenda = [] ∧ (next .block (inPhase .hpass readyE8)).agenda = .block :: [] ∧
    (next .wait (inPhase .hpass readyE8)).agenda = .wait :: [] := by decide

theorem witness_FetchWordRunsNext :
    decodeTableWord 32 0x00000101 = some (.extract 1) ∧ decodeTableWord 32 0x00000002 = some .replace := by decide

theorem witness_RejectionChangesStatusAlone :
    (next startTurn (ready 0x00000001 0 1)).agenda = .regWrite 0x00 4 1 :: [] ∧ bits 1 0 0 = 1 ∧
    (next startTurn (ready 0x00000001 0 1)).busy = false ∧
    validate (next startTurn (ready 0x00000001 0 1)).regs = some .eRadius := by decide

theorem witness_ResetCommandIsRejected :
    (next startTurn State.reset).regs = State.reset.regs ∧ (next startTurn State.reset).busy = false ∧
    (next startTurn State.reset).agenda = .regWrite 0x00 4 1 :: [] := by decide

/-- The second clause's hypothesis holds for an accepted command. -/
theorem witness_CommandDecodingIsTotal : validate readyE8.regs = none ∧ validate readyR32.regs = none := by decide

theorem witness_NonResidentLaunchRefused :
    ({ readyE8 with resident := [] } : State).busy = false ∧
    validateOp (.extract 1) ({ readyE8 with resident := [] } : State).regs = none ∧
    commandResident (.extract 1) { readyE8 with resident := [] } = false := by decide

theorem witness_ExtractStartBecomesBusy :
    readyE8.busy = false ∧ validateOp (.extract 1) readyE8.regs = none ∧
    commandResident (.extract 1) readyE8 = true := by decide

theorem witness_ExtractHorizontalStepInteger :
    (inPhase .hpass readyE8).busy = true ∧ validateOp (.extract 1) (inPhase .hpass readyE8).regs = none ∧
    (inPhase .hpass readyE8).phase = .hpass ∧
    nextCoord (inPhase .hpass readyE8).regs.srcPlane.count (inPhase .hpass readyE8) = some 0 ∧
    (inPhase .hpass readyE8).regs.fmt ≠ .f32 := by decide

theorem witness_ExtractHorizontalStepFloat :
    (inPhase .hpass readyE32).busy = true ∧ validateOp (.extract 1) (inPhase .hpass readyE32).regs = none ∧
    (inPhase .hpass readyE32).phase = .hpass ∧
    nextCoord (inPhase .hpass readyE32).regs.srcPlane.count (inPhase .hpass readyE32) = some 0 ∧
    (inPhase .hpass readyE32).regs.fmt = .f32 := by decide

theorem witness_ExtractTurnsToVertical :
    (allDone (inPhase .hpass readyE8)).busy = true ∧
    validateOp (.extract 1) (allDone (inPhase .hpass readyE8)).regs = none ∧
    (allDone (inPhase .hpass readyE8)).phase = .hpass ∧
    (∀ k < (allDone (inPhase .hpass readyE8)).regs.srcPlane.count,
      k ∈ (allDone (inPhase .hpass readyE8)).doneSet) := by decide

theorem witness_ExtractVerticalStepInteger :
    (inPhase .vpass readyE8).busy = true ∧ validateOp (.extract 1) (inPhase .vpass readyE8).regs = none ∧
    (inPhase .vpass readyE8).phase = .vpass ∧
    nextCoord (inPhase .vpass readyE8).regs.srcPlane.count (inPhase .vpass readyE8) = some 0 ∧
    (inPhase .vpass readyE8).regs.fmt ≠ .f32 := by decide

theorem witness_ExtractVerticalStepFloat :
    (inPhase .vpass readyE32).busy = true ∧ validateOp (.extract 1) (inPhase .vpass readyE32).regs = none ∧
    (inPhase .vpass readyE32).phase = .vpass ∧
    nextCoord (inPhase .vpass readyE32).regs.srcPlane.count (inPhase .vpass readyE32) = some 0 ∧
    (inPhase .vpass readyE32).regs.fmt = .f32 := by decide

theorem witness_ExtractCompletes :
    (allDone (inPhase .vpass readyE8)).busy = true ∧
    validateOp (.extract 1) (allDone (inPhase .vpass readyE8)).regs = none ∧
    (allDone (inPhase .vpass readyE8)).phase = .vpass ∧
    (∀ k < (allDone (inPhase .vpass readyE8)).regs.srcPlane.count,
      k ∈ (allDone (inPhase .vpass readyE8)).doneSet) := by decide

/-- One state for each clause: storing, launching, writing IB. -/
theorem witness_ExtractFrame :
    readyE8.mem.wf = true ∧
    ((goesOn (exec (.extract 1) (inPhase .vpass
      { readyE8 with ib := (List.range 9).map fun k => (k, Datum.int 0) }))).isSome = true ∧
      nextCoord (inPhase .vpass readyE8).regs.srcPlane.count (inPhase .vpass readyE8) = some 0) ∧
    ((goesOn (exec (.extract 1) readyE8)).isSome = true ∧ readyE8.busy = false) ∧
    ((goesOn (exec (.extract 1) (inPhase .hpass readyE8))).isSome = true ∧
      nextCoord (inPhase .hpass readyE8).regs.srcPlane.count (inPhase .hpass readyE8) = some 0) := by decide

theorem witness_ExtractWholeCommand :
    readyE8.Inv ∧ readyE8.busy = false ∧ decode readyE8.regs.cmd = .instr (.extract 1) ∧
    validateOp (.extract 1) readyE8.regs = none ∧ commandResident (.extract 1) readyE8 = true :=
  ⟨ready_inv _ _ _, by decide, by decide, by decide, by decide⟩

theorem witness_ExtractOfConstantIsNeutral :
    readyE8.Inv ∧ readyE8.busy = false ∧ decode readyE8.regs.cmd = .instr (.extract 1) ∧
    validateOp (.extract 1) readyE8.regs = none ∧ commandResident (.extract 1) readyE8 = true ∧
    readyE8.regs.fmt ≠ .f32 ∧
    (∀ x y, x < readyE8.regs.srcPlane.width → y < readyE8.regs.srcPlane.height →
      loadInt readyE8.mem readyE8.regs.srcPlane x y = 0) :=
  ⟨ready_inv _ _ _, by decide, by decide, by decide, by decide, by decide, fun _ _ _ _ => rfl⟩

/-- Both instructions, at the largest number of steps the statement takes in. -/
theorem witness_AbandonedCommandKeepsOldOrNew :
    (readyE8.Inv ∧ readyE8.busy = false ∧ decode readyE8.regs.cmd = .instr (.extract 1) ∧
      validateOp (.extract 1) readyE8.regs = none ∧ commandResident (.extract 1) readyE8 = true ∧
      20 < commandSteps (.extract 1) readyE8) ∧
    (readyR8.Inv ∧ readyR8.busy = false ∧ decode readyR8.regs.cmd = .instr .replace ∧
      validateOp .replace readyR8.regs = none ∧ commandResident .replace readyR8 = true ∧
      10 < commandSteps .replace readyR8) :=
  ⟨⟨ready_inv _ _ _, by decide, by decide, by decide, by decide, by decide⟩,
    ⟨ready_inv _ _ _, by decide, by decide, by decide, by decide, by decide⟩⟩

theorem witness_ReplaceStartBecomesBusy :
    readyR8.busy = false ∧ validateOp .replace readyR8.regs = none ∧ commandResident .replace readyR8 = true := by
  decide

theorem witness_ReplaceStepInteger :
    (inPhase .rpass readyR8).busy = true ∧ validateOp .replace (inPhase .rpass readyR8).regs = none ∧
    (inPhase .rpass readyR8).phase = .rpass ∧
    nextCoord (inPhase .rpass readyR8).regs.srcPlane.count (inPhase .rpass readyR8) = some 0 ∧
    (inPhase .rpass readyR8).regs.fmt ≠ .f32 := by decide

theorem witness_ReplaceStepFloat :
    (inPhase .rpass readyR32).busy = true ∧ validateOp .replace (inPhase .rpass readyR32).regs = none ∧
    (inPhase .rpass readyR32).phase = .rpass ∧
    nextCoord (inPhase .rpass readyR32).regs.srcPlane.count (inPhase .rpass readyR32) = some 0 ∧
    (inPhase .rpass readyR32).regs.fmt = .f32 := by decide

theorem witness_ReplaceCompletes :
    (allDone (inPhase .rpass readyR8)).busy = true ∧
    validateOp .replace (allDone (inPhase .rpass readyR8)).regs = none ∧
    (allDone (inPhase .rpass readyR8)).phase = .rpass ∧
    (∀ k < (allDone (inPhase .rpass readyR8)).regs.srcPlane.count,
      k ∈ (allDone (inPhase .rpass readyR8)).doneSet) := by decide

/-- One state for each clause: storing, and launching. -/
theorem witness_ReplaceFrame :
    readyR8.mem.wf = true ∧
    ((goesOn (exec .replace (inPhase .rpass readyR8))).isSome = true ∧
      nextCoord (inPhase .rpass readyR8).regs.srcPlane.count (inPhase .rpass readyR8) = some 0) ∧
    ((goesOn (exec .replace readyR8)).isSome = true ∧ readyR8.busy = false) := by decide

theorem witness_ReplaceWholeCommand :
    readyR8.Inv ∧ readyR8.busy = false ∧ decode readyR8.regs.cmd = .instr .replace ∧
    validateOp .replace readyR8.regs = none ∧ commandResident .replace readyR8 = true :=
  ⟨ready_inv _ _ _, by decide, by decide, by decide, by decide⟩

/-- A blank base plane and a detail plane of 128: the base is `S - D + 128` for the original `S = 0`. -/
def readyInverse : State :=
  { readyR8 with mem := (List.range 9).map fun k => (0x1800 + k, (128 : Byte)) }

theorem readyInverse_inv : readyInverse.Inv where
  memWf := by decide
  statusLegal := (ready_inv 0x00000002 0 1).statusLegal
  phaseNone := (ready_inv 0x00000002 0 1).phaseNone
  running := fun h => by
    exact absurd h (by decide)
  idleDone := fun _ => rfl
  noIb := fun _ _ => rfl
  doneRising := rfl
  doneBound := (ready_inv 0x00000002 0 1).doneBound
  ibRising := rfl
  ibBound := (ready_inv 0x00000002 0 1).ibBound

theorem witness_ReplaceInvertsDetail :
    readyInverse.Inv ∧ readyInverse.busy = false ∧ decode readyInverse.regs.cmd = .instr .replace ∧
    validateOp .replace readyInverse.regs = none ∧ commandResident .replace readyInverse = true ∧
    readyInverse.regs.fmt ≠ .f32 ∧
    (∀ x < readyInverse.regs.srcPlane.width, ∀ y < readyInverse.regs.srcPlane.height,
      0 ≤ (0 : Int) ∧ (0 : Int) ≤ readyInverse.regs.fmt.max ∧
      loadInt readyInverse.mem readyInverse.regs.srcPlane x y =
        0 - loadInt readyInverse.mem readyInverse.regs.detailPlane x y + readyInverse.regs.fmt.neutral) :=
  ⟨readyInverse_inv, by decide, by decide, by decide, by decide, by decide, by decide⟩

theorem witness_StepKeepsInvariant :
    (inPhase .hpass readyE8).Inv ∧ (goesOn (step (inPhase .hpass readyE8))).isSome = true :=
  ⟨hpass_inv, by decide⟩

theorem witness_StepKeepsIbSums :
    (inPhase .hpass readyE8).Inv ∧ (inPhase .hpass readyE8).IbHolds ∧
    (goesOn (step (inPhase .hpass readyE8))).isSome = true :=
  ⟨hpass_inv, hpass_ib, by decide⟩

theorem witness_NoStepFaults : (inPhase .hpass readyE8).Inv ∧ readyE8.Inv := ⟨hpass_inv, ready_inv _ _ _⟩

theorem witness_BusyBlockReachesDone :
    (inPhase .hpass readyE8).Inv ∧ (inPhase .hpass readyE8).busy = true ∧ (inPhase .hpass readyE8).agenda = [] :=
  ⟨hpass_inv, by decide, rfl⟩

/-- Both instructions. -/
theorem witness_CoordinateOrderIsUnobservable :
    (readyE8.Inv ∧ readyE8.busy = false ∧ decode readyE8.regs.cmd = .instr (.extract 1) ∧
      validateOp (.extract 1) readyE8.regs = none ∧ commandResident (.extract 1) readyE8 = true ∧
      readyE8.regs.fmt ≠ .f32) ∧
    (readyR8.Inv ∧ readyR8.busy = false ∧ decode readyR8.regs.cmd = .instr .replace ∧
      validateOp .replace readyR8.regs = none ∧ commandResident .replace readyR8 = true ∧
      readyR8.regs.fmt ≠ .f32) :=
  ⟨⟨ready_inv _ _ _, by decide, by decide, by decide, by decide, by decide⟩,
    ⟨ready_inv _ _ _, by decide, by decide, by decide, by decide, by decide⟩⟩

/-- The second state has another source address. -/
def readyElsewhere : State := { readyE8 with regs := readyE8.regs.set .p0Addr 0x5000 }

theorem readyElsewhere_inv : readyElsewhere.Inv where
  memWf := rfl
  statusLegal := (ready_inv 0x00000101 0 1).statusLegal
  phaseNone := (ready_inv 0x00000101 0 1).phaseNone
  running := fun h => by
    exact absurd h (by decide)
  idleDone := fun _ => rfl
  noIb := fun _ _ => rfl
  doneRising := rfl
  doneBound := fun k hk => by
    have hk' : k ∈ ([] : List Nat) := hk
    cases hk'
  ibRising := rfl
  ibBound := fun e he => by
    have he' : e ∈ ([] : List (Nat × Datum)) := he
    cases he'

theorem witness_OutputDependsOnSamplesOnly :
    readyE8.Inv ∧ readyElsewhere.Inv ∧ readyE8.busy = false ∧ readyElsewhere.busy = false ∧
    decode readyE8.regs.cmd = .instr (.extract 1) ∧ decode readyElsewhere.regs.cmd = .instr (.extract 1) ∧
    validateOp (.extract 1) readyE8.regs = none ∧ validateOp (.extract 1) readyElsewhere.regs = none ∧
    commandResident (.extract 1) readyE8 = true ∧ commandResident (.extract 1) readyElsewhere = true ∧
    readyE8.regs.fmt ≠ .f32 ∧ readyElsewhere.regs.p0.dim = readyE8.regs.p0.dim ∧
    readyElsewhere.regs.p0.fmt = readyE8.regs.p0.fmt ∧
    (∀ x y, x < readyE8.regs.srcPlane.width → y < readyE8.regs.srcPlane.height →
      loadInt readyElsewhere.mem readyElsewhere.regs.srcPlane x y = loadInt readyE8.mem readyE8.regs.srcPlane x y) :=
  ⟨ready_inv _ _ _, readyElsewhere_inv, by decide, by decide, by decide, by decide, by decide, by decide, by decide,
    by decide, by decide, by decide, by decide, fun _ _ _ _ => rfl⟩

/-- A poll of a block that is DONE. -/
theorem witness_StatusPersists :
    ({ next .wait readyE8 with status := 2 } : State).runState = .done ∧
    (goesOn (step { next .wait readyE8 with status := 2 })).isSome = true ∧
    ({ next .wait readyE8 with status := 2 } : State).agenda.head? = some .wait := by decide

theorem witness_HostWriteStoresRegister :
    (next (wr .dstStride 7) readyE8).busy = false ∧
    (next (wr .dstStride 7) readyE8).agenda = .regWrite RegName.dstStride.offset 4 7 :: [] := by decide

/-- The first and the last offset of the block. -/
theorem witness_BusyBlockIgnoresWrites :
    (next (.regWrite 0x00 4 1) (inPhase .hpass readyE8)).busy = true ∧ 0x00 % 4 = 0 ∧ 0x00 < 0x40 ∧
    0x3C % 4 = 0 ∧ 0x3C < 0x40 ∧
    (next (.regWrite 0x00 4 1) (inPhase .hpass readyE8)).agenda = .regWrite 0x00 4 1 :: [] := by decide

/-- A write to CTRL with bit 0 clear, and one to the last reserved offset. -/
theorem witness_WritesWithoutEffect :
    bits 2 0 0 = 0 ∧ (next (.regWrite 0x00 4 2) readyE8).agenda = .regWrite 0x00 4 2 :: [] ∧
    (next (.regWrite 0x3C 4 9) readyE8).agenda = .regWrite 0x3C 4 9 :: [] := by decide

/-- One state for each clause. -/
theorem witness_HostReadAnswers :
    (next (.regRead 0x3C 4) readyE8).agenda = .regRead 0x3C 4 :: [] ∧
    (next (.regRead 0x04 4) readyE8).agenda = .regRead 0x04 4 :: [] ∧
    (next (.regRead 0x08 4) readyE8).agenda = .regRead RegName.cmd.offset 4 :: [] := by decide

/-- A byte access, a misaligned one, the first offset past the block, for a write and for a read. -/
theorem witness_OddRegisterAccessRefused :
    (1 ≠ 4 ∨ 0x08 % 4 ≠ 0 ∨ 0x40 ≤ 0x08) ∧ (4 ≠ 4 ∨ 0x0A % 4 ≠ 0 ∨ 0x40 ≤ 0x0A) ∧
    (4 ≠ 4 ∨ 0x40 % 4 ≠ 0 ∨ 0x40 ≤ 0x40) ∧
    (next (.regWrite 0x40 4 0) readyE8).agenda = .regWrite 0x40 4 0 :: [] ∧
    (next (.regRead 0x40 4) readyE8).agenda = .regRead 0x40 4 :: [] := by decide

/-- The first byte of the source, and the last byte of the output. -/
theorem witness_HostContractIsKept :
    (inPhase .hpass readyE8).busy = true ∧ decode (inPhase .hpass readyE8).regs.cmd = .instr (.extract 1) ∧
    isResident (inPhase .hpass readyE8).resident (0x1000 : Word).toNat = true ∧
    isResident (inPhase .hpass readyE8).resident (0x2008 : Word).toNat = true ∧
    ((usedPlanes (inPhase .hpass readyE8).regs (.extract 1)).any fun p => p.inFoot (0x1000 : Word).toNat) = true ∧
    (inPhase .hpass readyE8).regs.dstPlane.inFoot (0x2008 : Word).toNat = true ∧
    (next (.store 0x1000 1) (inPhase .hpass readyE8)).agenda = .store 0x1000 1 :: [] ∧
    (next (.load 0x2008) (inPhase .hpass readyE8)).agenda = .load 0x2008 :: [] := by decide

/-- Each clause on a BUSY block: a write to the first byte past DST, which no plane of the command covers, and a read of
the last byte of the source; and a write to the last address of memory on a block that is not BUSY. -/
theorem witness_HostMemoryAccess :
    ((inPhase .hpass readyE8).mem.wf = true ∧
      isResident (inPhase .hpass readyE8).resident (0x2009 : Word).toNat = true ∧
      (inPhase .hpass readyE8).regs.dstPlane.inFoot (0x2009 : Word).toNat = false ∧
      (∀ p ∈ inputPlanes (inPhase .hpass readyE8).regs (.extract 1), p.inFoot (0x2009 : Word).toNat = false) ∧
      (next (.store 0x2009 1) (inPhase .hpass readyE8)).agenda = .store 0x2009 1 :: []) ∧
    ((inPhase .hpass readyE8).regs.dstPlane.inFoot (0x1008 : Word).toNat = false ∧
      (inPhase .hpass readyE8).regs.srcPlane.inFoot (0x1008 : Word).toNat = true ∧
      (next (.load 0x1008) (inPhase .hpass readyE8)).agenda = .load 0x1008 :: []) ∧
    (readyE8.busy = false ∧ isResident readyE8.resident (0xFFFFFFFF : Word).toNat = true ∧
      (next (.store 0xFFFFFFFF 1) readyE8).agenda = .store 0xFFFFFFFF 1 :: []) := by decide

/-- One state for each clause, at the largest width and height. -/
theorem witness_PseudoInstructionsExpand :
    readyE8.busy = false ∧ 65535 < 2 ^ 16 ∧ (Instr.extract (-1)).wf = true ∧
    ({ readyE8 with agenda := plane0 1 2 65535 65535 .f32 ++ [.block] } : State).agenda =
      plane0 1 2 65535 65535 .f32 ++ [.block] ∧
    ({ readyE8 with agenda := plane1 1 2 65535 65535 .f32 ++ [] } : State).agenda =
      plane1 1 2 65535 65535 .f32 ++ [] ∧
    ({ readyE8 with agenda := dest 1 2 ++ [] } : State).agenda = dest 1 2 ++ [] ∧
    ({ readyE8 with agenda := launchTurns (.extract (-1)) ++ [] } : State).agenda =
      launchTurns (.extract (-1)) ++ [] ∧
    (next .wait readyE8).agenda = .wait :: [] := by decide

/-- One for each clause: the smallest axis of radius 1, and the outermost tap of its last centre. -/
theorem witness_MirrorRangeIsExact :
    1 ≤ 3 ∧ 2 * 1 + 1 ≤ 3 ∧ (1 : Int) ≤ 1 ∧ tooSmall (.extract 1) 3 = false ∧
    validateOp (.extract 1) readyE8.regs = none ∧ 3 = dimWidth readyE8.regs.p0.dim ∧
    3 = dimHeight readyE8.regs.p0.dim ∧ 2 < 3 ∧ (-2 : Int) ≤ 2 := by decide

/-- The smallest plane of step 1, at its last coordinate. -/
theorem witness_IntegerSumBounds : 2 * 1 + 1 ≤ 3 ∧
    (∀ c r : Nat, c < 3 → r < 3 → 0 ≤ (fun _ _ => (255 : Int)) c r ∧ (fun _ _ => (255 : Int)) c r ≤ 255) ∧
    2 < 3 := ⟨by decide, fun _ _ _ _ => ⟨by norm_num, le_rfl⟩, by decide⟩

theorem witness_RhaRoundsHalfAway : 0 < 256 := by decide

theorem witness_RoundingFormsAgree : 0 < 256 ∧ (0 : Int) ≤ 255 := by decide

/-- 43_format_converter.md R191: the tie `2^24 + 1` goes to the even significand of binary32, and the tie between its
largest number and `2^128` to an infinity. -/
theorem test_rounding_ties :
    roundFin .b32 false 16777217 0 = .fin false 8388608 1 ∧ roundFin .b32 true (2 ^ 25 - 1) 103 = .inf true := by
  decide +kernel

/-- 3 and 4: sum, difference, product and quotient are not zero, and all are numbers of binary32. A zero sum, a zero
difference and a zero divisor occur too. -/
theorem witness_OperationsRoundExactResult :
    (Fp.fin false 3 0).value = some 3 ∧ (Fp.fin false 4 0).value = some 4 ∧ (Fp.fin true 3 0).value = some (-3) ∧
    (Fp.fin true 0 0).value = some 0 ∧
    (3 : ℚ) + 4 ≠ 0 ∧ (3 : ℚ) - 4 ≠ 0 ∧ (4 : ℚ) ≠ 0 ∧ (3 : ℚ) + -3 = 0 ∧ (3 : ℚ) - 3 = 0 ∧
    AccFmt.b32.represents (3 + 4) ∧ AccFmt.b32.represents (3 - 4) ∧ AccFmt.b32.represents (3 * 4) ∧
    AccFmt.b32.represents (3 / 4) := by
  refine ⟨by simp [Fp.value], by simp [Fp.value], by simp [Fp.value], by simp [Fp.value], by norm_num, by norm_num,
    by norm_num, by norm_num, by norm_num, ⟨false, 7, 0, ⟨by decide, by decide, by decide⟩, by norm_num⟩,
    ⟨true, 1, 0, ⟨by decide, by decide, by decide⟩, by norm_num⟩, ⟨false, 12, 0, ⟨by decide, by decide, by decide⟩, by norm_num⟩,
    ⟨false, 3, -2, ⟨by decide, by decide, by decide⟩, by norm_num⟩⟩

/-- The largest finite number, the smallest subnormal, and an infinity. -/
theorem witness_LoadStoreKeepsPattern :
    fpOfBits 0x7F7FFFFF ≠ .nan ∧ fpOfBits 0x00000001 ≠ .nan ∧ fpOfBits 0xFF800000 ≠ .nan := by decide

theorem witness_StoredNanIsAnyNan :
    bits 0xFFC00001 30 23 = 255 ∧ bits 0xFFC00001 22 0 ≠ 0 ∧ fcvt .b32 (.inf true) ≠ .nan := by decide

/-- The largest sample, on the smallest plane of step 1, at its last coordinate. -/
theorem witness_FloatBlurOfIntegersIsExact : 2 * 1 + 1 ≤ 3 ∧
    (∀ c r : Nat, c < 3 → r < 3 → (fun _ _ => 65535) c r ≤ 65535) ∧ 2 < 3 :=
  ⟨by decide, fun _ _ _ _ => le_rfl, by decide⟩

/-- The largest finite binary32 value, on the smallest plane of step 1, at its last coordinate. -/
theorem witness_ConstantFloatPlaneIsNeutralInB64 : bits 0x7F7FFFFF 30 23 ≠ 255 ∧ 2 * 1 + 1 ≤ 3 ∧
    (∀ c r : Nat, c < 3 → r < 3 →
      (fun _ _ => fcvt .b64 (fpOfBits 0x7F7FFFFF)) c r = fcvt .b64 (fpOfBits 0x7F7FFFFF)) ∧ 2 < 3 :=
  ⟨by decide, by decide, fun _ _ _ _ => rfl, by decide⟩

end Sys2Proof.Tests
end

/-! # Proofs: the invariant of the machine (10_state.md R27, R28, R35)

A state is either quiet (not BUSY, no DONE_SET, no IB) or runs a command. Each kind of turn leads from one of these to one
of these, and the proofs below say which. -/

namespace Sys2Proof.Machine

/-! ## What an instruction and a step are -/

@[simp] theorem exec_extract (radius : Int) (s : State) : exec (.extract radius) s = execExtract radius s := rfl

@[simp] theorem exec_replace (s : State) : exec .replace s = execReplace s := rfl

theorem step_of_idle_host {s : State} (h : s.agenda = []) : step s = blockTurn s := by
  simp [step, h]

theorem step_of_turn {s : State} {t : Turn} {rest : List Turn} (h : s.agenda = t :: rest) :
    step s = takeTurn t { s with agenda := rest } := by
  simp [step, h]

@[simp] theorem RegName.regTarget_offset (n : RegName) : regTarget n.offset = some (.storage n) := by
  cases n <;> rfl

/-- A write to a read-write register of a block that is not BUSY (10_state.md R38; 44_launch_and_status.md R210). -/
theorem hostWrite_storage {s : State} (hb : s.busy = false) (n : RegName) (v : Word) :
    hostWrite n.offset 4 v s = .next { s with regs := s.regs.set n v } := by
  simp [hostWrite, accessTarget, hb]

/-- A read of a read-write register answers its value (44_launch_and_status.md R211). -/
theorem hostRead_storage (s : State) (n : RegName) :
    hostRead n.offset 4 s = .next (s.answer (.register (s.regs.get n))) := by
  simp [hostRead, accessTarget, State.readReg]

/-- The canonical START is START (30_encoding.md R89). -/
theorem takeTurn_startTurn (s : State) : takeTurn startTurn s = start s := rfl

/-- START on a block that is not BUSY runs the instruction that CMD holds (44_launch_and_status.md R213). -/
theorem start_of_decode {s : State} {i : Instr} (hb : s.busy = false) (hi : decode s.regs.cmd = .instr i) :
    start s = exec i s := by
  simp [start, fetch, hb, hi]

theorem decodeTableWord_eq_some {nbits w : Nat} {i : Instr} :
    decodeTableWord nbits w = some i ↔ decode (BitVec.ofNat 32 (w % 2 ^ nbits)) = .instr i := by
  unfold decodeTableWord
  cases decode (BitVec.ofNat 32 (w % 2 ^ nbits)) <;> simp

/-- Placing a command word leaves the block not BUSY, whatever it did before. -/
theorem State.withFetchWord_busy (s : State) (nbits w : Nat) : (s.withFetchWord nbits w).busy = false := by
  cases hb : s.busy with
  | true =>
    have hidle : (s.withFetchWord nbits w).runState = .idle :=
      runState_statusWord _ .idle (by simp [State.withFetchWord, hb])
    simp [State.busy, hidle]
  | false => rw [State.busy_congr (s := s) (by simp [State.withFetchWord, hb]), hb]

/-! ## Quiet states -/

/-- A block that is not BUSY and holds nothing of a command meets the invariant. -/
theorem State.inv_of_quiet {s : State} (hm : s.mem.wf = true) (hl : legalStatus s.status = true)
    (hb : s.busy = false) (hp : s.phase = .none) (hd : s.doneSet = []) (hi : s.ib = []) : s.Inv where
  memWf := hm
  statusLegal := hl
  phaseNone := by simp [hp, hb]
  running := by simp [hb]
  idleDone := fun _ => hd
  noIb := fun _ _ => hi
  doneRising := by simp [hd, risingFrom]
  doneBound := by simp [hd]
  ibRising := by simp [hi, risingFrom]
  ibBound := by simp [hi]

/-- What the invariant says of a block that is not BUSY. -/
theorem State.Inv.quiet {s : State} (h : s.Inv) (hb : s.busy = false) :
    s.phase = .none ∧ s.doneSet = [] ∧ s.ib = [] := by
  have hp : s.phase = .none := h.phaseNone.mpr hb
  exact ⟨hp, h.idleDone hb, h.noIb (by simp [hp]) (by simp [hp])⟩

theorem legalStatus_busy : legalStatus (statusWord .busy 0) = true := by decide

theorem legalStatus_done : legalStatus (statusWord .done 0) = true := by decide

theorem legalStatus_rejected (c : RejectCode) : legalStatus (statusWord .rejected c.code) = true := by
  cases c <;> decide

theorem State.reset_inv : State.reset.Inv :=
  State.inv_of_quiet rfl (by decide) (by decide) rfl rfl rfl

/-- Where no pass over IB is in progress, nothing is asked of it. -/
theorem State.ibHolds_of_no_pass {s : State} (h1 : s.phase ≠ .hpass) (h2 : s.phase ≠ .vpass) : s.IbHolds :=
  fun _ _ => ⟨fun h => absurd h h1, fun h => absurd h h2⟩

theorem State.Inv.reject {s : State} (h : s.Inv) (hb : s.busy = false) (c : RejectCode) : (s.reject c).Inv := by
  obtain ⟨hp, hd, hi⟩ := h.quiet hb
  exact State.inv_of_quiet h.memWf (legalStatus_rejected c) (s.reject_busy c) hp hd hi

theorem State.Inv.setRegs {s : State} (h : s.Inv) (hb : s.busy = false) (r : Regs) : { s with regs := r }.Inv := by
  obtain ⟨hp, hd, hi⟩ := h.quiet hb
  exact State.inv_of_quiet h.memWf h.statusLegal hb hp hd hi

theorem State.Inv.applyReset {s : State} (h : s.Inv) : s.applyReset.Inv :=
  State.inv_of_quiet h.memWf State.reset_inv.statusLegal s.applyReset_busy rfl rfl rfl

/-- Completion leaves a quiet block, once IB holds nothing (44_launch_and_status.md R215). -/
theorem State.complete_inv {s : State} (hm : s.mem.wf = true) (hi : s.ib = []) : s.complete.Inv :=
  State.inv_of_quiet hm legalStatus_done s.complete_busy rfl rfl hi

/-! ## Running states -/

theorem phaseFits_extract {radius : Int} {p : Phase} :
    phaseFits (.extract radius) p = true ↔ p = .hpass ∨ p = .vpass := by
  cases p <;> simp [phaseFits]

theorem phaseFits_replace {p : Phase} : phaseFits .replace p = true ↔ p = .rpass := by
  cases p <;> simp [phaseFits]

theorem phaseFits_ne_none {i : Instr} {p : Phase} (h : phaseFits i p = true) : p ≠ .none := by
  rintro rfl
  cases i <;> simp [phaseFits] at h

theorem commandResident_congr {i : Instr} {s t : State} (hr : t.regs = s.regs) (hs : t.resident = s.resident) :
    commandResident i t = commandResident i s := by
  simp only [commandResident, hr, hs]

/-- A running command is in one of its own phases (44_launch_and_status.md R221). -/
theorem State.Running.fits {s : State} {i : Instr} (h : s.Running i) : phaseFits i s.phase = true := by
  obtain ⟨-, -, -, hp⟩ := h
  exact hp

/-- A command goes on running as long as the registers, frozen while BUSY (44_launch_and_status.md R212), and RESIDENT
stay, and PHASE is one of its own. -/
theorem State.Running.advance {s t : State} {i : Instr} (h : s.Running i) (hr : t.regs = s.regs)
    (hs : t.resident = s.resident) (hp : phaseFits i t.phase = true) : t.Running i := by
  obtain ⟨hd, hv, hres, -⟩ := h
  exact ⟨hr ▸ hd, hr ▸ hv, commandResident_congr hr hs ▸ hres, hp⟩

/-- A BUSY block of the invariant runs the instruction that CMD holds. -/
theorem State.Inv.running_of_decode {s : State} {i : Instr} (h : s.Inv) (hb : s.busy = true)
    (hi : decode s.regs.cmd = .instr i) : s.Running i := by
  obtain ⟨j, hj⟩ := h.running hb
  have ⟨hdj, _⟩ := hj
  obtain rfl : j = i := Decoded.instr.inj (hdj.symm.trans hi)
  exact hj

/-- A BUSY block that runs a command meets the invariant, if DONE_SET and IB are rising and inside the plane. -/
theorem State.inv_of_running {s : State} {i : Instr} (hm : s.mem.wf = true) (hl : legalStatus s.status = true)
    (hb : s.busy = true) (hr : s.Running i) (hn : s.phase ≠ .hpass → s.phase ≠ .vpass → s.ib = [])
    (hdr : risingFrom 0 s.doneSet = true) (hdb : ∀ k ∈ s.doneSet, k < s.regs.srcPlane.count)
    (hir : risingFrom 0 (s.ib.map Prod.fst) = true) (hib : ∀ e ∈ s.ib, e.1 < s.regs.srcPlane.count) : s.Inv where
  memWf := hm
  statusLegal := hl
  phaseNone := by simp [phaseFits_ne_none hr.fits, hb]
  running := fun _ => ⟨i, hr⟩
  idleDone := by simp [hb]
  noIb := hn
  doneRising := hdr
  doneBound := hdb
  ibRising := hir
  ibBound := hib

/-- The invariant does not look at the schedule, the answers, the order of coordinates or the draws, and of memory it asks
only the canonical form. -/
theorem State.Inv.congr {s t : State} (h : s.Inv) (hst : t.status = s.status) (hr : t.regs = s.regs)
    (hp : t.phase = s.phase) (hd : t.doneSet = s.doneSet) (hi : t.ib = s.ib) (hs : t.resident = s.resident)
    (hm : t.mem.wf = true) : t.Inv := by
  have hbt : t.busy = s.busy := State.busy_congr hst
  cases hb : s.busy with
  | false =>
    obtain ⟨hp0, hd0, hi0⟩ := h.quiet hb
    exact State.inv_of_quiet hm (hst ▸ h.statusLegal) (hbt.trans hb) (hp.trans hp0) (hd.trans hd0) (hi.trans hi0)
  | true =>
    obtain ⟨i, hrun⟩ := h.running hb
    refine State.inv_of_running (i := i) hm (hst ▸ h.statusLegal) (hbt.trans hb)
      (hrun.advance hr hs (hp ▸ hrun.fits)) ?_ ?_ ?_ ?_ ?_
    · rw [hp, hi]
      exact h.noIb
    · exact hd ▸ h.doneRising
    · rw [hd, hr]
      exact h.doneBound
    · exact hi ▸ h.ibRising
    · rw [hi, hr]
      exact h.ibBound

theorem State.Inv.setAgenda {s : State} (h : s.Inv) (ts : List Turn) : { s with agenda := ts }.Inv :=
  h.congr rfl rfl rfl rfl rfl rfl h.memWf

theorem State.Inv.answer {s : State} (h : s.Inv) (a : Answer) : (s.answer a).Inv :=
  h.congr rfl rfl rfl rfl rfl rfl h.memWf

/-! ## The computation steps -/

/-- A launch enters the first phase of the command with nothing done (44_launch_and_status.md R213). -/
theorem State.Inv.enter {s : State} {i : Instr} {p : Phase} (h : s.Inv) (hb : s.busy = false)
    (hd : decode s.regs.cmd = .instr i) (hv : validateOp i s.regs = none) (hr : commandResident i s = true)
    (hp : phaseFits i p = true) : (s.enter p).Inv := by
  obtain ⟨-, -, hi⟩ := h.quiet hb
  refine State.inv_of_running (i := i) h.memWf legalStatus_busy (s.enter_busy p) ⟨hd, hv, hr, hp⟩
    (fun _ _ => hi) rfl (by simp) ?_ ?_ <;> simp [hi, risingFrom]

/-- DONE_SET stays inside the plane when a coordinate of the plane enters it. -/
theorem insertCoord_bound {n k : Nat} {l : List Nat} (hk : k < n) (h : ∀ j ∈ l, j < n) :
    ∀ j ∈ insertCoord k l, j < n := by
  intro j hj
  rcases mem_insertCoord.mp hj with rfl | hj
  · exact hk
  · exact h j hj

/-- A bound on the elements of IB is a bound on its keys. -/
theorem forall_ib_iff_forall_keys {n : Nat} {ib : List (Nat × Datum)} :
    (∀ e ∈ ib, e.1 < n) ↔ ∀ k ∈ ib.map Prod.fst, k < n := by
  simp only [List.forall_mem_map]

/-- A step of HPASS at a coordinate keeps the invariant (40_blur.md R118). -/
theorem State.Inv.writeIb_processed {s : State} {k : Nat} {radius : Int} (h : s.Inv) (hb : s.busy = true)
    (hr : s.Running (.extract radius)) (hp : s.phase = .hpass) (hk : k < s.regs.srcPlane.count) (d : Datum) :
    ((s.writeIb k d).processed k).Inv := by
  refine State.inv_of_running (i := .extract radius) h.memWf h.statusLegal hb (hr.advance rfl rfl hr.fits)
    (fun hn => absurd hp hn) (risingFrom_insertCoord (Nat.zero_le k) h.doneRising)
    (insertCoord_bound hk h.doneBound) ?_ (forall_ib_iff_forall_keys.mpr ?_)
  · simpa [keys_ibWrite] using risingFrom_insertCoord (Nat.zero_le k) h.ibRising
  · simpa only [State.processed_ib, State.processed_regs, State.writeIb_ib, State.writeIb_regs, keys_ibWrite] using
      insertCoord_bound hk (forall_ib_iff_forall_keys.mp h.ibBound)

/-- The turn from HPASS to VPASS keeps the invariant. -/
theorem State.Inv.turn_to_vpass {s : State} {radius : Int} (h : s.Inv) (hb : s.busy = true)
    (hr : s.Running (.extract radius)) : { s with phase := .vpass, doneSet := [] }.Inv :=
  State.inv_of_running (i := .extract radius) h.memWf h.statusLegal hb
    (hr.advance rfl rfl (phaseFits_extract.mpr (.inr rfl))) (fun _ hn => absurd rfl hn) rfl (by simp)
    h.ibRising h.ibBound

/-- The sample of DST at a coordinate of an accepted command lies in the address space (60_exceptions.md R235). -/
theorem dstPlane_sample_le {i : Instr} {r : Regs} {x y : Nat} (hv : validateOp i r = none)
    (hx : x < r.srcPlane.width) (hy : y < r.srcPlane.height) :
    r.dstPlane.sampleAddr x y + r.dstPlane.fmt.size ≤ Config.memLimit := by
  obtain ⟨-, -, -, hend⟩ := accepted_geometry hv (dst_mem_usedPlanes i r)
  exact (sample_in_foot (p := r.dstPlane) hx hy).2.trans hend

/-- Storing a sample of an accepted command keeps memory in canonical form. -/
theorem State.storeDst_wf {i : Instr} {s : State} {k : Nat} (hm : s.mem.wf = true)
    (hv : validateOp i s.regs = none) (hk : k < s.regs.srcPlane.count) (d : Datum) :
    (s.storeDst k d).mem.wf = true := by
  obtain ⟨v, -, hmem⟩ := s.storeDst_mem k d
  obtain ⟨hx, hy⟩ := coord_lt hk
  rw [hmem]
  exact storeRaw_wf hm (dstPlane_sample_le hv hx hy)

/-- A step of VPASS or RPASS at a coordinate keeps the invariant (41_extract.md R142, 42_replace.md R162). -/
theorem State.Inv.storeDst_processed {s : State} {i : Instr} {k : Nat} (h : s.Inv) (hb : s.busy = true)
    (hr : s.Running i) (hk : k < s.regs.srcPlane.count) (d : Datum) : ((s.storeDst k d).processed k).Inv := by
  have ⟨_, hv, _, _⟩ := hr
  refine State.inv_of_running (i := i) (State.storeDst_wf h.memWf hv hk d) ?_ ?_
    (hr.advance ?_ ?_ ?_) ?_ ?_ ?_ ?_ ?_
  · simpa using h.statusLegal
  · exact (State.busy_congr (by simp)).trans hb
  · simp
  · simp
  · simpa using hr.fits
  · simpa using h.noIb
  · simpa using risingFrom_insertCoord (Nat.zero_le k) h.doneRising
  · rw [State.processed_doneSet, State.storeDst_doneSet, State.processed_regs, State.storeDst_regs]
    exact insertCoord_bound hk h.doneBound
  · simpa using h.ibRising
  · simpa using h.ibBound

theorem execExtract_keeps_inv {radius : Int} {s t : State} (h : s.Inv)
    (hd : decode s.regs.cmd = .instr (.extract radius)) (he : execExtract radius s = .next t) : t.Inv := by
  rcases execExtract_cases he with ⟨hb, c, -, rfl⟩ | ⟨hb, hv, hres, rfl⟩ | ⟨hb, -, hp, rfl⟩ | ⟨hb, -, hp, rfl⟩
  · exact h.reject hb c
  · exact h.enter hb hd hv hres (phaseFits_extract.mpr (.inl rfl))
  · have hr := h.running_of_decode hb hd
    rcases hpassStep_cases (dilation radius) s with ⟨k, hk, e⟩ | ⟨-, e⟩ <;> rw [e]
    · exact h.writeIb_processed hb hr hp (nextCoord_some hk).1 _
    · exact h.turn_to_vpass hb hr
  · have hr := h.running_of_decode hb hd
    rcases vpassStep_cases (dilation radius) s with ⟨k, hk, e⟩ | ⟨-, e⟩ <;> rw [e]
    · exact h.storeDst_processed hb hr (nextCoord_some hk).1 _
    · exact State.complete_inv h.memWf rfl

theorem execReplace_keeps_inv {s t : State} (h : s.Inv) (hd : decode s.regs.cmd = .instr .replace)
    (he : execReplace s = .next t) : t.Inv := by
  rcases execReplace_cases he with ⟨hb, c, -, rfl⟩ | ⟨hb, hv, hres, rfl⟩ | ⟨hb, -, hp, rfl⟩
  · exact h.reject hb c
  · exact h.enter hb hd hv hres (phaseFits_replace.mpr rfl)
  · have hr := h.running_of_decode hb hd
    rcases rpassStep_cases s with ⟨k, hk, e⟩ | ⟨-, e⟩ <;> rw [e]
    · exact h.storeDst_processed hb hr (nextCoord_some hk).1 _
    · exact State.complete_inv h.memWf (h.noIb (by simp [hp]) (by simp [hp]))

/-- Running the instruction that CMD holds keeps the invariant. -/
theorem exec_keeps_inv {i : Instr} {s t : State} (h : s.Inv) (hd : decode s.regs.cmd = .instr i)
    (he : exec i s = .next t) : t.Inv := by
  cases i with
  | extract radius => exact execExtract_keeps_inv h hd (exec_extract radius s ▸ he)
  | replace => exact execReplace_keeps_inv h hd (exec_replace s ▸ he)

/-! ## The turns -/

theorem blockTurn_keeps_inv {s t : State} (h : s.Inv) (ht : blockTurn s = .next t) : t.Inv := by
  rcases blockTurn_cases ht with ⟨-, rfl⟩ | ⟨-, i, hd, he⟩
  · exact h
  · exact exec_keeps_inv h hd he

theorem start_keeps_inv {s t : State} (h : s.Inv) (ht : start s = .next t) : t.Inv := by
  rcases start_cases ht with ⟨-, rfl⟩ | ⟨hb, -, rfl⟩ | ⟨-, i, hd, he⟩
  · exact h
  · exact h.reject hb _
  · exact exec_keeps_inv h hd he

theorem hostWrite_keeps_inv {off size : Nat} {v : Word} {s t : State} (h : s.Inv)
    (ht : hostWrite off size v s = .next t) : t.Inv := by
  rcases hostWrite_cases ht with hs | rfl | ⟨hb, n, rfl⟩
  · exact start_keeps_inv h hs
  · exact h
  · exact h.setRegs hb _

theorem hostStore_keeps_inv {a : Word} {v : Byte} {s t : State} (h : s.Inv) (ht : hostStore a v s = .next t) :
    t.Inv := by
  obtain ⟨-, -, -, rfl⟩ := hostStore_cases ht
  exact h.congr rfl rfl rfl rfl rfl rfl (Memory.write_wf v a.isLt h.memWf)

theorem hostWait_keeps_inv {s t : State} (h : s.Inv) (ht : hostWait s = .next t) : t.Inv := by
  rcases hostWait_cases ht with ⟨-, hw⟩ | ⟨-, rfl⟩
  · exact blockTurn_keeps_inv (h.setAgenda _) hw
  · exact h.answer _

theorem takeTurn_keeps_inv {u : Turn} {s t : State} (h : s.Inv) (ht : takeTurn u s = .next t) : t.Inv := by
  cases u with
  | regWrite off size v => exact hostWrite_keeps_inv h ht
  | regRead off size =>
    obtain ⟨a, rfl⟩ := hostRead_cases ht
    exact h.answer a
  | load addr =>
    obtain ⟨a, rfl⟩ := hostLoad_cases ht
    exact h.answer a
  | store addr v => exact hostStore_keeps_inv h ht
  | block => exact blockTurn_keeps_inv h ht
  | wait => exact hostWait_keeps_inv h ht
  | reset =>
    cases ht
    exact h.applyReset

/-! ## The statements -/

/-- Settles O3: after reset the block is quiet, and no pass over IB is in progress. -/
theorem resetMeetsInvariant : Obligations.ResetMeetsInvariant :=
  ⟨State.reset_inv, State.ibHolds_of_no_pass (by decide) (by decide)⟩

/-- Settles O10: the entry placed is START of a block that is not BUSY. -/
theorem fetchWordRunsNext : Obligations.FetchWordRunsNext := by
  intro s nbits w i hi
  calc step (s.withFetchWord nbits w)
      = start { s.withFetchWord nbits w with agenda := s.agenda } :=
        (step_of_turn (t := startTurn) rfl).trans (takeTurn_startTurn _)
    _ = exec i { s.withFetchWord nbits w with agenda := s.agenda } :=
        start_of_decode (s.withFetchWord_busy nbits w) (decodeTableWord_eq_some.mp hi)

/-- Settles O41, by the rules of a register write and of a register read. -/
theorem hostWriteStoresRegister : Obligations.HostWriteStoresRegister := by
  intro s n v rest hb hs
  refine ⟨s.regs.set n v, ?_, Regs.get_set_same _ _ _, fun m hm => Regs.get_set_other _ _ _ _ hm, ?_⟩
  · rw [step_of_turn hs]
    exact hostWrite_storage (s := { s with agenda := rest }) hb n v
  · rw [hostRead_storage]
    simp [State.answer]

/-- Settles O34: where the schedule is empty the block has its turn, else the first entry has its own. -/
theorem stepKeepsInvariant : Obligations.StepKeepsInvariant := by
  intro s t h ht
  cases hs : s.agenda with
  | nil => exact blockTurn_keeps_inv h (step_of_idle_host hs ▸ ht)
  | cons u rest => exact takeTurn_keeps_inv (h.setAgenda rest) (step_of_turn hs ▸ ht)

end Sys2Proof.Machine

/-! # Proofs: what EXTRACT reads (10_state.md R36; 41_extract.md R148)

The values of both passes depend on the shape of the source plane and on its samples. The same lemma serves two states of
one run, whose memories differ in DST alone, and two commands whose planes lie elsewhere. -/

namespace Sys2Proof.Machine

/-- The two states hold the same source plane: shape, format and samples; on F32, where sums are rounded, the same
accumulator format too. -/
structure SameSource (s s' : State) : Prop where
  width : s'.regs.srcPlane.width = s.regs.srcPlane.width
  height : s'.regs.srcPlane.height = s.regs.srcPlane.height
  fmt : s'.regs.fmt = s.regs.fmt
  accFmt : s.regs.fmt = .f32 → s'.accFmt = s.accFmt
  samples : ∀ x y, x < s.regs.srcPlane.width → y < s.regs.srcPlane.height →
    rawSample s'.mem s'.regs.srcPlane x y = rawSample s.mem s.regs.srcPlane x y

namespace SameSource

variable {s s' : State}

/-- The source stays where registers, accumulator format and memory do. -/
theorem of_mem_eq (hr : s'.regs = s.regs) (ha : s'.accFmt = s.accFmt) (hm : s'.mem = s.mem) : SameSource s s' where
  width := by rw [hr]
  height := by rw [hr]
  fmt := by rw [hr]
  accFmt := fun _ => ha
  samples := fun _ _ _ _ => by rw [hr, hm]

theorem loadInt_eq (h : SameSource s s') {x y : Nat} (hx : x < s.regs.srcPlane.width)
    (hy : y < s.regs.srcPlane.height) :
    loadInt s'.mem s'.regs.srcPlane x y = loadInt s.mem s.regs.srcPlane x y :=
  congrArg Int.ofNat (h.samples x y hx hy)

theorem loadFp_eq (h : SameSource s s') {x y : Nat} (a : AccFmt) (hx : x < s.regs.srcPlane.width)
    (hy : y < s.regs.srcPlane.height) :
    loadFp a s'.mem s'.regs.srcPlane x y = loadFp a s.mem s.regs.srcPlane x y := by
  unfold loadFp
  rw [h.samples x y hx hy]

end SameSource

/-- A pass reads its samples at coordinates of the axis alone (40_blur.md R114). -/
theorem passInt_congr {f g : Nat → Int} {size : Nat} (step c : Nat) (hs : 0 < size) (h : ∀ i < size, f i = g i) :
    passInt f size step c = passInt g size step c := by
  have htap : ∀ k, f (tapCoord size step c k) = g (tapCoord size step c k) := fun k => h _ (tapCoord_lt step c k hs)
  simp only [passInt, htap]

theorem passFp_congr {f g : Nat → Fp} {size : Nat} (a : AccFmt) (step c : Nat) (hs : 0 < size)
    (h : ∀ i < size, f i = g i) : passFp a f size step c = passFp a g size step c := by
  have htap : ∀ k, f (tapCoord size step c k) = g (tapCoord size step c k) := fun k => h _ (tapCoord_lt step c k hs)
  simp only [passFp, htap]

/-- The horizontal sums are the same over the same source. -/
theorem SameSource.horizontalSum_eq {s s' : State} (h : SameSource s s') (d : Nat) {k : Nat}
    (hk : k < s.regs.srcPlane.count) : horizontalSum s' d k = horizontalSum s d k := by
  obtain ⟨hx, hy⟩ := coord_lt hk
  have hw : 0 < s.regs.srcPlane.width := by omega
  by_cases hf : s.regs.fmt = .f32
  · rw [horizontalSum_flt hf, horizontalSum_flt (h.fmt.trans hf), h.width, h.accFmt hf]
    exact congrArg Datum.flt (passFp_congr _ _ _ hw fun c hc => h.loadFp_eq _ hc hy)
  · rw [horizontalSum_int hf, horizontalSum_int (h.fmt ▸ hf), h.width]
    exact congrArg Datum.int (passInt_congr _ _ hw fun c hc => h.loadInt_eq hc hy)

/-- EXTRACT gives the same values over the same source. -/
theorem SameSource.extractValue_eq {s s' : State} (h : SameSource s s') (radius : Int) {k : Nat}
    (hk : k < s.regs.srcPlane.count) : extractValue s' radius k = extractValue s radius k := by
  obtain ⟨hx, hy⟩ := coord_lt hk
  have hw : 0 < s.regs.srcPlane.width := by omega
  have hh : 0 < s.regs.srcPlane.height := by omega
  by_cases hf : s.regs.fmt = .f32
  · rw [extractValue_flt hf, extractValue_flt (h.fmt.trans hf), h.width, h.height, h.accFmt hf,
      h.loadFp_eq _ hx hy]
    exact congrArg (Datum.flt ∘ detailFp _ _) (passFp_congr _ _ _ hh fun r hr =>
      passFp_congr _ _ _ hw fun c hc => h.loadFp_eq _ hc hr)
  · rw [extractValue_int hf, extractValue_int (h.fmt ▸ hf), h.width, h.height, h.fmt, h.loadInt_eq hx hy]
    exact congrArg (Datum.int ∘ detailInt _ _) (passInt_congr _ _ hh fun r hr =>
      passInt_congr _ _ hw fun c hc => h.loadInt_eq hc hr)

/-! ## VPASS over a full IB -/

theorem State.ibInt_of_lookup {s : State} {k : Nat} {v : Int} (h : ibLookup k s.ib = some (.int v)) :
    s.ibInt k = v := by
  simp [State.ibInt, h]

theorem State.ibFp_of_lookup {s : State} {k : Nat} {v : Fp} (h : ibLookup k s.ib = some (.flt v)) :
    s.ibFp k = v := by
  simp [State.ibFp, h]

namespace State.IbHolds

variable {s : State} {radius : Int} {k : Nat} (h : s.IbHolds)
  (hd : decode s.regs.cmd = .instr (.extract radius)) (hp : s.phase = .vpass) (hk : k < s.regs.srcPlane.count)

include h hd hp hk

/-- In VPASS a column of IB holds the horizontal sums of its rows. -/
theorem lookup_column {r : Nat} (hr : r < s.regs.srcPlane.height) :
    ibLookup (coordKey s.regs.srcPlane.width (coordX s.regs.srcPlane.width k) r) s.ib =
      some (horizontalSum s (dilation radius)
        (coordKey s.regs.srcPlane.width (coordX s.regs.srcPlane.width k) r)) :=
  (h radius hd).2 hp _ (coordKey_lt (coord_lt hk).1 hr)

theorem verticalInt_eq (hf : s.regs.fmt ≠ .f32) :
    verticalInt s (dilation radius) k = passInt (fun r => passInt (fun c => loadInt s.mem s.regs.srcPlane c r)
      s.regs.srcPlane.width (dilation radius) (coordX s.regs.srcPlane.width k)) s.regs.srcPlane.height
      (dilation radius) (coordY s.regs.srcPlane.width k) := by
  obtain ⟨hx, hy⟩ := coord_lt hk
  have hh : 0 < s.regs.srcPlane.height := by omega
  simp only [verticalInt]
  refine passInt_congr _ _ hh fun r hr => ?_
  obtain ⟨ex, ey⟩ := coord_of_key r hx
  rw [State.ibInt_of_lookup ((h.lookup_column hd hp hk hr).trans (congrArg some (horizontalSum_int hf _ _))), ex, ey]

theorem verticalFp_eq (hf : s.regs.fmt = .f32) :
    verticalFp s (dilation radius) k = passFp s.accFmt (fun r => passFp s.accFmt
      (fun c => loadFp s.accFmt s.mem s.regs.srcPlane c r) s.regs.srcPlane.width (dilation radius)
      (coordX s.regs.srcPlane.width k)) s.regs.srcPlane.height (dilation radius)
      (coordY s.regs.srcPlane.width k) := by
  obtain ⟨hx, hy⟩ := coord_lt hk
  have hh : 0 < s.regs.srcPlane.height := by omega
  simp only [verticalFp]
  refine passFp_congr _ _ _ hh fun r hr => ?_
  obtain ⟨ex, ey⟩ := coord_of_key r hx
  rw [State.ibFp_of_lookup ((h.lookup_column hd hp hk hr).trans (congrArg some (horizontalSum_flt hf _ _))), ex, ey]

/-- In VPASS, where IB holds the horizontal sums, the detail of a sample is that of the source samples
(41_extract.md R142). -/
theorem detailSample_eq : detailSample s (dilation radius) k = extractValue s radius k := by
  by_cases hf : s.regs.fmt = .f32
  · rw [detailSample_flt hf, extractValue_flt hf, h.verticalFp_eq hd hp hk hf]
  · rw [detailSample_int hf, extractValue_int hf, h.verticalInt_eq hd hp hk hf]

end State.IbHolds

end Sys2Proof.Machine

/-! # Proofs: what a stored sample changes (20_memory.md R51 to R61; 43_format_converter.md R188, R189) -/

namespace Sys2Proof.Machine

/-- The value is one that the format can store: an integer of its range, or a float for F32. -/
def Datum.fits (f : PixFmt) : Datum → Prop
  | .int v => f ≠ .f32 ∧ v ≤ f.max
  | .flt _ => f = .f32

theorem PixFmt.max_toNat_lt {f : PixFmt} (hf : f ≠ .f32) : f.max.toNat < 2 ^ (8 * f.size) := by
  cases f <;> simp_all [PixFmt.max, PixFmt.size]

/-- The number of a value that fits takes no more than the bytes of a sample. -/
theorem storedAs_lt {f : PixFmt} {d : Datum} {v : Nat} (hd : d.fits f) (hv : storedAs d v) :
    v < 2 ^ (8 * f.size) := by
  cases d with
  | int z =>
    obtain ⟨hf, hz⟩ := hd
    have hmax := PixFmt.max_toNat_lt hf
    rw [show v = z.toNat from hv]
    omega
  | flt z =>
    obtain ⟨draw, rfl⟩ := hv
    obtain rfl : f = .f32 := hd
    exact (storedBits draw z).isLt

theorem PixFmt.max_nonneg (f : PixFmt) : 0 ≤ f.max := by cases f <;> decide

theorem extractValue_fits (s : State) (radius : Int) (k : Nat) : (extractValue s radius k).fits s.regs.fmt := by
  by_cases hf : s.regs.fmt = .f32
  · rw [extractValue_flt hf]
    exact hf
  · rw [extractValue_int hf]
    exact ⟨hf, (clamp_range s.regs.fmt.max_nonneg).2⟩

@[simp] theorem State.processed_dstRaw (s : State) (k j : Nat) : (s.processed k).dstRaw j = s.dstRaw j := rfl

section Storing

variable {s : State} {i : Instr} {k : Nat} {d : Datum}

/-- The stored sample of DST spells the number of the value. -/
theorem State.dstRaw_storeDst_same (hm : s.mem.wf = true) (hv : validateOp i s.regs = none)
    (hk : k < s.regs.srcPlane.count) (hd : d.fits s.regs.fmt) : storedAs d ((s.storeDst k d).dstRaw k) := by
  obtain ⟨v, hsv, hmem⟩ := s.storeDst_mem k d
  obtain ⟨hx, hy⟩ := coord_lt hk
  have hraw : (s.storeDst k d).dstRaw k = v := by
    rw [State.dstRaw, State.storeDst_regs, hmem]
    exact (rawSample_storeRaw hm (dstPlane_sample_le hv hx hy)).trans (Nat.mod_eq_of_lt (storedAs_lt hd hsv))
  rwa [hraw]

/-- The other samples of DST keep their numbers. -/
theorem State.dstRaw_storeDst_other (hm : s.mem.wf = true) (hv : validateOp i s.regs = none)
    (hk : k < s.regs.srcPlane.count) {j : Nat} (hj : j < s.regs.srcPlane.count) (hne : j ≠ k) :
    (s.storeDst k d).dstRaw j = s.dstRaw j := by
  obtain ⟨v, -, hmem⟩ := s.storeDst_mem k d
  obtain ⟨hx, hy⟩ := coord_lt hk
  obtain ⟨hx', -⟩ := coord_lt hj
  obtain ⟨-, -, hstride, -⟩ := accepted_geometry hv (dst_mem_usedPlanes i s.regs)
  have hcoord : ¬ (coordX s.regs.srcPlane.width k = coordX s.regs.srcPlane.width j ∧
      coordY s.regs.srcPlane.width k = coordY s.regs.srcPlane.width j) := by
    rintro ⟨ex, ey⟩
    exact hne (by rw [← coordKey_coord s.regs.srcPlane.width j, ← ex, ← ey, coordKey_coord])
  rw [State.dstRaw, State.storeDst_regs, hmem]
  exact rawSample_storeRaw_other hm (dstPlane_sample_le hv hx hy) (samples_apart hstride hx hx' hcoord)

/-- Bytes that belong to no sample of DST keep their values (20_memory.md R61). -/
theorem State.read_storeDst_outside (hm : s.mem.wf = true) (hv : validateOp i s.regs = none)
    (hk : k < s.regs.srcPlane.count) {a : Nat} (ha : ¬ s.regs.dstPlane.sampleByte a) :
    (s.storeDst k d).mem.read a = s.mem.read a := by
  obtain ⟨v, -, hmem⟩ := s.storeDst_mem k d
  obtain ⟨hx, hy⟩ := coord_lt hk
  have hout : ¬ (_ ≤ a ∧ a < _) := fun hin => ha ⟨_, _, hx, hy, hin⟩
  rw [hmem]
  exact storeRaw_frame hm (dstPlane_sample_le hv hx hy) (by
    simp only [Regs.dstPlane_width]
    omega)

end Storing

/-- Samples of the inputs stay where only samples of DST change (20_memory.md R58, R59). -/
theorem rawSample_input_eq {r : Regs} {i : Instr} {q : Plane} {m m' : Memory} {x y : Nat}
    (hv : validateOp i r = none) (hq : q ∈ inputPlanes r i) (hx : x < q.width) (hy : y < q.height)
    (hm : ∀ a, ¬ r.dstPlane.sampleByte a → m'.read a = m.read a) : rawSample m' q x y = rawSample m q x y := by
  have hin := sample_in_foot hx hy
  have hdisj := accepted_disjoint hv hq
  refine congrArg leNat (Memory.readBytes_congr fun b h1 h2 => hm b ?_)
  rintro ⟨x', y', hx', hy', hlo, hhi⟩
  have hout := sample_in_foot hx' hy'
  omega

/-- A command's source stays where only samples of its DST change. -/
theorem SameSource.of_frame {s s' : State} {i : Instr} (hv : validateOp i s.regs = none) (hr : s'.regs = s.regs)
    (ha : s'.accFmt = s.accFmt) (hm : ∀ a, ¬ s.regs.dstPlane.sampleByte a → s'.mem.read a = s.mem.read a) :
    SameSource s s' where
  width := by rw [hr]
  height := by rw [hr]
  fmt := by rw [hr]
  accFmt := fun _ => ha
  samples := fun _ _ hx hy => by
    rw [hr]
    exact rawSample_input_eq hv (src_mem_inputPlanes i s.regs) hx hy hm

end Sys2Proof.Machine

/-! # Proofs: a run of EXTRACT, from START to DONE (41_extract.md R142; 44_launch_and_status.md R221) -/

namespace Sys2Proof.Machine

/-! ## The steps of EXTRACT on a BUSY block -/

theorem execExtract_hpass {radius : Int} {s : State} (hb : s.busy = true)
    (hv : validateOp (.extract radius) s.regs = none) (hp : s.phase = .hpass) :
    execExtract radius s = .next (hpassStep (dilation radius) s) := by
  simp [execExtract, hb, hp, whenValid_ok hv]

theorem execExtract_vpass {radius : Int} {s : State} (hb : s.busy = true)
    (hv : validateOp (.extract radius) s.regs = none) (hp : s.phase = .vpass) :
    execExtract radius s = .next (vpassStep (dilation radius) s) := by
  simp [execExtract, hb, hp, whenValid_ok hv]

theorem execExtract_start {radius : Int} {s : State} (hb : s.busy = false)
    (hv : validateOp (.extract radius) s.regs = none) (hr : commandResident (.extract radius) s = true) :
    execExtract radius s = .next (s.enter .hpass) := by
  simp [execExtract, hb, launch_enter hv hr]

theorem hpassStep_some {d k : Nat} {s : State} (h : nextCoord s.regs.srcPlane.count s = some k) :
    hpassStep d s = (s.writeIb k (horizontalSum s d k)).processed k := by
  simp [hpassStep, h]

theorem hpassStep_none {d : Nat} {s : State} (h : nextCoord s.regs.srcPlane.count s = none) :
    hpassStep d s = { s with phase := .vpass, doneSet := [] } := by
  simp [hpassStep, h]

theorem vpassStep_some {d k : Nat} {s : State} (h : nextCoord s.regs.srcPlane.count s = some k) :
    vpassStep d s = (s.storeDst k (detailSample s d k)).processed k := by
  simp [vpassStep, h]

theorem vpassStep_none {d : Nat} {s : State} (h : nextCoord s.regs.srcPlane.count s = none) :
    vpassStep d s = s.discardIb.complete := by
  simp [vpassStep, h]

/-! ## IB holds the horizontal sums -/

section KeepsIbHolds

variable {s : State} {radius : Int}

/-- A step of HPASS puts the sum of one more coordinate into IB (40_blur.md R118). -/
theorem State.IbHolds.writeIb_processed (h : s.IbHolds) (hinv : s.Inv)
    (hd : decode s.regs.cmd = .instr (.extract radius)) (hp : s.phase = .hpass) {k : Nat}
    (hk : k < s.regs.srcPlane.count) :
    ((s.writeIb k (horizontalSum s (dilation radius) k)).processed k).IbHolds := by
  intro radius' hd'
  obtain rfl : radius = radius' := Instr.extract.inj (Decoded.instr.inj (hd.symm.trans hd'))
  have hsame : SameSource s ((s.writeIb k (horizontalSum s (dilation radius) k)).processed k) :=
    .of_mem_eq rfl rfl rfl
  refine ⟨fun _ j hj => ?_, fun hn => absurd (hp.symm.trans hn) (by decide)⟩
  rw [hsame.horizontalSum_eq _ (insertCoord_bound hk hinv.doneBound j hj), State.processed_ib, State.writeIb_ib,
    ibLookup_ibWrite]
  split
  · rename_i hjk
    rw [hjk]
  · rename_i hjk
    exact (h radius hd).1 hp j ((mem_insertCoord.mp hj).resolve_left hjk)

/-- At the turn to VPASS all the sums are there. -/
theorem State.IbHolds.turn_to_vpass (h : s.IbHolds) (hp : s.phase = .hpass)
    (hall : ∀ k < s.regs.srcPlane.count, k ∈ s.doneSet) : { s with phase := .vpass, doneSet := [] }.IbHolds := by
  intro radius hd
  refine ⟨fun hn => absurd hn (by simp), fun _ k hk => ?_⟩
  have hsame : SameSource s { s with phase := .vpass, doneSet := [] } := .of_mem_eq rfl rfl rfl
  rw [hsame.horizontalSum_eq _ hk]
  exact (h radius hd).1 hp k (hall k hk)

/-- A step of VPASS changes no source sample, and so none of the sums (20_memory.md R59). -/
theorem State.IbHolds.storeDst_processed (h : s.IbHolds) (hm : s.mem.wf = true)
    (hv : validateOp (.extract radius) s.regs = none) (hp : s.phase = .vpass) {k : Nat}
    (hk : k < s.regs.srcPlane.count) (d : Datum) : ((s.storeDst k d).processed k).IbHolds := by
  intro radius' hd
  have hsame : SameSource s ((s.storeDst k d).processed k) :=
    .of_frame hv (by simp) (by simp) fun a ha => by simpa using State.read_storeDst_outside hm hv hk ha
  refine ⟨fun hn => absurd (hp.symm.trans (by simpa using hn)) (by decide), fun _ j hj => ?_⟩
  have hj' : j < s.regs.srcPlane.count := by simpa using hj
  rw [hsame.horizontalSum_eq _ hj']
  simpa using (h radius' (by simpa using hd)).2 hp j hj'

end KeepsIbHolds

/-! ## Runs of steps -/

theorem iterExec_add {i : Instr} {n : Nat} : ∀ {m : Nat} {s t : State}, iterExec i m s = .next t →
    iterExec i (m + n) s = iterExec i n t
  | 0, s, t, h => by
    cases h
    rw [Nat.zero_add]
  | m + 1, s, t, h => by
    rw [Nat.succ_add]
    simp only [iterExec] at h ⊢
    cases he : exec i s <;> rw [he] at h
    · exact iterExec_add h
    · cases h
    · cases h

theorem iterExec_one {i : Instr} {s t : State} (h : exec i s = .next t) : iterExec i 1 s = .next t := by
  simp [iterExec, h]

theorem insertCoord_length {k : Nat} : ∀ {l : List Nat}, k ∉ l → (insertCoord k l).length = l.length + 1
  | [], _ => rfl
  | j :: l, h => by
    obtain ⟨hne, hl⟩ := not_or.mp (mt List.mem_cons.mpr h)
    simp only [insertCoord, if_neg hne]
    split
    · rfl
    · simp [insertCoord_length hl]

theorem risingFrom_ge_and_nodup : ∀ {lo : Nat} {l : List Nat}, risingFrom lo l = true →
    (∀ k ∈ l, lo ≤ k) ∧ l.Nodup
  | _, [], _ => by simp
  | lo, j :: l, h => by
    simp only [risingFrom, Bool.and_eq_true, decide_eq_true_eq] at h
    obtain ⟨hge, hnd⟩ := risingFrom_ge_and_nodup h.2
    refine ⟨?_, List.nodup_cons.mpr ⟨fun hj => absurd (hge j hj) (by omega), hnd⟩⟩
    rintro k (_ | ⟨_, hk⟩)
    · exact h.1
    · exact le_trans (by omega) (hge k hk)

/-- While DONE_SET is smaller than the plane there is a next coordinate. -/
theorem exists_nextCoord {n : Nat} {s : State} (h : s.doneSet.length < n) : ∃ k, nextCoord n s = some k := by
  rw [← Option.ne_none_iff_exists']
  intro hnone
  have hsub : List.range n ⊆ s.doneSet := fun k hk => nextCoord_none.mp hnone k (List.mem_range.mp hk)
  have hle := (List.subperm_of_subset List.nodup_range hsub).length_le
  rw [List.length_range] at hle
  omega

/-- A rising DONE_SET as large as the plane holds every coordinate. -/
theorem all_done_of_length {n : Nat} {l : List Nat} (hr : risingFrom 0 l = true) (hb : ∀ k ∈ l, k < n)
    (hl : l.length = n) : ∀ k < n, k ∈ l := by
  have hsub : l ⊆ List.range n := fun k hk => List.mem_range.mpr (hb k hk)
  have hperm : l.Perm (List.range n) :=
    (List.subperm_of_subset (risingFrom_ge_and_nodup hr).2 hsub).perm_of_length_le (by simp [hl])
  intro k hk
  exact hperm.mem_iff.mpr (List.mem_range.mpr hk)

/-- A pass over the plane, packaged once: if `P` lasts from each coordinate to the next, it holds after any number of
steps that the pass has coordinates for. -/
theorem iterExec_pass {i : Instr} {n : Nat} {P : State → Prop}
    (hstep : ∀ s k, P s → nextCoord n s = some k →
      ∃ t, exec i s = .next t ∧ P t ∧ t.doneSet = insertCoord k s.doneSet) :
    ∀ (m : Nat) (s : State), P s → s.doneSet.length + m ≤ n →
      ∃ t, iterExec i m s = .next t ∧ P t ∧ t.doneSet.length = s.doneSet.length + m
  | 0, s, hs, _ => ⟨s, rfl, hs, rfl⟩
  | m + 1, s, hs, hm => by
    obtain ⟨k, hk⟩ := exists_nextCoord (n := n) (s := s) (by omega)
    obtain ⟨u, he, hu, hdone⟩ := hstep s k hs hk
    have hlen : u.doneSet.length = s.doneSet.length + 1 := by
      rw [hdone, insertCoord_length (nextCoord_some hk).2]
    obtain ⟨t, ht, hPt, hlt⟩ := iterExec_pass hstep m u hu (by omega)
    exact ⟨t, by simp [iterExec, he, ht], hPt, by omega⟩

/-! ## The two passes -/

/-- What holds all along a run of `i` that was started in `s₀`. -/
structure RunFrom (i : Instr) (s₀ s : State) : Prop where
  inv : s.Inv
  ibHolds : s.IbHolds
  busy : s.busy = true
  regs : s.regs = s₀.regs
  accFmt : s.accFmt = s₀.accFmt

/-- What stands in memory while the samples of DST are being stored: the new value at the coordinates done, the old one
at the others, and every byte that belongs to no sample (20_memory.md R61; 70_reset_and_hazards.md R272). -/
structure Stored (i : Instr) (s₀ s : State) : Prop where
  new : ∀ k ∈ s.doneSet, storedAs (commandValue i s₀ k) (s.dstRaw k)
  old : ∀ k < s₀.regs.srcPlane.count, k ∉ s.doneSet → s.dstRaw k = s₀.dstRaw k
  outside : ∀ a, ¬ s₀.regs.dstPlane.sampleByte a → s.mem.read a = s₀.mem.read a

/-- Where nothing is done and memory is that of START, nothing is stored. -/
theorem Stored.of_mem_eq {i : Instr} {s₀ s : State} (hr : s.regs = s₀.regs) (hm : s.mem = s₀.mem)
    (hd : s.doneSet = []) : Stored i s₀ s where
  new := by simp [hd]
  old := fun k _ _ => by rw [State.dstRaw, State.dstRaw, hr, hm]
  outside := fun a _ => by rw [hm]

/-- Storing the value of a coordinate, whichever instruction does it. -/
theorem Stored.storeDst_processed {i : Instr} {s₀ s : State} {k : Nat} (h : Stored i s₀ s)
    (hrun : RunFrom i s₀ s) (hv : validateOp i s₀.regs = none) (hk : k < s.regs.srcPlane.count)
    (hfit : (commandValue i s₀ k).fits s.regs.fmt) :
    Stored i s₀ ((s.storeDst k (commandValue i s₀ k)).processed k) := by
  obtain ⟨hinv, -, -, hregs, -⟩ := hrun
  have hv' : validateOp i s.regs = none := hregs ▸ hv
  refine ⟨fun j hj => ?_, fun j hj hnot => ?_, fun a ha => ?_⟩
  · rw [State.processed_dstRaw]
    rw [State.processed_doneSet, State.storeDst_doneSet] at hj
    by_cases hjk : j = k
    · subst hjk
      exact State.dstRaw_storeDst_same hinv.memWf hv' hk hfit
    · have hold := (mem_insertCoord.mp hj).resolve_left hjk
      rw [State.dstRaw_storeDst_other hinv.memWf hv' hk (hinv.doneBound j hold) hjk]
      exact h.new j hold
  · rw [State.processed_doneSet, State.storeDst_doneSet, mem_insertCoord, not_or] at hnot
    rw [State.processed_dstRaw, State.dstRaw_storeDst_other hinv.memWf hv' hk (hregs ▸ hj) hnot.1]
    exact h.old j hj hnot.2
  · rw [State.processed_mem, State.read_storeDst_outside hinv.memWf hv' hk (hregs ▸ ha)]
    exact h.outside a ha

section Extract

variable {radius : Int} {s₀ : State}

/-- A state of HPASS in a run of EXTRACT: memory is still that of START. -/
def InHpass (radius : Int) (s₀ s : State) : Prop :=
  RunFrom (.extract radius) s₀ s ∧ s.phase = .hpass ∧ s.mem = s₀.mem

/-- A state of VPASS in a run of EXTRACT. -/
def InVpass (radius : Int) (s₀ s : State) : Prop :=
  RunFrom (.extract radius) s₀ s ∧ s.phase = .vpass ∧ Stored (.extract radius) s₀ s

/-- START enters HPASS with nothing done (44_launch_and_status.md R213). -/
theorem extract_start (hinv : s₀.Inv) (hb : s₀.busy = false) (hd : decode s₀.regs.cmd = .instr (.extract radius))
    (hv : validateOp (.extract radius) s₀.regs = none) (hr : commandResident (.extract radius) s₀ = true) :
    exec (.extract radius) s₀ = .next (s₀.enter .hpass) ∧ InHpass radius s₀ (s₀.enter .hpass) := by
  refine ⟨execExtract_start hb hv hr, ⟨hinv.enter hb hd hv hr rfl, ?_, s₀.enter_busy _, rfl, rfl⟩, rfl, rfl⟩
  exact fun _ _ => ⟨fun _ k hk => absurd hk (by simp), fun hn => absurd hn (by simp)⟩

/-- When all is stored, the next step completes (44_launch_and_status.md R215). -/
theorem InVpass.complete {s : State} (h : InVpass radius s₀ s)
    (hv : validateOp (.extract radius) s₀.regs = none) (hlen : s.doneSet.length = s₀.regs.srcPlane.count) :
    exec (.extract radius) s = .next s.discardIb.complete ∧
      ∀ k < s₀.regs.srcPlane.count, storedAs (extractValue s₀ radius k) (s.dstRaw k) := by
  obtain ⟨⟨hinv, -, hb, hregs, -⟩, hp, hst⟩ := h
  have hall := all_done_of_length hinv.doneRising hinv.doneBound (hregs ▸ hlen)
  refine ⟨?_, fun k hk => hst.new k (hall k (hregs ▸ hk))⟩
  rw [exec_extract, execExtract_vpass hb (hregs ▸ hv) hp, vpassStep_none (nextCoord_none.mpr hall)]

section

variable (hd : decode s₀.regs.cmd = .instr (.extract radius)) (hv : validateOp (.extract radius) s₀.regs = none)

include hd hv

/-- A coordinate of HPASS leads on in HPASS (40_blur.md R118). -/
theorem InHpass.step {s : State} {k : Nat} (h : InHpass radius s₀ s)
    (hk : nextCoord s₀.regs.srcPlane.count s = some k) :
    ∃ t, exec (.extract radius) s = .next t ∧ InHpass radius s₀ t ∧ t.doneSet = insertCoord k s.doneSet := by
  obtain ⟨⟨hinv, hib, hb, hregs, hacc⟩, hp, hm⟩ := h
  rw [← hregs] at hd hv hk
  have hlt := (nextCoord_some hk).1
  have he : exec (.extract radius) s = .next ((s.writeIb k (horizontalSum s (dilation radius) k)).processed k) := by
    rw [exec_extract, execExtract_hpass hb hv hp, hpassStep_some hk]
  exact ⟨_, he, ⟨⟨exec_keeps_inv hinv hd he, hib.writeIb_processed hinv hd hp hlt, hb, hregs, hacc⟩, hp, hm⟩, rfl⟩

/-- When all of IB is written, the next step enters VPASS with nothing stored yet. -/
theorem InHpass.turn {s : State} (h : InHpass radius s₀ s) (hlen : s.doneSet.length = s₀.regs.srcPlane.count) :
    ∃ t, exec (.extract radius) s = .next t ∧ InVpass radius s₀ t ∧ t.doneSet = [] := by
  obtain ⟨⟨hinv, hib, hb, hregs, hacc⟩, hp, hm⟩ := h
  have hall := all_done_of_length hinv.doneRising hinv.doneBound (hregs ▸ hlen)
  rw [← hregs] at hd hv
  have he : exec (.extract radius) s = .next { s with phase := .vpass, doneSet := [] } := by
    rw [exec_extract, execExtract_hpass hb hv hp, hpassStep_none (nextCoord_none.mpr hall)]
  exact ⟨_, he, ⟨⟨exec_keeps_inv hinv hd he, hib.turn_to_vpass hp hall, hb, hregs, hacc⟩, rfl,
    .of_mem_eq hregs hm rfl⟩, rfl⟩

/-- A coordinate of VPASS stores the value of the source samples at START, and leads on in VPASS (41_extract.md R142). -/
theorem InVpass.step {s : State} {k : Nat} (h : InVpass radius s₀ s)
    (hk : nextCoord s₀.regs.srcPlane.count s = some k) :
    ∃ t, exec (.extract radius) s = .next t ∧ InVpass radius s₀ t ∧ t.doneSet = insertCoord k s.doneSet := by
  obtain ⟨hrun, hp, hst⟩ := h
  have ⟨hinv, hib, hb, hregs, hacc⟩ := hrun
  have hd' : decode s.regs.cmd = .instr (.extract radius) := hregs ▸ hd
  have hv' : validateOp (.extract radius) s.regs = none := hregs ▸ hv
  have hlt := (nextCoord_some hk).1
  have hlt' : k < s.regs.srcPlane.count := hregs ▸ hlt
  have hval : detailSample s (dilation radius) k = extractValue s₀ radius k := by
    rw [hib.detailSample_eq hd' hp hlt', (SameSource.of_frame hv hregs hacc hst.outside).extractValue_eq radius hlt]
  have he : exec (.extract radius) s = .next ((s.storeDst k (extractValue s₀ radius k)).processed k) := by
    rw [exec_extract, execExtract_vpass hb hv' hp, vpassStep_some (hregs ▸ hk), hval]
  refine ⟨_, he, ⟨⟨exec_keeps_inv hinv hd' he, hib.storeDst_processed hinv.memWf hv' hp hlt' _, ?_, ?_, ?_⟩, ?_,
    hst.storeDst_processed hrun hv hlt' (hregs ▸ extractValue_fits s₀ radius k)⟩, ?_⟩
  · exact (State.busy_congr (by simp)).trans hb
  · simpa using hregs
  · simpa using hacc
  · simpa using hp
  · simp

end

/-- The whole of EXTRACT: from START on, `2 W H + 3` steps lead to DONE, with the detail of the source samples at START
in DST and every other byte as it was (41_extract.md R142; 44_launch_and_status.md R218; 20_memory.md R61). -/
theorem extract_runs_to_done (hinv : s₀.Inv) (hb : s₀.busy = false)
    (hd : decode s₀.regs.cmd = .instr (.extract radius)) (hv : validateOp (.extract radius) s₀.regs = none)
    (hr : commandResident (.extract radius) s₀ = true) :
    ∃ t, iterExec (.extract radius) (2 * s₀.regs.srcPlane.count + 3) s₀ = .next t ∧
      t.status = statusWord .done 0 ∧ t.phase = .none ∧ t.regs = s₀.regs ∧
      (∀ k < s₀.regs.srcPlane.count, storedAs (extractValue s₀ radius k) (t.dstRaw k)) ∧
      (∀ a, ¬ s₀.regs.dstPlane.sampleByte a → t.mem.read a = s₀.mem.read a) := by
  obtain ⟨he₀, h₁⟩ := extract_start hinv hb hd hv hr
  obtain ⟨s₂, he₁, h₂, hl₂⟩ := iterExec_pass (fun _ _ h hk => InHpass.step hd hv h hk) s₀.regs.srcPlane.count
    (s₀.enter .hpass) h₁ (by simp)
  obtain ⟨s₃, he₂, h₃, hd₃⟩ := h₂.turn hd hv (by simpa using hl₂)
  obtain ⟨s₄, he₃, h₄, hl₄⟩ := iterExec_pass (fun _ _ h hk => InVpass.step hd hv h hk) s₀.regs.srcPlane.count
    s₃ h₃ (by simp [hd₃])
  obtain ⟨he₄, hnew⟩ := h₄.complete hv (by simpa [hd₃] using hl₄)
  obtain ⟨hrun, -, hst⟩ := h₄
  refine ⟨s₄.discardIb.complete, ?_, rfl, rfl, hrun.regs, hnew, hst.outside⟩
  calc iterExec (.extract radius) (2 * s₀.regs.srcPlane.count + 3) s₀
      = iterExec (.extract radius) (1 + (s₀.regs.srcPlane.count + (1 + (s₀.regs.srcPlane.count + 1)))) s₀ := by
        congr 1
        omega
    _ = iterExec (.extract radius) (s₀.regs.srcPlane.count + (1 + (s₀.regs.srcPlane.count + 1))) (s₀.enter .hpass) :=
        iterExec_add (iterExec_one he₀)
    _ = iterExec (.extract radius) (1 + (s₀.regs.srcPlane.count + 1)) s₂ := iterExec_add he₁
    _ = iterExec (.extract radius) (s₀.regs.srcPlane.count + 1) s₃ := iterExec_add (iterExec_one he₂)
    _ = iterExec (.extract radius) 1 s₄ := iterExec_add he₃
    _ = .next s₄.discardIb.complete := iterExec_one he₄

end Extract

/-! ## Two runs over the same samples -/

/-- Two commands whose source planes agree in dimensions, format and integer samples hold the same source. -/
theorem SameSource.of_samples {s s' : State} (hf : s.regs.fmt ≠ .f32) (hdim : s'.regs.p0.dim = s.regs.p0.dim)
    (hfmt : s'.regs.p0.fmt = s.regs.p0.fmt)
    (hsam : ∀ x y, x < s.regs.srcPlane.width → y < s.regs.srcPlane.height →
      loadInt s'.mem s'.regs.srcPlane x y = loadInt s.mem s.regs.srcPlane x y) : SameSource s s' where
  width := congrArg dimWidth hdim
  height := congrArg dimHeight hdim
  fmt := congrArg (fun w => (PixFmt.ofCode w).getD .u8) hfmt
  accFmt := fun h => absurd h hf
  samples := fun x y hx hy => Int.ofNat.inj (hsam x y hx hy)

/-- On an integer format the stored number of a value is one, since no NaN is drawn. -/
theorem extractValue_storedAs_unique {s : State} {radius : Int} {k a b : Nat} (hf : s.regs.fmt ≠ .f32)
    (ha : storedAs (extractValue s radius k) a) (hb : storedAs (extractValue s radius k) b) : a = b := by
  rw [extractValue_int hf] at ha hb
  exact ha.trans hb.symm

/-- Settles O39: each run leaves the values of its source samples in DST, and these are the same. -/
theorem outputDependsOnSamplesOnly : Obligations.OutputDependsOnSamplesOnly := by
  intro s s' radius hinv hinv' hb hb' hd hd' hv hv' hr hr' hf hdim hfmt hsam
  have hsame : SameSource s s' := .of_samples hf hdim hfmt hsam
  have hcount : s'.regs.srcPlane.count = s.regs.srcPlane.count := by
    rw [Plane.count, hsame.width, hsame.height, Plane.count]
  obtain ⟨t, ht, -, -, -, hout, -⟩ := extract_runs_to_done hinv hb hd hv hr
  obtain ⟨t', ht', -, -, -, hout', -⟩ := extract_runs_to_done hinv' hb' hd' hv' hr'
  rw [hcount] at ht' hout'
  refine ⟨t, t', ht, ht', fun k hk => extractValue_storedAs_unique (radius := radius) (s := s) hf ?_ (hout k hk)⟩
  exact hsame.extractValue_eq radius hk ▸ hout' k hk

end Sys2Proof.Machine

/-! # Proofs: host accesses to memory (20_memory.md R50, R63, R67) -/

namespace Sys2Proof.Machine

theorem Plane.inFoot_iff {p : Plane} {a : Nat} : p.inFoot a = true ↔ p.addr ≤ a ∧ a < p.footEnd := by
  simp [Plane.inFoot]

/-! ## What the host contract forbids -/

theorem runningInput_eq_false_iff {s : State} {a : Nat} : runningInput s a = false ↔
    (s.busy = true → ∀ i, decode s.regs.cmd = .instr i → ∀ p ∈ inputPlanes s.regs i, p.inFoot a = false) := by
  unfold runningInput fetch
  cases decode s.regs.cmd <;> cases s.busy <;> simp

theorem runningOutput_eq_false_iff {s : State} {a : Nat} :
    runningOutput s a = false ↔ (s.busy = true → s.regs.dstPlane.inFoot a = false) := by
  cases hb : s.busy <;> simp [runningOutput, hb]

theorem runningInput_of_mem {s : State} {i : Instr} {p : Plane} {a : Nat} (hb : s.busy = true)
    (hd : decode s.regs.cmd = .instr i) (hp : p ∈ inputPlanes s.regs i) (ha : p.inFoot a = true) :
    runningInput s a = true := by
  simp only [runningInput, fetch, hd, hb, Bool.true_and, List.any_eq_true]
  exact ⟨p, hp, ha⟩

theorem runningOutput_of_inFoot {s : State} {a : Nat} (hb : s.busy = true)
    (ha : s.regs.dstPlane.inFoot a = true) : runningOutput s a = true := by
  simp [runningOutput, hb, ha]

/-! ## The outcomes of an access at a resident address -/

theorem hostLoad_refused {s : State} {a : Word} (hres : isResident s.resident a.toNat = true)
    (h : runningOutput s a.toNat = true) : hostLoad a s = .refused .hostContract := by
  simp [hostLoad, hres, h]

theorem hostLoad_answers {s : State} {a : Word} (hres : isResident s.resident a.toNat = true)
    (h : runningOutput s a.toNat = false) : hostLoad a s = .next (s.answer (.byte (s.mem.read a.toNat))) := by
  simp [hostLoad, hres, h]

theorem hostStore_refused {s : State} {a : Word} (v : Byte) (hres : isResident s.resident a.toNat = true)
    (h : runningInput s a.toNat = true ∨ runningOutput s a.toNat = true) :
    hostStore a v s = .refused .hostContract := by
  simp [hostStore, hres, h]

theorem hostStore_writes {s : State} {a : Word} (v : Byte) (hres : isResident s.resident a.toNat = true)
    (hin : runningInput s a.toNat = false) (hout : runningOutput s a.toNat = false) :
    hostStore a v s = .next { s with mem := s.mem.write a.toNat v } := by
  simp [hostStore, hres, hin, hout]

/-- Settles O46: a plane the running command uses is one of its inputs or DST, and either is behind the contract. -/
theorem hostContractIsKept : Obligations.HostContractIsKept := by
  intro s i a v rest hb hd hres
  refine ⟨?_, fun hdst hs => ?_⟩
  · rintro ⟨p, hp, ha⟩ hs
    rw [step_of_turn hs]
    refine hostStore_refused (s := { s with agenda := rest }) v hres ?_
    rcases List.mem_append.mp hp with hin | hout
    · exact .inl (runningInput_of_mem (s := { s with agenda := rest }) hb hd hin ha)
    · obtain rfl := List.mem_singleton.mp hout
      exact .inr (runningOutput_of_inFoot (s := { s with agenda := rest }) hb ha)
  · rw [step_of_turn hs]
    exact hostLoad_refused (s := { s with agenda := rest }) hres
      (runningOutput_of_inFoot (s := { s with agenda := rest }) hb hdst)

/-- Settles O47, by the law of a read after a write and the canonical form it keeps. -/
theorem hostMemoryAccess : Obligations.HostMemoryAccess := by
  intro s a v rest hm hres hdst
  have hout : runningOutput { s with agenda := rest } a.toNat = false := runningOutput_eq_false_iff.mpr hdst
  refine ⟨fun hinputs hs => ?_, fun hs => ?_⟩
  · have hin : runningInput { s with agenda := rest } a.toNat = false := runningInput_eq_false_iff.mpr hinputs
    refine ⟨{ s with agenda := rest, mem := s.mem.write a.toNat v }, ?_, Memory.write_wf v a.isLt hm, ?_, ?_, rfl⟩
    · rw [step_of_turn hs]
      exact hostStore_writes (s := { s with agenda := rest }) v hres hin hout
    · simp [Memory.read_write hm]
    · intro b hb
      simp [Memory.read_write hm, hb]
  · rw [step_of_turn hs]
    exact hostLoad_answers (s := { s with agenda := rest }) hres hout

end Sys2Proof.Machine

/-! # Proofs: residency (20_memory.md R50, R56, R67) -/

namespace Sys2Proof.Machine

theorem isResident_iff {rs : List (Nat × Nat)} {a : Nat} :
    isResident rs a = true ↔ ∃ r ∈ rs, r.1 ≤ a ∧ a < r.2 := by
  simp [isResident]

/-- How many of the intervals end past an address: those that a search from there can still pass. -/
def endsPast (rs : List (Nat × Nat)) (lo : Nat) : Nat := rs.countP fun r => decide (lo < r.2)

theorem endsPast_le_length (rs : List (Nat × Nat)) (lo : Nat) : endsPast rs lo ≤ rs.length :=
  List.countP_le_length

/-- Going on at the end of an interval leaves it behind. -/
theorem endsPast_end_lt {lo : Nat} {r : Nat × Nat} (hlo : lo < r.2) :
    ∀ {rs : List (Nat × Nat)}, r ∈ rs → endsPast rs r.2 < endsPast rs lo
  | q :: rs, hr => by
    have hmono : endsPast rs r.2 ≤ endsPast rs lo := List.countP_mono_left fun q _ hq => by
      simp only [decide_eq_true_eq] at hq ⊢
      omega
    simp only [endsPast, List.countP_cons, decide_eq_true_eq] at hmono ⊢
    rcases List.mem_cons.mp hr with rfl | hr
    · rw [if_neg (lt_irrefl _), if_pos hlo]
      omega
    · have ih := endsPast_end_lt hlo hr
      simp only [endsPast] at ih
      split <;> split <;> omega

/-- A resident address lies in an interval that ends past it. -/
theorem endsPast_pos_of_resident {rs : List (Nat × Nat)} {a : Nat} (h : isResident rs a = true) :
    0 < endsPast rs a := by
  obtain ⟨r, hr, -, hend⟩ := isResident_iff.mp h
  exact List.countP_pos_iff.mpr ⟨r, hr, by simpa using hend⟩

/-- The search is exact as long as its fuel covers the intervals that end past its start. -/
theorem coveredFrom_iff {rs : List (Nat × Nat)} {hi : Nat} : ∀ {fuel lo : Nat}, endsPast rs lo ≤ fuel →
    (coveredFrom rs hi fuel lo = true ↔ ∀ a, lo ≤ a → a < hi → isResident rs a = true)
  | 0, lo, hfuel => by
    simp only [coveredFrom, decide_eq_true_eq]
    refine ⟨fun h a h1 h2 => by omega, fun h => ?_⟩
    by_contra hlt
    have := endsPast_pos_of_resident (h lo le_rfl (by omega))
    omega
  | fuel + 1, lo, hfuel => by
    simp only [coveredFrom]
    split
    · rename_i hle
      simp only [true_iff]
      intro a h1 h2
      omega
    · rename_i hlt
      split
      · rename_i r hfind
        have hr := List.mem_of_find?_eq_some hfind
        obtain ⟨hstart, hend⟩ : r.1 ≤ lo ∧ lo < r.2 := by simpa using List.find?_some hfind
        have hless := endsPast_end_lt hend hr
        rw [coveredFrom_iff (by omega)]
        refine ⟨fun h a h1 h2 => ?_, fun h a h1 h2 => h a (by omega) h2⟩
        by_cases ha : a < r.2
        · exact isResident_iff.mpr ⟨r, hr, by omega, ha⟩
        · exact h a (by omega) h2
      · rename_i hfind
        simp only [Bool.false_eq_true, false_iff]
        intro h
        obtain ⟨r, hr, hin⟩ := isResident_iff.mp (h lo le_rfl (by omega))
        exact List.find?_eq_none.mp hfind r hr (by simpa using hin)

/-- Settles O48: the search starts with an interval's fuel for each interval. -/
theorem residencyTestIsExact : Obligations.ResidencyTestIsExact :=
  fun rs p => coveredFrom_iff (endsPast_le_length rs p.addr)

/-- On a block that is not BUSY each instruction is launched, in its own first phase. -/
theorem exec_of_not_busy {s : State} (hb : s.busy = false) (i : Instr) : ∃ p, exec i s = launch i p s := by
  cases i with
  | extract radius => exact ⟨.hpass, by simp [execExtract, hb]⟩
  | replace => exact ⟨.rpass, by simp [execReplace, hb]⟩

theorem launch_notResident {i : Instr} {p : Phase} {s : State} (h : validateOp i s.regs = none)
    (hr : commandResident i s = false) : launch i p s = .refused .notResident := by
  simp [launch, h, hr]

/-- Settles O15: the launch tests residency once validation has passed. -/
theorem nonResidentLaunchRefused : Obligations.NonResidentLaunchRefused := by
  intro s i hb hv hr
  obtain ⟨p, hp⟩ := exec_of_not_busy hb i
  rw [hp, launch_notResident hv hr]

end Sys2Proof.Machine

/-! # Proofs: IB holds the horizontal sums (20_memory.md R62, R63; 40_blur.md R118)

The sums are over the source plane in memory. Outside a pass over IB nothing is asked; in one, the source stays: the
computation stores to DST alone, which the source does not meet, and the host contract keeps the host out of it. -/

namespace Sys2Proof.Machine

/-- A running command keeps the registers (44_launch_and_status.md R212), and so does its launch. -/
theorem exec_regs {i : Instr} {s t : State} (h : exec i s = .next t) : t.regs = s.regs := by
  cases i with
  | extract radius =>
    rcases execExtract_cases h with ⟨-, c, -, rfl⟩ | ⟨-, -, -, rfl⟩ | ⟨-, -, -, rfl⟩ | ⟨-, -, -, rfl⟩
    · rfl
    · rfl
    · rcases hpassStep_cases (dilation radius) s with ⟨k, -, e⟩ | ⟨-, e⟩ <;> simp [e]
    · rcases vpassStep_cases (dilation radius) s with ⟨k, -, e⟩ | ⟨-, e⟩ <;> simp [e]
  | replace =>
    rcases execReplace_cases h with ⟨-, c, -, rfl⟩ | ⟨-, -, -, rfl⟩ | ⟨-, -, -, rfl⟩
    · rfl
    · rfl
    · rcases rpassStep_cases s with ⟨k, -, e⟩ | ⟨-, e⟩ <;> simp [e]

/-- A sample depends on the bytes of its plane's footprint alone (20_memory.md R56). -/
theorem rawSample_congr_of_foot {m n : Memory} {p : Plane} {x y : Nat} (hx : x < p.width) (hy : y < p.height)
    (h : ∀ a, p.inFoot a = true → n.read a = m.read a) : rawSample n p x y = rawSample m p x y := by
  have hin := sample_in_foot hx hy
  exact congrArg leNat (Memory.readBytes_congr fun a h1 h2 => h a (Plane.inFoot_iff.mpr (by omega)))

/-! ## Where the sums are, or are not asked for -/

theorem State.Inv.ibHolds_of_not_busy {s : State} (h : s.Inv) (hb : s.busy = false) : s.IbHolds := by
  obtain ⟨hp, -, -⟩ := h.quiet hb
  exact State.ibHolds_of_no_pass (by simp [hp]) (by simp [hp])

theorem State.ibHolds_of_replace {s : State} (h : decode s.regs.cmd = .instr .replace) : s.IbHolds :=
  fun _ hd => absurd (Decoded.instr.inj (h.symm.trans hd)) (by simp)

/-- A launch of EXTRACT owes no sum yet. -/
theorem State.enter_hpass_ibHolds (s : State) : (s.enter .hpass).IbHolds :=
  fun _ _ => ⟨fun _ k hk => absurd hk (by simp), fun hn => absurd hn (by simp)⟩

/-- The sums stay where the command, its progress, IB and the source plane do. -/
theorem State.IbHolds.congr {s t : State} (h : s.IbHolds) (hinv : s.Inv) (hr : t.regs = s.regs)
    (hp : t.phase = s.phase) (hd : t.doneSet = s.doneSet) (hi : t.ib = s.ib) (hsame : SameSource s t) :
    t.IbHolds := by
  intro radius hdec
  rw [hr] at hdec
  obtain ⟨hdone, hall⟩ := h radius hdec
  rw [hp, hd, hi, hr]
  refine ⟨fun hh k hk => ?_, fun hv k hk => ?_⟩
  · rw [hsame.horizontalSum_eq _ (hinv.doneBound k hk)]
    exact hdone hh k hk
  · rw [hsame.horizontalSum_eq _ hk]
    exact hall hv k hk

theorem State.IbHolds.setAgenda {s : State} (h : s.IbHolds) (hinv : s.Inv) (ts : List Turn) :
    { s with agenda := ts }.IbHolds :=
  h.congr hinv rfl rfl rfl rfl (.of_mem_eq rfl rfl rfl)

theorem State.IbHolds.answer {s : State} (h : s.IbHolds) (hinv : s.Inv) (a : Answer) : (s.answer a).IbHolds :=
  h.congr hinv rfl rfl rfl rfl (.of_mem_eq rfl rfl rfl)

/-! ## The instructions -/

theorem execExtract_keeps_ibHolds {radius : Int} {s t : State} (h : s.IbHolds) (hinv : s.Inv)
    (hd : decode s.regs.cmd = .instr (.extract radius)) (he : execExtract radius s = .next t) : t.IbHolds := by
  rcases execExtract_cases he with ⟨hb, c, -, rfl⟩ | ⟨-, -, -, rfl⟩ | ⟨-, -, hp, rfl⟩ | ⟨-, hv, hp, rfl⟩
  · exact (hinv.reject hb c).ibHolds_of_not_busy (s.reject_busy c)
  · exact s.enter_hpass_ibHolds
  · rcases hpassStep_cases (dilation radius) s with ⟨k, hk, e⟩ | ⟨hk, e⟩ <;> rw [e]
    · exact h.writeIb_processed hinv hd hp (nextCoord_some hk).1
    · exact h.turn_to_vpass hp (nextCoord_none.mp hk)
  · rcases vpassStep_cases (dilation radius) s with ⟨k, hk, e⟩ | ⟨-, e⟩ <;> rw [e]
    · exact h.storeDst_processed hinv.memWf hv hp (nextCoord_some hk).1 _
    · exact State.ibHolds_of_no_pass (by simp) (by simp)

/-- Running the instruction that CMD holds keeps IB equal to the horizontal sums. -/
theorem exec_keeps_ibHolds {i : Instr} {s t : State} (h : s.IbHolds) (hinv : s.Inv)
    (hd : decode s.regs.cmd = .instr i) (he : exec i s = .next t) : t.IbHolds := by
  cases i with
  | extract radius => exact execExtract_keeps_ibHolds h hinv hd he
  | replace => exact State.ibHolds_of_replace (exec_regs he ▸ hd)

/-! ## The turns -/

theorem blockTurn_keeps_ibHolds {s t : State} (h : s.IbHolds) (hinv : s.Inv) (ht : blockTurn s = .next t) :
    t.IbHolds := by
  rcases blockTurn_cases ht with ⟨-, rfl⟩ | ⟨-, i, hd, he⟩
  · exact h
  · exact exec_keeps_ibHolds h hinv hd he

theorem start_keeps_ibHolds {s t : State} (h : s.IbHolds) (hinv : s.Inv) (ht : start s = .next t) :
    t.IbHolds := by
  rcases start_cases ht with ⟨-, rfl⟩ | ⟨hb, -, rfl⟩ | ⟨-, i, hd, he⟩
  · exact h
  · exact (hinv.reject hb .eOp).ibHolds_of_not_busy (s.reject_busy _)
  · exact exec_keeps_ibHolds h hinv hd he

/-- Registers are written on a quiet block alone (44_launch_and_status.md R212). -/
theorem hostWrite_keeps_ibHolds {off size : Nat} {v : Word} {s t : State} (h : s.IbHolds) (hinv : s.Inv)
    (ht : hostWrite off size v s = .next t) : t.IbHolds := by
  rcases hostWrite_cases ht with hs | rfl | ⟨hb, n, rfl⟩
  · exact start_keeps_ibHolds h hinv hs
  · exact h
  · exact (hinv.setRegs hb _).ibHolds_of_not_busy hb

/-- A host store into no input plane of the running command leaves its source as it was (20_memory.md R63). -/
theorem SameSource.of_hostStore {s : State} {i : Instr} {a : Nat} (v : Byte) (hm : s.mem.wf = true)
    (hb : s.busy = true) (hd : decode s.regs.cmd = .instr i) (ha : runningInput s a = false) :
    SameSource s { s with mem := s.mem.write a v } where
  width := rfl
  height := rfl
  fmt := rfl
  accFmt := fun _ => rfl
  samples := fun _ _ hx hy => by
    have hout := runningInput_eq_false_iff.mp ha hb i hd _ (src_mem_inputPlanes i s.regs)
    refine rawSample_congr_of_foot hx hy fun b hb => ?_
    have hne : b ≠ a := by
      rintro rfl
      exact Bool.noConfusion (hout.symm.trans hb)
    rw [Memory.read_write hm, if_neg hne]

theorem hostStore_keeps_ibHolds {a : Word} {v : Byte} {s t : State} (h : s.IbHolds) (hinv : s.Inv)
    (ht : hostStore a v s = .next t) : t.IbHolds := by
  have hinv' := hostStore_keeps_inv hinv ht
  obtain ⟨-, hin, -, rfl⟩ := hostStore_cases ht
  cases hb : s.busy with
  | false => exact hinv'.ibHolds_of_not_busy hb
  | true =>
    obtain ⟨i, hd, -⟩ := hinv.running hb
    exact h.congr hinv rfl rfl rfl rfl (.of_hostStore v hinv.memWf hb hd hin)

theorem hostWait_keeps_ibHolds {s t : State} (h : s.IbHolds) (hinv : s.Inv) (ht : hostWait s = .next t) :
    t.IbHolds := by
  rcases hostWait_cases ht with ⟨-, hw⟩ | ⟨-, rfl⟩
  · exact blockTurn_keeps_ibHolds (h.setAgenda hinv _) (hinv.setAgenda _) hw
  · exact h.answer hinv _

theorem takeTurn_keeps_ibHolds {u : Turn} {s t : State} (h : s.IbHolds) (hinv : s.Inv)
    (ht : takeTurn u s = .next t) : t.IbHolds := by
  cases u with
  | regWrite off size v => exact hostWrite_keeps_ibHolds h hinv ht
  | regRead off size =>
    obtain ⟨a, rfl⟩ := hostRead_cases ht
    exact h.answer hinv a
  | load addr =>
    obtain ⟨a, rfl⟩ := hostLoad_cases ht
    exact h.answer hinv a
  | store addr v => exact hostStore_keeps_ibHolds h hinv ht
  | block => exact blockTurn_keeps_ibHolds h hinv ht
  | wait => exact hostWait_keeps_ibHolds h hinv ht
  | reset =>
    cases ht
    exact hinv.applyReset.ibHolds_of_not_busy s.applyReset_busy

/-- Settles O35: where the schedule is empty the block has its turn, else the first entry has its own. -/
theorem stepKeepsIbSums : Obligations.StepKeepsIbSums := by
  intro s t hinv h ht
  cases hs : s.agenda with
  | nil => exact blockTurn_keeps_ibHolds h hinv (step_of_idle_host hs ▸ ht)
  | cons u rest => exact takeTurn_keeps_ibHolds (h.setAgenda hinv rest) (hinv.setAgenda rest) (step_of_turn hs ▸ ht)

end Sys2Proof.Machine

/-! # Proofs: a run of REPLACE, from START to DONE (42_replace.md R162; 44_launch_and_status.md R221) -/

namespace Sys2Proof.Machine

theorem execReplace_start {s : State} (hb : s.busy = false) (hv : validateOp .replace s.regs = none)
    (hr : commandResident .replace s = true) : execReplace s = .next (s.enter .rpass) := by
  simp [execReplace, hb, launch_enter hv hr]

theorem execReplace_rpass {s : State} (hb : s.busy = true) (hv : validateOp .replace s.regs = none)
    (hp : s.phase = .rpass) : execReplace s = .next (rpassStep s) := by
  simp [execReplace, hb, hp, whenValid_ok hv]

theorem rpassStep_some {k : Nat} {s : State} (h : nextCoord s.regs.srcPlane.count s = some k) :
    rpassStep s = (s.storeDst k (recombineSample s k)).processed k := by
  simp [rpassStep, h]

theorem rpassStep_none {s : State} (h : nextCoord s.regs.srcPlane.count s = none) :
    rpassStep s = s.complete := by
  simp [rpassStep, h]

theorem recombineSample_fits (s : State) (k : Nat) : (recombineSample s k).fits s.regs.fmt := by
  by_cases hf : s.regs.fmt = .f32
  · rw [recombineSample_flt hf]
    exact hf
  · rw [recombineSample_int hf]
    exact ⟨hf, (clamp_range s.regs.fmt.max_nonneg).2⟩

/-- The recombined samples stay where only samples of the command's DST change (20_memory.md R59). -/
theorem recombineSample_eq_of_frame {s s' : State} {k : Nat} (hv : validateOp .replace s.regs = none)
    (hr : s'.regs = s.regs) (ha : s'.accFmt = s.accFmt)
    (hm : ∀ a, ¬ s.regs.dstPlane.sampleByte a → s'.mem.read a = s.mem.read a) (hk : k < s.regs.srcPlane.count) :
    recombineSample s' k = recombineSample s k := by
  obtain ⟨hx, hy⟩ := coord_lt hk
  have hbase := rawSample_input_eq hv (q := s.regs.srcPlane) (by simp [inputPlanes]) hx hy hm
  have hdetail := rawSample_input_eq hv (q := s.regs.detailPlane) (by simp [inputPlanes]) hx hy hm
  by_cases hf : s.regs.fmt = .f32
  · rw [recombineSample_flt hf, recombineSample_flt (hr ▸ hf), hr, ha]
    simp only [loadFp, hbase, hdetail]
  · rw [recombineSample_int hf, recombineSample_int (hr ▸ hf), hr]
    simp only [loadInt, hbase, hdetail]

section Replace

variable {s₀ : State}

/-- A state of RPASS in a run of REPLACE. -/
def InRpass (s₀ s : State) : Prop :=
  RunFrom .replace s₀ s ∧ s.phase = .rpass ∧ Stored .replace s₀ s

/-- START enters RPASS with nothing stored (44_launch_and_status.md R213). -/
theorem replace_start (hinv : s₀.Inv) (hb : s₀.busy = false) (hd : decode s₀.regs.cmd = .instr .replace)
    (hv : validateOp .replace s₀.regs = none) (hr : commandResident .replace s₀ = true) :
    exec .replace s₀ = .next (s₀.enter .rpass) ∧ InRpass s₀ (s₀.enter .rpass) :=
  ⟨execReplace_start hb hv hr, ⟨hinv.enter hb hd hv hr rfl, State.ibHolds_of_replace hd, s₀.enter_busy _, rfl, rfl⟩,
    rfl, .of_mem_eq rfl rfl rfl⟩

/-- When all is stored, the next step completes (44_launch_and_status.md R215). -/
theorem InRpass.complete {s : State} (h : InRpass s₀ s) (hv : validateOp .replace s₀.regs = none)
    (hlen : s.doneSet.length = s₀.regs.srcPlane.count) :
    exec .replace s = .next s.complete ∧
      ∀ k < s₀.regs.srcPlane.count, storedAs (recombineSample s₀ k) (s.dstRaw k) := by
  obtain ⟨⟨hinv, -, hb, hregs, -⟩, hp, hst⟩ := h
  have hall := all_done_of_length hinv.doneRising hinv.doneBound (hregs ▸ hlen)
  refine ⟨?_, fun k hk => hst.new k (hall k (hregs ▸ hk))⟩
  rw [exec_replace, execReplace_rpass hb (hregs ▸ hv) hp, rpassStep_none (nextCoord_none.mpr hall)]

/-- A coordinate of RPASS stores the recombination of the samples at START, and leads on in RPASS (42_replace.md R162). -/
theorem InRpass.step (hd : decode s₀.regs.cmd = .instr .replace) (hv : validateOp .replace s₀.regs = none)
    {s : State} {k : Nat} (h : InRpass s₀ s) (hk : nextCoord s₀.regs.srcPlane.count s = some k) :
    ∃ t, exec .replace s = .next t ∧ InRpass s₀ t ∧ t.doneSet = insertCoord k s.doneSet := by
  obtain ⟨hrun, hp, hst⟩ := h
  have ⟨hinv, _, hb, hregs, hacc⟩ := hrun
  have hd' : decode s.regs.cmd = .instr .replace := hregs ▸ hd
  have hv' : validateOp .replace s.regs = none := hregs ▸ hv
  have hlt := (nextCoord_some hk).1
  have he : exec .replace s = .next ((s.storeDst k (recombineSample s₀ k)).processed k) := by
    rw [exec_replace, execReplace_rpass hb hv' hp, rpassStep_some (hregs ▸ hk),
      recombineSample_eq_of_frame hv hregs hacc hst.outside hlt]
  refine ⟨_, he, ⟨⟨exec_keeps_inv hinv hd' he, State.ibHolds_of_replace (exec_regs he ▸ hd'), ?_, ?_, ?_⟩, ?_,
    hst.storeDst_processed hrun hv (hregs ▸ hlt) (hregs ▸ recombineSample_fits s₀ k)⟩, ?_⟩
  · exact (State.busy_congr (by simp)).trans hb
  · simpa using hregs
  · simpa using hacc
  · simpa using hp
  · simp

/-- The whole of REPLACE: from START on, `W H + 2` steps lead to DONE, with the recombined samples in DST and every other
byte as it was (42_replace.md R162; 44_launch_and_status.md R218; 20_memory.md R61). -/
theorem replace_runs_to_done (hinv : s₀.Inv) (hb : s₀.busy = false) (hd : decode s₀.regs.cmd = .instr .replace)
    (hv : validateOp .replace s₀.regs = none) (hr : commandResident .replace s₀ = true) :
    ∃ t, iterExec .replace (s₀.regs.srcPlane.count + 2) s₀ = .next t ∧
      t.status = statusWord .done 0 ∧ t.phase = .none ∧ t.regs = s₀.regs ∧
      (∀ k < s₀.regs.srcPlane.count, storedAs (recombineSample s₀ k) (t.dstRaw k)) ∧
      (∀ a, ¬ s₀.regs.dstPlane.sampleByte a → t.mem.read a = s₀.mem.read a) := by
  obtain ⟨he₀, h₁⟩ := replace_start hinv hb hd hv hr
  obtain ⟨s₂, he₁, h₂, hl₂⟩ := iterExec_pass (fun _ _ h hk => InRpass.step hd hv h hk) s₀.regs.srcPlane.count
    (s₀.enter .rpass) h₁ (by simp)
  obtain ⟨he₂, hnew⟩ := h₂.complete hv (by simpa using hl₂)
  obtain ⟨hrun, -, hst⟩ := h₂
  refine ⟨s₂.complete, ?_, rfl, rfl, hrun.regs, hnew, hst.outside⟩
  calc iterExec .replace (s₀.regs.srcPlane.count + 2) s₀
      = iterExec .replace (1 + (s₀.regs.srcPlane.count + 1)) s₀ := by
        congr 1
        omega
    _ = iterExec .replace (s₀.regs.srcPlane.count + 1) (s₀.enter .rpass) := iterExec_add (iterExec_one he₀)
    _ = iterExec .replace 1 s₂ := iterExec_add he₁
    _ = .next s₂.complete := iterExec_one he₂

end Replace

end Sys2Proof.Machine

/-! # Proofs: the order of coordinates (20_memory.md R62)

A run leaves the command's values in the samples of DST and every other byte as it was. On an integer format these values
fix the bytes, so they fix the whole memory, and the order of coordinates does not enter. -/

namespace Sys2Proof.Machine

/-- A run of the instruction that CMD holds keeps the invariant. -/
theorem iterExec_keeps_inv {i : Instr} : ∀ {n : Nat} {s t : State}, s.Inv → decode s.regs.cmd = .instr i →
    iterExec i n s = .next t → t.Inv
  | 0, s, t, h, _, ht => by
    cases ht
    exact h
  | n + 1, s, t, h, hd, ht => by
    simp only [iterExec] at ht
    cases he : exec i s <;> rw [he] at ht
    · exact iterExec_keeps_inv (exec_keeps_inv h hd he) (exec_regs he ▸ hd) ht
    · cases ht
    · cases ht

/-- Either command, from START to DONE (44_launch_and_status.md R218). -/
theorem command_runs_to_done {i : Instr} {s : State} (hinv : s.Inv) (hb : s.busy = false)
    (hd : decode s.regs.cmd = .instr i) (hv : validateOp i s.regs = none) (hr : commandResident i s = true) :
    ∃ t, iterExec i (commandSteps i s) s = .next t ∧ t.Inv ∧ t.status = statusWord .done 0 ∧ t.regs = s.regs ∧
      (∀ k < s.regs.srcPlane.count, storedAs (commandValue i s k) (t.dstRaw k)) ∧
      (∀ a, ¬ s.regs.dstPlane.sampleByte a → t.mem.read a = s.mem.read a) := by
  cases i with
  | extract radius =>
    obtain ⟨t, ht, hst, -, hregs, hnew, hout⟩ := extract_runs_to_done hinv hb hd hv hr
    exact ⟨t, ht, iterExec_keeps_inv hinv hd ht, hst, hregs, hnew, hout⟩
  | replace =>
    obtain ⟨t, ht, hst, -, hregs, hnew, hout⟩ := replace_runs_to_done hinv hb hd hv hr
    exact ⟨t, ht, iterExec_keeps_inv hinv hd ht, hst, hregs, hnew, hout⟩

/-- On an integer format the stored number of a command's value is one, since no NaN is drawn. -/
theorem commandValue_storedAs_unique {i : Instr} {s : State} {k a b : Nat} (hf : s.regs.fmt ≠ .f32)
    (ha : storedAs (commandValue i s k) a) (hb : storedAs (commandValue i s k) b) : a = b := by
  cases i with
  | extract radius => exact extractValue_storedAs_unique hf ha hb
  | replace =>
    rw [commandValue_replace, recombineSample_int hf] at ha hb
    exact ha.trans hb.symm

/-! ## The samples and the bytes around them fix memory -/

/-- Lists of bytes of one length that spell the same number are equal (20_memory.md R53). -/
theorem leNat_injective : ∀ {bs cs : List Byte}, bs.length = cs.length → leNat bs = leNat cs → bs = cs
  | [], [], _, _ => rfl
  | b :: bs, c :: cs, hlen, h => by
    have hb := b.isLt
    have hc := c.isLt
    simp only [leNat] at h
    have hhead : b = c := BitVec.eq_of_toNat_eq (by omega)
    have htail : bs = cs := leNat_injective (by simpa using hlen) (by omega)
    rw [hhead, htail]

@[simp] theorem Memory.readBytes_length (m : Memory) (a n : Nat) : (m.readBytes a n).length = n := by
  induction n generalizing a with
  | zero => rfl
  | succ n ih => simp [Memory.readBytes, ih]

theorem Memory.read_eq_of_readBytes {m n : Memory} : ∀ {c a b : Nat}, m.readBytes a c = n.readBytes a c →
    a ≤ b → b < a + c → m.read b = n.read b
  | 0, _, _, _, h1, h2 => by omega
  | c + 1, a, b, h, h1, h2 => by
    simp only [Memory.readBytes, List.cons.injEq] at h
    by_cases hba : b = a
    · exact hba ▸ h.1
    · exact Memory.read_eq_of_readBytes h.2 (by omega) (by omega)

/-- Two memories in canonical form are equal where they agree on the samples of a plane and on all bytes that belong to
none. -/
theorem Memory.ext_of_samples {m n : Memory} {p : Plane} (hm : m.wf = true) (hn : n.wf = true)
    (hsam : ∀ x y, x < p.width → y < p.height → rawSample m p x y = rawSample n p x y)
    (hout : ∀ a, ¬ p.sampleByte a → m.read a = n.read a) : m = n := by
  refine Memory.ext hm hn fun a => ?_
  by_cases ha : p.sampleByte a
  · obtain ⟨x, y, hx, hy, hlo, hhi⟩ := ha
    exact Memory.read_eq_of_readBytes (leNat_injective (by simp) (hsam x y hx hy)) hlo hhi
  · exact hout a ha

/-- The samples of DST, by coordinate instead of by number. -/
theorem rawSample_dst_eq_dstRaw {s : State} {x : Nat} (y : Nat) (hx : x < s.regs.srcPlane.width) :
    rawSample s.mem s.regs.dstPlane x y = s.dstRaw (coordKey s.regs.srcPlane.width x y) := by
  obtain ⟨ex, ey⟩ := coord_of_key y hx
  rw [State.dstRaw, Regs.dstPlane_width, ex, ey]

/-- Settles O38: both runs leave the same values in DST and the same bytes around them. -/
theorem coordinateOrderIsUnobservable : Obligations.CoordinateOrderIsUnobservable := by
  intro s i ps hinv hb hd hv hr hf
  have hinv' : { s with picks := ps }.Inv := hinv.congr rfl rfl rfl rfl rfl rfl hinv.memWf
  obtain ⟨t, ht, htinv, htst, htregs, htnew, htout⟩ := command_runs_to_done hinv hb hd hv hr
  obtain ⟨u, hu, huinv, hust, huregs, hunew, huout⟩ :=
    command_runs_to_done (s := { s with picks := ps }) hinv' hb hd hv hr
  have hvalue : ∀ k, commandValue i { s with picks := ps } k = commandValue i s k := fun k => by cases i <;> rfl
  refine ⟨t, u, ht, hu, htst, hust, Memory.ext_of_samples (p := s.regs.dstPlane) htinv.memWf huinv.memWf ?_ ?_⟩
  · intro x y hx hy
    have hk : coordKey s.regs.srcPlane.width x y < s.regs.srcPlane.count := coordKey_lt hx hy
    have hraw : t.dstRaw (coordKey s.regs.srcPlane.width x y) = u.dstRaw (coordKey s.regs.srcPlane.width x y) :=
      commandValue_storedAs_unique (i := i) hf (htnew _ hk) (hvalue _ ▸ hunew _ hk)
    have htx := rawSample_dst_eq_dstRaw (s := t) y (htregs ▸ hx)
    have hux := rawSample_dst_eq_dstRaw (s := u) y (huregs ▸ hx)
    rw [htregs] at htx
    rw [huregs] at hux
    rw [htx, hux]
    exact hraw
  · exact fun a ha => (htout a ha).trans (huout a ha).symm

end Sys2Proof.Machine

/-! # Proofs: the encoding of the command word (30_encoding.md R81 to R83, R95, R97)

A word is its four fields, and the decoder tests three of them, so its tests and the match and mask rows of the opcode
table are the same condition. The fourth is the radius: on -128 to 127, writing it modulo 256 and reading it as two's
complement are inverse to each other. -/

namespace Sys2Proof

/-! ## The fields of a word -/

theorem bits_lt (w : Word) (hi lo : Nat) : bits w hi lo < 2 ^ (hi + 1 - lo) :=
  Nat.mod_lt _ (Nat.two_pow_pos _)

/-- A field is a slice of its word (00_scope.md R12). -/
theorem bits_eq_extractLsb' (w : Word) (hi lo : Nat) : bits w hi lo = (w.extractLsb' lo (hi + 1 - lo)).toNat := by
  rw [BitVec.extractLsb'_toNat, Nat.shiftRight_eq_div_pow, bits]

/-- The four fields of a command word spell it (30_encoding.md R81). -/
theorem toNat_eq_fields (w : Word) :
    w.toNat = bits w 31 16 * 2 ^ 16 + bits w 15 8 * 2 ^ 8 + bits w 7 4 * 2 ^ 4 + bits w 3 0 := by
  have hw := w.isLt
  simp only [bits]
  omega

/-- The mask of the opcode table clears the RADIUS field and keeps the others (30_encoding.md R95). -/
theorem toNat_and_opcodeMask (w : Word) :
    (w &&& 0xFFFF00FF).toNat = bits w 31 16 * 2 ^ 16 + bits w 7 4 * 2 ^ 4 + bits w 3 0 := by
  have hparts : w &&& (0xFFFF00FF : Word) = w >>> 16 <<< 16 ||| w &&& (0xFF : Word) := by
    ext i hi
    interval_cases i <;> simp
  have hhigh : (w >>> 16 <<< 16).toNat = bits w 31 16 <<< 16 := by
    have hw := w.isLt
    simp only [BitVec.toNat_shiftLeft, BitVec.toNat_ushiftRight, Nat.shiftRight_eq_div_pow, Nat.shiftLeft_eq, bits]
    omega
  have hlow : (w &&& (0xFF : Word)).toNat = bits w 7 4 * 2 ^ 4 + bits w 3 0 := by
    have hmod : (w &&& (0xFF : Word)).toNat = w.toNat % 2 ^ 8 := Nat.and_two_pow_sub_one_eq_mod w.toNat 8
    simp only [hmod, bits]
    omega
  have hlt : bits w 7 4 * 2 ^ 4 + bits w 3 0 < 2 ^ 16 := by
    have h4 := bits_lt w 7 4
    have h0 := bits_lt w 3 0
    omega
  rw [hparts, BitVec.toNat_or, hhigh, hlow, ← Nat.shiftLeft_add_eq_or_of_lt hlt, Nat.shiftLeft_eq, Nat.add_assoc]

/-- A row of the opcode table asks for zero reserved fields and its operation code (30_encoding.md R82, R95). -/
theorem and_opcodeMask_eq_iff {w : Word} {op : Nat} (hop : op < 2 ^ 4) :
    w &&& 0xFFFF00FF = BitVec.ofNat 32 op ↔ bits w 31 16 = 0 ∧ bits w 7 4 = 0 ∧ bits w 3 0 = op := by
  have h0 := bits_lt w 3 0
  have h4 := bits_lt w 7 4
  rw [← BitVec.toNat_inj, toNat_and_opcodeMask, BitVec.toNat_ofNat]
  omega

/-! ## Two's complement -/

/-- `sext` is the signed value of a bit vector, for every width (00_scope.md R12). -/
theorem sext_toNat {n : Nat} (v : BitVec n) (hn : 0 < n) : sext n v.toNat = v.toInt := by
  have hpow : 2 ^ (n - 1) * 2 = 2 ^ n := Nat.two_pow_pred_mul_two hn
  rw [sext, BitVec.toInt_eq_toNat_cond]
  push_cast
  split <;> split <;> omega

/-- Reading the byte of a radius gives the radius back (30_encoding.md R83). -/
theorem sext_emod_256 {r : Int} (hlo : -128 ≤ r) (hhi : r ≤ 127) : sext 8 (r % 256).toNat = r := by
  rw [sext]
  split <;> omega

/-- The radius that a byte holds is in range (30_encoding.md R83). -/
theorem sext_byte_range {b : Nat} (hb : b < 2 ^ 8) : -128 ≤ sext 8 b ∧ sext 8 b ≤ 127 := by
  rw [sext]
  split <;> omega

/-- The radius that a byte holds is written as this byte (30_encoding.md R94). -/
theorem sext_byte_emod {b : Nat} (hb : b < 2 ^ 8) : (sext 8 b % 256).toNat = b := by
  rw [sext]
  split <;> omega

/-! ## The decoder and the encoder -/

theorem Instr.wf_extract {radius : Int} : (Instr.extract radius).wf = true ↔ -128 ≤ radius ∧ radius ≤ 127 := by
  simp [Instr.wf]

/-- What the decoder reads as EXTRACT (30_encoding.md R82, R83). -/
theorem decode_eq_extract_iff {w : Word} {radius : Int} : decode w = .instr (.extract radius) ↔
    (bits w 31 16 = 0 ∧ bits w 7 4 = 0 ∧ bits w 3 0 = 1) ∧ sext 8 (bits w 15 8) = radius := by
  unfold decode
  split_ifs <;> simp <;> omega

/-- What the decoder reads as REPLACE (30_encoding.md R82, R97). -/
theorem decode_eq_replace_iff {w : Word} : decode w = .instr .replace ↔
    bits w 31 16 = 0 ∧ bits w 7 4 = 0 ∧ bits w 3 0 = 2 := by
  unfold decode
  split_ifs <;> simp <;> omega

/-- The row of EXTRACT (30_encoding.md R95). -/
theorem decode_eq_extract_iff_row {w : Word} {radius : Int} : decode w = .instr (.extract radius) ↔
    w &&& 0xFFFF00FF = 0x00000001 ∧ (w.extractLsb' 8 8).toInt = radius := by
  rw [decode_eq_extract_iff, ← and_opcodeMask_eq_iff (by decide), bits_eq_extractLsb' w 15 8, sext_toNat _ (by decide)]
  rfl

/-- The row of REPLACE (30_encoding.md R95). -/
theorem decode_eq_replace_iff_row {w : Word} : decode w = .instr .replace ↔ w &&& 0xFFFF00FF = 0x00000002 := by
  rw [decode_eq_replace_iff, ← and_opcodeMask_eq_iff (by decide)]
  rfl

/-- Decoding the word of a well-formed instruction (30_encoding.md R81 to R83). -/
theorem decode_encode {i : Instr} (h : i.wf = true) : decode (encode i) = .instr i := by
  cases i with
  | extract radius =>
    obtain ⟨hrsv1, hrsv0, hop, hradius⟩ := Laws.EncodingFields.extract radius h
    obtain ⟨hlo, hhi⟩ := Instr.wf_extract.mp h
    exact decode_eq_extract_iff.mpr ⟨⟨hrsv1, hrsv0, hop⟩, hradius ▸ sext_emod_256 hlo hhi⟩
  | replace =>
    obtain ⟨hrsv1, hrsv0, hop, -⟩ := Laws.EncodingFields.replace h
    exact decode_eq_replace_iff.mpr ⟨hrsv1, hrsv0, hop⟩

/-- Encoding the EXTRACT that a word holds gives the word: all its fields are read (30_encoding.md R81). -/
theorem wf_and_encode_of_decode_extract {w : Word} {radius : Int} (h : decode w = .instr (.extract radius)) :
    (Instr.extract radius).wf = true ∧ encode (.extract radius) = w := by
  obtain ⟨⟨hrsv1, hrsv0, hop⟩, rfl⟩ := decode_eq_extract_iff.mp h
  have hb := bits_lt w 15 8
  refine ⟨Instr.wf_extract.mpr (sext_byte_range hb), BitVec.eq_of_toNat_eq ?_⟩
  have hw := toNat_eq_fields w
  rw [encode, sext_byte_emod hb, BitVec.toNat_ofNat]
  omega

/-! ## Validation of a decoded command -/

namespace Machine

variable {r : Regs}

/-- A word that is no instruction is E_OP (60_exceptions.md R231). -/
theorem validate_of_rejected {e : DecodeError} (h : decode r.cmd = .rejected e) : validate r = some .eOp := by
  simp [validate, h]

theorem decodeCommand_of_rejected {e : DecodeError} (h : decode r.cmd = .rejected e) :
    decodeCommand r = .rejected .eOp := by
  simp [decodeCommand, h]

theorem validate_of_instr {i : Instr} (h : decode r.cmd = .instr i) : validate r = validateOp i r := by
  simp [validate, h]

/-- A command that fails a check is the rejection of that check (30_encoding.md R96). -/
theorem decodeCommand_of_invalid {i : Instr} {c : RejectCode} (h : decode r.cmd = .instr i)
    (hv : validateOp i r = some c) : decodeCommand r = .rejected c := by
  simp [decodeCommand, h, hv]

/-- An accepted EXTRACT, with its step and planes (30_encoding.md R96). -/
theorem decodeCommand_of_extract {radius : Int} (h : decode r.cmd = .instr (.extract radius))
    (hv : validateOp (.extract radius) r = none) :
    decodeCommand r = .extract (dilation radius) r.srcPlane r.dstPlane := by
  simp [decodeCommand, h, hv]

/-- An accepted REPLACE, with its planes (30_encoding.md R96). -/
theorem decodeCommand_of_replace (h : decode r.cmd = .instr .replace) (hv : validateOp .replace r = none) :
    decodeCommand r = .replace r.srcPlane r.detailPlane r.dstPlane := by
  simp [decodeCommand, h, hv]

end Machine

/-! ## The statements -/

/-- Settles O4: the encoder writes the fields that the decoder tests. -/
theorem decodeOfEncode : Obligations.DecodeOfEncode := fun _ h => decode_encode h

/-- Settles O5: each row is what the decoder reads as its instruction, so a word of neither row holds none. -/
theorem decodeFollowsOpcodeTable : Obligations.DecodeFollowsOpcodeTable := by
  intro w
  refine ⟨fun h => decode_eq_extract_iff_row.mpr ⟨h, rfl⟩, decode_eq_replace_iff_row.mpr, fun h1 h2 => ?_⟩
  cases hd : decode w with
  | instr i =>
    cases i with
    | extract radius => exact absurd (decode_eq_extract_iff_row.mp hd).1 h1
    | replace => exact absurd (decode_eq_replace_iff_row.mp hd) h2
  | rejected e =>
    refine ⟨⟨e, rfl⟩, ?_⟩
    rintro r rfl
    exact Machine.validate_of_rejected hd

/-- Settles O6: REPLACE leaves the RADIUS field unread, and EXTRACT leaves none. -/
theorem encodeOfDecode : Obligations.EncodeOfDecode := by
  intro w i h
  cases i with
  | extract radius => exact wf_and_encode_of_decode_extract h
  | replace => exact ⟨rfl, (decode_eq_replace_iff_row.mp h).symm⟩

/-- Settles O7, word by word. -/
theorem sampleWordsDecode : Obligations.SampleWordsDecode := by
  refine ⟨?_, ?_, ?_, ?_, ?_, ?_, ?_, ?_⟩ <;> decide

/-- Settles O14: the word is no instruction, or its command fails a check, or it is accepted. -/
theorem commandDecodingIsTotal : Obligations.CommandDecodingIsTotal := by
  intro r
  cases hd : decode r.cmd with
  | rejected e =>
    simp [Machine.decodeCommand_of_rejected hd, Machine.validate_of_rejected hd]
  | instr i =>
    rw [Machine.validate_of_instr hd]
    cases hv : Machine.validateOp i r with
    | some c => simp [Machine.decodeCommand_of_invalid hd hv]
    | none =>
      cases i with
      | extract radius =>
        have hc := Machine.decodeCommand_of_extract hd hv
        exact ⟨by simp [hc], fun _ => .inl ⟨radius, rfl, hc⟩⟩
      | replace =>
        have hc := Machine.decodeCommand_of_replace hd hv
        exact ⟨by simp [hc], fun _ => .inr ⟨rfl, hc⟩⟩

end Sys2Proof

/-! # Proofs: the pseudo-instructions (30_encoding.md R93, R94)

A descriptor is written by register writes alone, so its pseudo-instruction is one case of a list of writes. -/

namespace Sys2Proof.Machine

/-! ## Lists of register writes -/

/-- The turns that write these registers, in order (30_encoding.md R93). -/
def writeTurns (ws : List (RegName × Word)) : List Turn := ws.map fun w => wr w.1 w.2

/-- The registers after these writes, in order. -/
def Regs.setAll (r : Regs) (ws : List (RegName × Word)) : Regs := ws.foldl (fun r w => r.set w.1 w.2) r

/-- `WR reg, value` on a block that is not BUSY (30_encoding.md R93). -/
theorem step_wr {s : State} {n : RegName} {v : Word} {rest : List Turn} (hb : s.busy = false)
    (hs : s.agenda = wr n v :: rest) : step s = .next { s with agenda := rest, regs := s.regs.set n v } :=
  (step_of_turn hs).trans (hostWrite_storage (s := { s with agenda := rest }) hb n v)

/-- The machine's run goes on from where its first step leads. -/
theorem core_run_succ {k : Nat} {s t : State} (h : step s = .next t) : core.run (k + 1) s = core.run k t := by
  have hcore : core.step s = .next t := h
  simp only [Host.Core.run, hcore]

/-- Register writes on a block that is not BUSY change the registers alone (30_encoding.md R93). -/
theorem core_run_writeTurns {rest : List Turn} : ∀ {ws : List (RegName × Word)} {s : State}, s.busy = false →
    s.agenda = writeTurns ws ++ rest →
    core.run ws.length s = .next { s with agenda := rest, regs := s.regs.setAll ws }
  | [], s, _, hs => by
    have hs' : s.agenda = rest := hs
    subst hs'
    rfl
  | (n, v) :: ws, s, hb, hs =>
    (core_run_succ (step_wr hb hs)).trans
      (core_run_writeTurns (s := { s with agenda := writeTurns ws ++ rest, regs := s.regs.set n v }) hb rfl)

/-! ## Descriptors, as lists of register writes -/

/-- DIM holds width and height (30_encoding.md R86). -/
theorem dim_readback {w h : Nat} (hw : w < 2 ^ 16) (hh : h < 2 ^ 16) :
    dimWidth (BitVec.ofNat 32 (h * 2 ^ 16 + w)) = w ∧ dimHeight (BitVec.ofNat 32 (h * 2 ^ 16 + w)) = h := by
  simp only [dimWidth, dimHeight, bits, BitVec.toNat_ofNat]
  omega

/-- The codes of the formats are read as these formats (30_encoding.md R85). -/
@[simp] theorem PixFmt.ofCode_code (f : PixFmt) : PixFmt.ofCode f.code = some f := by
  cases f <;> rfl

theorem plane0_eq_writeTurns (addr stride : Word) (w h : Nat) (f : PixFmt) : plane0 addr stride w h f =
    writeTurns [(.p0Addr, addr), (.p0Stride, stride), (.p0Dim, BitVec.ofNat 32 (h * 2 ^ 16 + w)), (.p0Fmt, f.code)] :=
  rfl

theorem plane1_eq_writeTurns (addr stride : Word) (w h : Nat) (f : PixFmt) : plane1 addr stride w h f =
    writeTurns [(.p1Addr, addr), (.p1Stride, stride), (.p1Dim, BitVec.ofNat 32 (h * 2 ^ 16 + w)), (.p1Fmt, f.code)] :=
  rfl

theorem dest_eq_writeTurns (addr stride : Word) :
    dest addr stride = writeTurns [(.dstAddr, addr), (.dstStride, stride)] := rfl

/-! ## Launching and waiting -/

/-- START of the word of a well-formed instruction runs it (30_encoding.md R94; 44_launch_and_status.md R213). -/
theorem step_startTurn_of_encode {s : State} {i : Instr} {rest : List Turn} (hb : s.busy = false) (hi : i.wf = true)
    (hcmd : s.regs.cmd = encode i) (hs : s.agenda = startTurn :: rest) :
    step s = exec i { s with agenda := rest } := by
  have hd : decode s.regs.cmd = .instr i := hcmd ▸ decode_encode hi
  rw [step_of_turn hs, takeTurn_startTurn]
  exact start_of_decode (s := { s with agenda := rest }) hb hd

/-- `WAIT` on a block that is not BUSY answers STATUS at once (30_encoding.md R94). -/
theorem hostWait_of_not_busy {s : State} (hb : s.busy = false) :
    hostWait s = .next (s.answer (.register s.status)) := by
  simp [hostWait, hb]

/-- Settles O60: a descriptor is a list of register writes, a launch is one register write and START. -/
theorem pseudoInstructionsExpand : Obligations.PseudoInstructionsExpand := by
  intro s addr stride w h f i rest hb hw hh hi
  obtain ⟨hwidth, hheight⟩ := dim_readback hw hh
  refine ⟨fun hs => ?_, fun hs => ?_, fun hs => ?_, fun hs => ?_, fun hs => ?_⟩
  · rw [plane0_eq_writeTurns] at hs
    have hrun := core_run_writeTurns hb hs
    exact ⟨_, hrun, hwidth, hheight, f.ofCode_code⟩
  · rw [plane1_eq_writeTurns] at hs
    have hrun := core_run_writeTurns hb hs
    exact ⟨_, hrun, hwidth, hheight, f.ofCode_code⟩
  · rw [dest_eq_writeTurns] at hs
    exact core_run_writeTurns hb hs
  · exact ⟨_, step_wr hb hs, rfl, step_startTurn_of_encode hb hi rfl rfl⟩
  · exact (step_of_turn hs).trans (hostWait_of_not_busy (s := { s with agenda := rest }) hb)

end Sys2Proof.Machine

/-! # Proofs: the pass and its range lemma (40_blur.md R111 to R119, R125)

Where one reflection suffices, the five taps of a pass are samples of the axis at mirrored positions, the middle one the
centre itself. The steps of HPASS and the bounds of the sums are that fact about one pass; the vertical sum is a pass over
passes, so its bounds are those of one pass twice. -/

namespace Sys2Proof.Machine

/-! ## The range lemma and the size check -/

/-- Where one reflection does not suffice, the outermost tap of the last centre leaves the plane (40_blur.md R113). -/
theorem mirror_last_centre_neg {size step : Nat} (h1 : 1 ≤ size) (hs : size < 2 * step + 1) :
    mirror (((size - 1 : Nat) : Int) + 2 * step) size < 0 := by
  have hpos : ¬ ((size - 1 : Nat) : Int) + 2 * step < 0 := by omega
  have hpast : (size : Int) ≤ ((size - 1 : Nat) : Int) + 2 * step := by omega
  rw [mirror, if_neg hpos, if_pos hpast]
  omega

/-- The range lemma of the mirror resolver, both ways (40_blur.md R113). -/
theorem mirror_mem_range_iff {size step : Nat} (h1 : 1 ≤ size) :
    (∀ (c : Nat) (k : Int), c < size → -2 ≤ k → k ≤ 2 →
      0 ≤ mirror (c + k * step) size ∧ mirror (c + k * step) size ≤ size - 1) ↔ 2 * step + 1 ≤ size := by
  constructor
  · intro h
    by_contra hs
    have hin := (h (size - 1) 2 (by omega) (by decide) le_rfl).1
    have hout := mirror_last_centre_neg h1 (Nat.lt_of_not_le hs)
    omega
  · intro hs c k hc hk1 hk2
    obtain ⟨hlo, hhi⟩ := mirror_mem_range hs hc hk1 hk2
    exact ⟨hlo, by omega⟩

theorem two_mul_dilation {radius : Int} (h : 1 ≤ radius) : 2 * dilation radius = 2 ^ radius.toNat := by
  have hr : radius.toNat = (radius - 1).toNat + 1 := by omega
  rw [dilation, hr, pow_succ, Nat.mul_comm]

theorem natCast_dilation (radius : Int) : (dilation radius : Int) = 2 ^ (radius - 1).toNat := by
  simp [dilation]

/-- What size EXTRACT accepts along an axis (60_exceptions.md R235 (d)). -/
theorem tooSmall_extract_eq_false_iff {radius : Int} {size : Nat} (h : 1 ≤ radius) :
    tooSmall (.extract radius) size = false ↔ 2 ^ radius.toNat + 1 ≤ size := by
  rw [tooSmall, Bool.not_eq_false', oneReflectionSuffices_iff, two_mul_dilation h]

/-- Settles O49, by the range lemma and the size check that validation makes of both axes. -/
theorem mirrorRangeIsExact : Obligations.MirrorRangeIsExact := by
  refine ⟨fun size step h1 => mirror_mem_range_iff h1, fun radius size h => tooSmall_extract_eq_false_iff h, ?_⟩
  intro r radius size c k hv hsize hc hk1 hk2
  have hs : 2 * dilation radius + 1 ≤ size := by
    obtain ⟨hw, hh⟩ := accepted_step hv
    rcases hsize with rfl | rfl
    · exact hw
    · exact hh
  refine ⟨?_, tapCoord_lt _ c k (by omega)⟩
  rw [tapCoord_eq_mirror hs hc hk1 hk2, Int.toNat_of_nonneg (mirror_mem_range hs hc hk1 hk2).1, natCast_dilation]

/-! ## One pass -/

/-- The middle tap is the centre (40_blur.md R112). -/
theorem tapCoord_zero {size c : Nat} (step : Nat) (hc : c < size) : tapCoord size step c 0 = c := by
  have hm : mirror ((c : Int) + 0 * step) size = c := by
    rw [mirror, if_neg (by omega), if_neg (by omega), Int.zero_mul, Int.add_zero]
  rw [tapCoord, hm]
  exact (if_pos (by omega)).trans (Int.toNat_natCast c)

/-- The sum of a pass, written out over its taps (40_blur.md R116). -/
theorem passInt_eq (f : Nat → Int) (size step c : Nat) :
    passInt f size step c =
      1 * f (tapCoord size step c (-2)) + 4 * f (tapCoord size step c (-1)) + 6 * f (tapCoord size step c 0) +
        4 * f (tapCoord size step c 1) + 1 * f (tapCoord size step c 2) := by
  simp [passInt, taps]

section Mirrored

variable {size step c : Nat} (hs : 2 * step + 1 ≤ size) (hc : c < size)

include hs hc

/-- The five taps where one reflection suffices: the mirrored positions around the centre (40_blur.md R111, R115). -/
theorem tapCoord_taps :
    tapCoord size step c (-2) = (mirror (c - 2 * step) size).toNat ∧
    tapCoord size step c (-1) = (mirror (c - step) size).toNat ∧
    tapCoord size step c 0 = (mirror c size).toNat ∧
    tapCoord size step c 1 = (mirror (c + step) size).toNat ∧
    tapCoord size step c 2 = (mirror (c + 2 * step) size).toNat := by
  have htap {k : Int} {pos : Int} (h1 : -2 ≤ k) (h2 : k ≤ 2) (hpos : (c : Int) + k * step = pos) :
      tapCoord size step c k = (mirror pos size).toNat := hpos ▸ tapCoord_eq_mirror hs hc h1 h2
  exact ⟨htap (by decide) (by decide) (by ring), htap (by decide) (by decide) (by ring),
    htap (by decide) (by decide) (by ring), htap (by decide) (by decide) (by ring),
    htap (by decide) (by decide) (by ring)⟩

/-- The integer sum over the mirrored positions (40_blur.md R116). -/
theorem passInt_eq_mirrored (f : Nat → Int) :
    passInt f size step c =
      1 * f (mirror (c - 2 * step) size).toNat + 4 * f (mirror (c - step) size).toNat +
        6 * f (mirror c size).toNat + 4 * f (mirror (c + step) size).toNat +
        1 * f (mirror (c + 2 * step) size).toNat := by
  obtain ⟨h1, h2, h3, h4, h5⟩ := tapCoord_taps hs hc
  rw [passInt_eq, h1, h2, h3, h4, h5]

/-- The float sum over the mirrored positions, in tap order (40_blur.md R117). -/
theorem passFp_eq_mirrored (a : AccFmt) (f : Nat → Fp) :
    passFp a f size step c =
      fadd a (fadd a (fadd a (fadd a (fadd a (Fp.zero a)
        (fmul a (f (mirror (c - 2 * step) size).toNat) (Fp.ofNat a 1)))
        (fmul a (f (mirror (c - step) size).toNat) (Fp.ofNat a 4)))
        (fmul a (f (mirror c size).toNat) (Fp.ofNat a 6)))
        (fmul a (f (mirror (c + step) size).toNat) (Fp.ofNat a 4)))
        (fmul a (f (mirror (c + 2 * step) size).toNat) (Fp.ofNat a 1)) := by
  obtain ⟨h1, h2, h3, h4, h5⟩ := tapCoord_taps hs hc
  simp only [passFp, taps, List.foldl_cons, List.foldl_nil, h1, h2, h3, h4, h5]

end Mirrored

/-- The bounds of one pass: the weights add up to 16, and the centre has weight 6 (40_blur.md R125). -/
theorem passInt_bounds {f : Nat → Int} {m : Int} {size step c : Nat} (hc : c < size)
    (hf : ∀ i < size, 0 ≤ f i ∧ f i ≤ m) :
    0 ≤ passInt f size step c ∧ passInt f size step c ≤ 16 * m ∧ 6 * f c ≤ passInt f size step c := by
  have htap (k : Int) : 0 ≤ f (tapCoord size step c k) ∧ f (tapCoord size step c k) ≤ m :=
    hf _ (tapCoord_lt step c k (by omega))
  have hfc := hf c hc
  have h1 := htap (-2)
  have h2 := htap (-1)
  have h4 := htap 1
  have h5 := htap 2
  rw [passInt_eq, tapCoord_zero step hc]
  omega

/-- Settles O50: the bounds of one pass, taken along the rows and then along the column of their sums. -/
theorem integerSumBounds : Obligations.IntegerSumBounds := by
  intro f m w h step x y _ _ hf hx hy
  have hrow (r : Nat) (hr : r < h) := passInt_bounds (step := step) hx fun c hc => hf c r hc hr
  obtain ⟨hlo, hhi, hcentre⟩ := hrow y hy
  obtain ⟨vlo, vhi, vcentre⟩ := passInt_bounds (step := step) hy fun r hr => ⟨(hrow r hr).1, (hrow r hr).2.1⟩
  exact ⟨hlo, hhi, vlo, by omega, by omega⟩

/-! ## The steps of HPASS -/

section Hpass

variable {s : State} {radius : Int} {k : Nat}

/-- The step of HPASS at the coordinate it takes (40_blur.md R118). -/
theorem execExtract_hpass_takes (hb : s.busy = true) (hv : validateOp (.extract radius) s.regs = none)
    (hp : s.phase = .hpass) (hk : s.takes k) :
    execExtract radius s = .next ((s.writeIb k (horizontalSum s (dilation radius) k)).processed k) := by
  rw [execExtract_hpass hb hv hp, hpassStep_some hk]

/-- Column and size of a coordinate that an accepted EXTRACT takes: what the range lemma asks for (40_blur.md R113). -/
theorem column_of_takes (hv : validateOp (.extract radius) s.regs = none) (hk : s.takes k) :
    2 * dilation radius + 1 ≤ s.regs.srcPlane.width ∧ coordX s.regs.srcPlane.width k < s.regs.srcPlane.width :=
  ⟨(accepted_step hv).1, (coord_lt (nextCoord_some hk).1).1⟩

end Hpass

/-- Settles O17: the horizontal sum over the mirrored taps of an axis that one reflection suffices for. -/
theorem extractHorizontalStepInteger : Obligations.ExtractHorizontalStepInteger := by
  intro s radius k hb hv hp hk hf
  obtain ⟨hsize, hx⟩ := column_of_takes hv hk
  rw [exec_extract, execExtract_hpass_takes hb hv hp hk, horizontalSum_int hf, passInt_eq_mirrored hsize hx,
    natCast_dilation]
  rfl

/-- Settles O18, as O17 with the rounded operations. -/
theorem extractHorizontalStepFloat : Obligations.ExtractHorizontalStepFloat := by
  intro s radius k hb hv hp hk hf
  obtain ⟨hsize, hx⟩ := column_of_takes hv hk
  rw [exec_extract, execExtract_hpass_takes hb hv hp hk, horizontalSum_flt hf, passFp_eq_mirrored hsize hx,
    natCast_dilation]
  rfl

/-- Settles O19: with every coordinate done there is none to take. -/
theorem extractTurnsToVertical : Obligations.ExtractTurnsToVertical := by
  intro s radius hb hv hp hdone
  rw [exec_extract, execExtract_hpass hb hv hp, hpassStep_none (nextCoord_none.mpr hdone)]

end Sys2Proof.Machine

/-! # Proofs: exact results of the float operations (43_format_converter.md R191; 40_blur.md R124)

Rounding leaves a number of the format as it is: the exponent of its last place is at most that of any form the format
has of it, so nothing is cut off. Each operation rounds its exact result once, so a result that the format represents
is answered exactly. Every partial sum of a blur of samples up to 65535 is an integer below `2^24`, which both formats
represent. -/

namespace Sys2Proof.Machine

/-! ## One number, several forms -/

/-- A number taken to a smaller exponent. -/
theorem mul_pow_toNat_mul_zpow {u e : Int} (m : Nat) (h : u ≤ e) :
    ((m * 2 ^ (e - u).toNat : Nat) : ℚ) * 2 ^ u = m * 2 ^ e := by
  have he : (e - u) + u = e := by omega
  push_cast
  rw [← zpow_natCast, Int.toNat_of_nonneg (by omega), mul_assoc, ← zpow_add₀ two_ne_zero, he]

/-- The form of a number at a smaller exponent is determined. -/
theorem eq_mul_pow_toNat {m n : Nat} {u e : Int} (h : u ≤ e) (hv : (n : ℚ) * 2 ^ u = m * 2 ^ e) :
    n = m * 2 ^ (e - u).toNat := by
  rw [← mul_pow_toNat_mul_zpow m h] at hv
  exact_mod_cast mul_right_cancel₀ (zpow_ne_zero u two_ne_zero) hv

theorem two_pow_mul_zpow (n : Nat) (e : Int) : ((2 ^ n : Nat) : ℚ) * 2 ^ e = 2 ^ ((n : Int) + e) := by
  rw [zpow_add₀ two_ne_zero, zpow_natCast, Nat.cast_pow, Nat.cast_ofNat]

theorem Fp.value_fin (neg : Bool) (m : Nat) (e : Int) :
    (Fp.fin neg m e).value = some ((if neg then -1 else 1) * (m : ℚ) * 2 ^ e) := rfl

/-- A datum with a value is finite. -/
theorem Fp.exists_of_value {a : Fp} {q : ℚ} (h : a.value = some q) :
    ∃ neg m e, a = .fin neg m e ∧ (if neg then -1 else 1) * (m : ℚ) * 2 ^ e = q := by
  cases a with
  | nan => cases h
  | inf _ => cases h
  | fin neg m e => exact ⟨neg, m, e, rfl, Option.some.inj h⟩

theorem abs_sign_mul (neg : Bool) (m : Nat) (e : Int) :
    |(if neg then -1 else 1) * (m : ℚ) * 2 ^ e| = m * 2 ^ e := by
  have hm : |(m : ℚ) * 2 ^ e| = m * 2 ^ e := abs_of_nonneg (by positivity)
  cases neg <;> simp [neg_mul, abs_neg, hm]

/-- The sign of a product. -/
theorem sign_xor (na nb : Bool) :
    (if na ^^ nb then -1 else 1 : ℚ) = (if na then -1 else 1) * (if nb then -1 else 1) := by
  cases na <;> cases nb <;> norm_num

/-- The sign of a quotient. -/
theorem sign_xor_div (na nb : Bool) :
    (if na ^^ nb then -1 else 1 : ℚ) = (if na then -1 else 1) / (if nb then -1 else 1) := by
  cases na <;> cases nb <;> norm_num

/-- A number of the format has its magnitude as significand and exponent of the format. -/
theorem AccFmt.represents.exists_holds {f : AccFmt} {q : ℚ} (h : f.represents q) :
    ∃ m e, f.holds m e ∧ |q| = m * 2 ^ e := by
  obtain ⟨neg, m, e, hm, rfl⟩ := h
  exact ⟨m, e, hm, abs_sign_mul neg m e⟩

/-! ## Rounding a number of the format -/

theorem shiftRoundEven_mul_pow (n d : Nat) : shiftRoundEven (n * 2 ^ d) d = n := by
  simp [shiftRoundEven]

/-- The significand of a number at another exponent, where nothing is cut off. -/
theorem shifted_mant_eq {m n : Nat} {u e : Int} (hv : (n : ℚ) * 2 ^ u = m * 2 ^ e) :
    (if u ≤ e then m * 2 ^ (e - u).toNat else shiftRoundEven m (u - e).toNat) = n := by
  split
  · rename_i hle
    exact (eq_mul_pow_toNat hle hv).symm
  · rename_i hlt
    rw [eq_mul_pow_toNat (Int.le_of_not_le hlt) hv.symm, shiftRoundEven_mul_pow]

section Rounding

variable {f : AccFmt} {m n p : Nat} {e q : Int}

/-- Where nothing is cut off, and the result fits, rounding answers the same number at the exponent it chose. -/
theorem roundFin_eq_fin (neg : Bool) (hm : m ≠ 0) (hu : roundExp f m e ≤ f.maxExp) (hn : n < 2 ^ f.prec)
    (hv : (n : ℚ) * 2 ^ roundExp f m e = m * 2 ^ e) : roundFin f neg m e = .fin neg n (roundExp f m e) := by
  simp only [roundFin, if_neg hm, shifted_mant_eq hv, if_neg hn.ne, if_neg (not_lt.mpr hu)]

/-- The exponent that rounding chooses is at most that of any form the format has of the number. -/
theorem roundExp_le_of_holds (hm : m ≠ 0) (hp : f.holds p q) (hv : (m : ℚ) * 2 ^ e = p * 2 ^ q) :
    roundExp f m e ≤ q := by
  obtain ⟨hprec, hmin, -⟩ := hp
  have hlt : (2 : ℚ) ^ ((Nat.log2 m : Int) + e) < 2 ^ ((f.prec : Int) + q) := by
    calc (2 : ℚ) ^ ((Nat.log2 m : Int) + e)
        = (2 ^ Nat.log2 m : Nat) * 2 ^ e := (two_pow_mul_zpow _ _).symm
      _ ≤ m * 2 ^ e := by
          gcongr
          exact Nat.log2_self_le hm
      _ = p * 2 ^ q := hv
      _ < (2 ^ f.prec : Nat) * 2 ^ q := by gcongr
      _ = 2 ^ ((f.prec : Int) + q) := two_pow_mul_zpow _ _
  have hexp := (zpow_lt_zpow_iff_right₀ (one_lt_two (α := ℚ))).mp hlt
  rw [roundExp, max_le_iff]
  omega

/-- The significand at the exponent that rounding chooses is one of the format. -/
theorem lt_two_pow_prec_of_roundExp (hv : (n : ℚ) * 2 ^ roundExp f m e = m * 2 ^ e) : n < 2 ^ f.prec := by
  have hexp : ((Nat.log2 m + 1 : Nat) : Int) + e ≤ f.prec + roundExp f m e := by
    have hmax := le_max_left (e + Nat.log2 m + 1 - f.prec) f.minExp
    rw [roundExp]
    omega
  have hlt : (n : ℚ) * 2 ^ roundExp f m e < (2 ^ f.prec : Nat) * 2 ^ roundExp f m e := by
    calc (n : ℚ) * 2 ^ roundExp f m e
        = m * 2 ^ e := hv
      _ < (2 ^ (Nat.log2 m + 1) : Nat) * 2 ^ e := by
          gcongr
          exact Nat.lt_log2_self
      _ = 2 ^ (((Nat.log2 m + 1 : Nat) : Int) + e) := two_pow_mul_zpow _ _
      _ ≤ 2 ^ ((f.prec : Int) + roundExp f m e) := zpow_le_zpow_right₀ one_le_two hexp
      _ = (2 ^ f.prec : Nat) * 2 ^ roundExp f m e := (two_pow_mul_zpow _ _).symm
  exact_mod_cast lt_of_mul_lt_mul_right hlt (by positivity)

/-- Rounding answers a number of the format as it is (43_format_converter.md R191). -/
theorem roundFin_value {neg : Bool} {x : ℚ} (hx : f.represents x) (hv : (Fp.fin neg m e).value = some x) :
    (roundFin f neg m e).value = some x := by
  obtain ⟨p, q, hp, habs⟩ := hx.exists_holds
  rw [Fp.value_fin, Option.some.injEq] at hv
  by_cases hm : m = 0
  · simp [roundFin, hm, Fp.value_fin, ← hv]
  have hmag : (m : ℚ) * 2 ^ e = p * 2 ^ q := by rw [← habs, ← hv, abs_sign_mul]
  have hle := roundExp_le_of_holds hm hp hmag
  have hn := (mul_pow_toNat_mul_zpow p hle).trans hmag.symm
  rw [roundFin_eq_fin neg hm (hle.trans hp.2.2) (lt_two_pow_prec_of_roundExp hn) hn, Fp.value_fin, mul_assoc, hn,
    ← mul_assoc, hv]

end Rounding

/-! ## The operations -/

/-- Aligning keeps the signed number. -/
theorem alignedMant_mul_zpow (neg : Bool) (m : Nat) {ex e : Int} (h : e ≤ ex) :
    (alignedMant neg m ex e : ℚ) * 2 ^ e = (if neg then -1 else 1) * (m : ℚ) * 2 ^ ex := by
  rw [mul_assoc, ← mul_pow_toNat_mul_zpow m h, alignedMant]
  cases neg <;> simp

/-- A signed number from its sign and magnitude. -/
theorem value_fin_natAbs (v e : Int) : (Fp.fin (decide (v < 0)) v.natAbs e).value = some ((v : ℚ) * 2 ^ e) := by
  rw [Fp.value_fin, Nat.cast_natAbs, Int.cast_abs]
  by_cases h : v < 0
  · have hq : (v : ℚ) < 0 := by exact_mod_cast h
    simp [h, abs_of_neg hq]
  · have hq : 0 ≤ (v : ℚ) := by exact_mod_cast not_lt.mp h
    simp [h, abs_of_nonneg hq]

section Operations

variable {f : AccFmt} {a b : Fp} {qa qb : ℚ}

/-- A sum that the format represents is answered exactly. -/
theorem fadd_value (ha : a.value = some qa) (hb : b.value = some qb) (hx : f.represents (qa + qb)) :
    (fadd f a b).value = some (qa + qb) := by
  obtain ⟨na, ma, ea, rfl, rfl⟩ := Fp.exists_of_value ha
  obtain ⟨nb, mb, eb, rfl, rfl⟩ := Fp.exists_of_value hb
  have hsum : ((alignedMant na ma ea (min ea eb) + alignedMant nb mb eb (min ea eb) : Int) : ℚ) * 2 ^ min ea eb =
      (if na then -1 else 1) * (ma : ℚ) * 2 ^ ea + (if nb then -1 else 1) * (mb : ℚ) * 2 ^ eb := by
    rw [Int.cast_add, add_mul, alignedMant_mul_zpow na ma (min_le_left ea eb),
      alignedMant_mul_zpow nb mb (min_le_right ea eb)]
  rw [← hsum] at hx ⊢
  simp only [fadd]
  split
  · rename_i hzero
    simp [hzero, Fp.value_fin]
  · exact roundFin_value hx (value_fin_natAbs _ _)

/-- A product that the format represents is answered exactly. -/
theorem fmul_value (ha : a.value = some qa) (hb : b.value = some qb) (hx : f.represents (qa * qb)) :
    (fmul f a b).value = some (qa * qb) := by
  obtain ⟨na, ma, ea, rfl, rfl⟩ := Fp.exists_of_value ha
  obtain ⟨nb, mb, eb, rfl, rfl⟩ := Fp.exists_of_value hb
  refine roundFin_value hx ?_
  rw [Fp.value_fin, zpow_add₀ two_ne_zero, Nat.cast_mul, sign_xor]
  exact congrArg some (by ring)

/-- A quotient that the format represents leaves no remainder once its dividend is shifted. -/
theorem dvd_shifted_dividend {ma mb p : Nat} {ea eb q : Int} (hp : p < 2 ^ f.prec)
    (hv : (ma : ℚ) * 2 ^ ea = (mb * p : Nat) * 2 ^ (q + eb)) : mb ∣ ma * 2 ^ divShift f mb := by
  have hshift : ((ma * 2 ^ divShift f mb : Nat) : ℚ) * 2 ^ (ea - divShift f mb) = (mb * p : Nat) * 2 ^ (q + eb) := by
    rw [← hv, ← mul_pow_toNat_mul_zpow ma (u := ea - divShift f mb) (e := ea) (by omega), Int.sub_sub_self,
      Int.toNat_natCast]
  rcases le_or_gt (ea - divShift f mb) (q + eb) with hle | hlt
  · rw [eq_mul_pow_toNat hle hshift, mul_assoc]
    exact Nat.dvd_mul_right _ _
  · have hprod := eq_mul_pow_toNat hlt.le hshift.symm
    have hsmall : mb * p < 2 ^ divShift f mb := by
      calc mb * p < 2 ^ (Nat.log2 mb + 1) * 2 ^ f.prec := Nat.mul_lt_mul'' Nat.lt_log2_self hp
        _ ≤ 2 ^ divShift f mb := by
          rw [← pow_add]
          exact Nat.pow_le_pow_right two_pos (by unfold divShift; omega)
    have hma : ma = 0 := by
      by_contra hpos
      have hbig : 2 ^ divShift f mb ≤ mb * p := by
        rw [hprod, mul_assoc, mul_comm, mul_assoc]
        exact Nat.le_mul_of_pos_right _ (by positivity)
      omega
    simp [hma]

/-- Without a remainder the sticky quotient is twice the quotient. -/
theorem stickyQuotient_mul {ma mb : Nat} (h : mb ∣ ma * 2 ^ divShift f mb) :
    stickyQuotient f ma mb * mb = ma * 2 ^ (divShift f mb + 1) := by
  rw [stickyQuotient, Nat.mod_eq_zero_of_dvd h, if_pos rfl, Nat.add_zero, mul_assoc, Nat.div_mul_cancel h, pow_succ]
  ring

/-- So it stands for the exact quotient, at the exponent that division gives it. -/
theorem stickyQuotient_mul_zpow {ma mb : Nat} (ea eb : Int) (hb : mb ≠ 0) (h : mb ∣ ma * 2 ^ divShift f mb) :
    (stickyQuotient f ma mb : ℚ) * 2 ^ (ea - eb - divShift f mb - 1) = ma * 2 ^ ea / (mb * 2 ^ eb) := by
  have hexp : ea = (ea - eb - divShift f mb - 1) + eb + (divShift f mb + 1 : Nat) := by
    push_cast
    ring
  have hquot : (stickyQuotient f ma mb : ℚ) * mb = ma * 2 ^ (divShift f mb + 1) := by
    exact_mod_cast stickyQuotient_mul h
  rw [eq_div_iff (by positivity)]
  calc (stickyQuotient f ma mb : ℚ) * 2 ^ (ea - eb - divShift f mb - 1) * (mb * 2 ^ eb)
      = stickyQuotient f ma mb * mb * (2 ^ (ea - eb - divShift f mb - 1) * 2 ^ eb) := by ring
    _ = ma * (2 ^ (ea - eb - divShift f mb - 1) * 2 ^ eb * 2 ^ (divShift f mb + 1)) := by
        rw [hquot]
        ring
    _ = ma * 2 ^ ea := by rw [← zpow_natCast, ← zpow_add₀ two_ne_zero, ← zpow_add₀ two_ne_zero, ← hexp]

/-- A quotient that the format represents is answered exactly. -/
theorem fdiv_value (ha : a.value = some qa) (hb : b.value = some qb) (hqb : qb ≠ 0)
    (hx : f.represents (qa / qb)) : (fdiv f a b).value = some (qa / qb) := by
  obtain ⟨na, ma, ea, rfl, rfl⟩ := Fp.exists_of_value ha
  obtain ⟨nb, mb, eb, rfl, rfl⟩ := Fp.exists_of_value hb
  have hmb : mb ≠ 0 := by
    rintro rfl
    simp at hqb
  obtain ⟨p, q, hp, habs⟩ := hx.exists_holds
  rw [abs_div, abs_sign_mul, abs_sign_mul, div_eq_iff (by positivity)] at habs
  have hprod : (ma : ℚ) * 2 ^ ea = (mb * p : Nat) * 2 ^ (q + eb) := by
    rw [habs, zpow_add₀ two_ne_zero, Nat.cast_mul]
    ring
  have hmag := stickyQuotient_mul_zpow ea eb hmb (dvd_shifted_dividend hp.1 hprod)
  simp only [fdiv, if_neg hmb]
  refine roundFin_value hx ?_
  rw [Fp.value_fin, mul_assoc, hmag, sign_xor_div, div_mul_div_comm, mul_assoc, mul_assoc]

end Operations

/-! ## Integers of the format -/

/-- Both formats represent an integer below `2^24` scaled by a power of two of binary32 (40_blur.md R124). -/
theorem represents_int_mul_zpow (f : AccFmt) {v e : Int} (hv : v.natAbs < 2 ^ 24) (hlo : -149 ≤ e) (hhi : e ≤ 104) :
    f.represents ((v : ℚ) * 2 ^ e) := by
  refine ⟨decide (v < 0), v.natAbs, e, ?_, (Option.some.inj (value_fin_natAbs v e)).symm⟩
  cases f with
  | b32 => exact ⟨hv, hlo, hhi⟩
  | b64 => exact ⟨hv.trans (by decide), (by decide : (-1074 : Int) ≤ -149).trans hlo, hhi.trans (by decide)⟩

theorem represents_int (f : AccFmt) {v : Int} (hv : v.natAbs < 2 ^ 24) : f.represents v := by
  simpa using represents_int_mul_zpow f (e := 0) hv (by decide) (by decide)

/-- A constant below `2^24` is exact. -/
theorem Fp.ofNat_value (f : AccFmt) {n : Nat} (hn : n < 2 ^ 24) : (Fp.ofNat f n).value = some (n : ℚ) :=
  roundFin_value (by exact_mod_cast represents_int f (v := n) hn) (by simp [Fp.value_fin])

theorem Fp.zero_value (f : AccFmt) : (Fp.zero f).value = some 0 := by
  simp [Fp.zero, Fp.value_fin]

/-! ## The blur of integers -/

/-- Products and sums of a pass stay exact as long as the sum of all the weights left, at the largest sample, keeps the
accumulator below `2^24`. -/
theorem foldl_fadd_value (f : AccFmt) {M : Nat} (hM : 0 < M) {F : Int → Fp} {a : Int → Int}
    (hF : ∀ k, (F k).value = some (a k : ℚ)) (ha : ∀ k, 0 ≤ a k ∧ a k ≤ M) :
    ∀ (l : List (Int × Nat)) (acc : Fp) (v : Int), acc.value = some (v : ℚ) → 0 ≤ v →
      v + (l.map Prod.snd).sum * M < 2 ^ 24 →
      (l.foldl (fun acc t => fadd f acc (fmul f (F t.1) (Fp.ofNat f t.2))) acc).value =
        some ((l.foldl (fun acc t => acc + t.2 * a t.1) v : Int) : ℚ)
  | [], _, _, hacc, _, _ => hacc
  | (k, wt) :: l, acc, v, hacc, hv, hsum => by
    obtain ⟨hlo, hhi⟩ := ha k
    simp only [List.map_cons, List.sum_cons, Nat.cast_add, add_mul] at hsum
    have hrest : (0 : Int) ≤ ((l.map Prod.snd).sum : Nat) * M := by positivity
    have hwt : (wt : Int) ≤ wt * M := le_mul_of_one_le_right (by positivity) (by exact_mod_cast hM)
    have hterm : 0 ≤ (wt : Int) * a k ∧ (wt : Int) * a k ≤ wt * M :=
      ⟨by positivity, Int.mul_le_mul_of_nonneg_left hhi (by positivity)⟩
    have hmul : (fmul f (F k) (Fp.ofNat f wt)).value = some ((wt * a k : Int) : ℚ) := by
      have hprod : ((wt * a k : Int) : ℚ) = a k * wt := by push_cast; ring
      rw [hprod]
      exact fmul_value (hF k) (Fp.ofNat_value f (by omega)) (hprod ▸ represents_int f (by omega))
    have hadd : (fadd f acc (fmul f (F k) (Fp.ofNat f wt))).value = some ((v + wt * a k : Int) : ℚ) := by
      have hsum_rep := represents_int f (v := v + wt * a k) (by omega)
      rw [Int.cast_add] at hsum_rep ⊢
      exact fadd_value hacc hmul hsum_rep
    exact foldl_fadd_value f hM hF ha l _ (v + wt * a k) hadd (by omega) (by omega)

/-- The weights of a pass add up to 16 (40_blur.md R110). -/
theorem sum_taps : (taps.map Prod.snd).sum = 16 := rfl

/-- A float pass over integers whose weighted sum stays below `2^24` is the integer pass (40_blur.md R124). -/
theorem passFp_value (f : AccFmt) {M : Nat} (hM : 0 < M) (hM24 : 16 * M < 2 ^ 24) {F : Nat → Fp} {a : Nat → Int}
    {size : Nat} (step c : Nat) (hs : 0 < size) (hF : ∀ i < size, (F i).value = some (a i : ℚ))
    (ha : ∀ i < size, 0 ≤ a i ∧ a i ≤ M) : (passFp f F size step c).value = some (passInt a size step c : ℚ) :=
  foldl_fadd_value f hM (F := fun k => F (tapCoord size step c k)) (a := fun k => a (tapCoord size step c k))
    (fun k => hF _ (tapCoord_lt step c k hs)) (fun k => ha _ (tapCoord_lt step c k hs)) taps (Fp.zero f) 0
    (by simpa using Fp.zero_value f) le_rfl (by rw [sum_taps]; omega)

/-- An integer below `2^24` divided by 256 is exact (40_blur.md R121, R124). -/
theorem blurredFp_value (f : AccFmt) {a : Fp} {v : Int} (ha : a.value = some (v : ℚ)) (hv : v.natAbs < 2 ^ 24) :
    (blurredFp f a).value = some ((v : ℚ) / 256) := by
  have hdiv : (v : ℚ) / 256 = v * 2 ^ (-8 : Int) := by norm_num [zpow_neg, div_eq_mul_inv]
  have h256 : (Fp.ofNat f 256).value = some (256 : ℚ) := Fp.ofNat_value f (by decide)
  exact fdiv_value ha h256 (by norm_num) (hdiv ▸ represents_int_mul_zpow f hv (by decide) (by decide))

/-- Settles O57: rows of samples up to 65535 have sums up to `16 * 65535`, columns of these sums up to
`256 * 65535 < 2^24`. -/
theorem floatBlurOfIntegersIsExact : Obligations.FloatBlurOfIntegersIsExact := by
  intro f g w h step x y _ _ hg hx hy
  have hsample (c r : Nat) (hc : c < w) (hr : r < h) : 0 ≤ (g c r : Int) ∧ (g c r : Int) ≤ (65535 : Nat) :=
    ⟨by omega, by exact_mod_cast hg c r hc hr⟩
  have hrow (r : Nat) (hr : r < h) : 0 ≤ passInt (fun c => (g c r : Int)) w step x ∧
      passInt (fun c => (g c r : Int)) w step x ≤ (16 * 65535 : Nat) := by
    obtain ⟨hlo, hhi, -⟩ := passInt_bounds (step := step) hx fun c hc => hsample c r hc hr
    exact ⟨hlo, by exact_mod_cast hhi⟩
  have hrowFp (r : Nat) (hr : r < h) : (passFp f (fun c => Fp.ofNat f (g c r)) w step x).value =
      some (passInt (fun c => (g c r : Int)) w step x : ℚ) :=
    passFp_value f (M := 65535) (by decide) (by decide) step x (by omega)
      (fun c hc => Fp.ofNat_value f (by have := hg c r hc hr; omega)) fun c hc => hsample c r hc hr
  have hcolumn := passInt_bounds (step := step) hy hrow
  exact blurredFp_value f (passFp_value f (by decide) (by decide) step y (by omega) hrowFp hrow) (by omega)

end Sys2Proof.Machine

/-! # Proofs: EXTRACT as a whole, its VPASS steps and its frame (41_extract.md R142 to R147; 20_memory.md R59, R61)

The vertical sum is the pass of HPASS again, over a column of IB. What a step leaves unchanged is read off the two steps
of a BUSY block, one lemma for each, and the launch. -/

namespace Sys2Proof.Machine

/-- Settles O24: the run from START to DONE. -/
theorem extractWholeCommand : Obligations.ExtractWholeCommand :=
  fun _ _ hinv hb hd hv hr => extract_runs_to_done hinv hb hd hv hr

/-! ## What the steps leave unchanged -/

/-- No instruction changes a parameter, the schedule or the answers. -/
theorem exec_keeps_surroundings {i : Instr} {s t : State} (h : exec i s = .next t) :
    t.accFmt = s.accFmt ∧ t.resident = s.resident ∧ t.agenda = s.agenda ∧ t.answers = s.answers := by
  cases i with
  | extract radius =>
    rcases execExtract_cases h with ⟨-, c, -, rfl⟩ | ⟨-, -, -, rfl⟩ | ⟨-, -, -, rfl⟩ | ⟨-, -, -, rfl⟩
    · exact ⟨rfl, rfl, rfl, rfl⟩
    · exact ⟨rfl, rfl, rfl, rfl⟩
    · rcases hpassStep_cases (dilation radius) s with ⟨k, -, e⟩ | ⟨-, e⟩ <;> simp [e]
    · rcases vpassStep_cases (dilation radius) s with ⟨k, -, e⟩ | ⟨-, e⟩ <;> simp [e]
  | replace =>
    rcases execReplace_cases h with ⟨-, c, -, rfl⟩ | ⟨-, -, -, rfl⟩ | ⟨-, -, -, rfl⟩
    · exact ⟨rfl, rfl, rfl, rfl⟩
    · exact ⟨rfl, rfl, rfl, rfl⟩
    · rcases rpassStep_cases s with ⟨k, -, e⟩ | ⟨-, e⟩ <;> simp [e]

/-- A launch, accepted or rejected, computes nothing (44_launch_and_status.md R213; 60_exceptions.md R240). -/
theorem exec_of_not_busy_keeps {i : Instr} {s t : State} (hb : s.busy = false) (h : exec i s = .next t) :
    t.mem = s.mem ∧ t.ib = s.ib ∧ t.draws = s.draws := by
  obtain ⟨p, hp⟩ := exec_of_not_busy hb i
  rcases launch_cases (hp ▸ h) with ⟨c, -, rfl⟩ | ⟨-, -, rfl⟩
  · exact ⟨rfl, rfl, rfl⟩
  · exact ⟨rfl, rfl, rfl⟩

/-- HPASS stores nothing and draws nothing (40_blur.md R118). -/
theorem hpassStep_keeps_mem_draws (d : Nat) (s : State) :
    (hpassStep d s).mem = s.mem ∧ (hpassStep d s).draws = s.draws := by
  rcases hpassStep_cases d s with ⟨k, -, e⟩ | ⟨-, e⟩ <;> simp [e]

/-- At a coordinate, HPASS writes one element of IB (40_blur.md R118). -/
theorem hpassStep_takes_keeps {s : State} {k : Nat} (d : Nat) (hk : s.takes k) :
    (hpassStep d s).status = s.status ∧ (hpassStep d s).phase = s.phase ∧
      ∀ j, j ≠ k → ibLookup j (hpassStep d s).ib = ibLookup j s.ib := by
  rw [hpassStep_some hk]
  exact ⟨rfl, rfl, fun j hj => by simp [hj]⟩

/-- At a coordinate, VPASS changes neither STATUS nor PHASE nor IB (41_extract.md R145). -/
theorem vpassStep_takes_keeps {s : State} {k : Nat} (d : Nat) (hk : s.takes k) :
    (vpassStep d s).status = s.status ∧ (vpassStep d s).phase = s.phase ∧ (vpassStep d s).ib = s.ib := by
  rw [vpassStep_some hk]
  simp

/-- Bytes outside the sample stored at a coordinate keep their values (20_memory.md R61). -/
theorem State.read_storeDst_frame {s : State} {i : Instr} {k a : Nat} {d : Datum} (hm : s.mem.wf = true)
    (hv : validateOp i s.regs = none) (hk : k < s.regs.srcPlane.count)
    (ha : a < s.dstAddrOf k ∨ s.dstAddrOf k + s.regs.dstPlane.fmt.size ≤ a) :
    (s.storeDst k d).mem.read a = s.mem.read a := by
  obtain ⟨v, -, hmem⟩ := s.storeDst_mem k d
  obtain ⟨hx, hy⟩ := coord_lt hk
  rw [hmem]
  exact storeRaw_frame hm (dstPlane_sample_le hv hx hy) ha

/-- VPASS stores the sample of the coordinate it takes and no other byte (20_memory.md R61). -/
theorem vpassStep_takes_read {s : State} {i : Instr} {k a : Nat} (d : Nat) (hm : s.mem.wf = true)
    (hv : validateOp i s.regs = none) (hk : s.takes k)
    (ha : a < s.dstAddrOf k ∨ s.dstAddrOf k + s.regs.dstPlane.fmt.size ≤ a) :
    (vpassStep d s).mem.read a = s.mem.read a := by
  rw [vpassStep_some hk, State.processed_mem]
  exact State.read_storeDst_frame hm hv (nextCoord_some hk).1 ha

/-- VPASS stores nothing where it takes no coordinate (44_launch_and_status.md R215). -/
theorem vpassStep_mem_of_takes_none {s : State} (d : Nat) (hk : ∀ k, ¬ s.takes k) : (vpassStep d s).mem = s.mem := by
  rw [vpassStep_none (Option.eq_none_iff_forall_ne_some.mpr hk)]
  rfl

/-- Settles O23: a launch computes nothing, HPASS writes IB alone, and VPASS stores one sample or completes. -/
theorem extractFrame : Obligations.ExtractFrame := by
  intro radius s t hm h
  obtain ⟨hacc, hres, hag, hans⟩ := exec_keeps_surroundings h
  refine ⟨exec_regs h, hacc, hres, hag, hans, ?_⟩
  cases hb : s.busy with
  | false =>
    obtain ⟨hmem, hib, hdraws⟩ := exec_of_not_busy_keeps hb h
    simp [hmem, hib, hdraws]
  | true =>
    rcases execExtract_cases h with ⟨hn, -⟩ | ⟨hn, -⟩ | ⟨-, -, hp, rfl⟩ | ⟨-, hv, hp, rfl⟩
    · exact absurd (hb.symm.trans hn) (by decide)
    · exact absurd (hb.symm.trans hn) (by decide)
    · obtain ⟨hmem, hdraws⟩ := hpassStep_keeps_mem_draws (dilation radius) s
      have htakes {k : Nat} (hk : s.takes k) := hpassStep_takes_keeps (dilation radius) hk
      refine ⟨?_, fun _ => ⟨hmem, by simp⟩, fun _ _ k hk => (htakes hk).2.2, fun _ k hk => ?_, fun _ => hdraws⟩
      · simp [hp]
      · obtain ⟨hstatus, hphase, -⟩ := htakes hk
        exact ⟨hstatus, hphase, by simp [hp]⟩
    · refine ⟨fun k _ _ hk a ha => vpassStep_takes_read _ hm hv hk ha, fun hnone => ?_, ?_, fun _ k hk => ?_, ?_⟩
      · exact ⟨vpassStep_mem_of_takes_none _ (by simpa [hp] using hnone), by simp⟩
      · simp [hp]
      · obtain ⟨hstatus, hphase, hib⟩ := vpassStep_takes_keeps (dilation radius) hk
        exact ⟨hstatus, hphase, fun _ => hib⟩
      · simp [hp]

/-! ## The steps of VPASS -/

/-- Storing an integer at a coordinate, field by field (43_format_converter.md R188). -/
theorem State.storeDst_int_processed (s : State) (k : Nat) (v : Int) :
    (s.storeDst k (.int v)).processed k =
      { s with
        mem := storeRaw s.mem s.regs.dstPlane (coordX s.regs.srcPlane.width k) (coordY s.regs.srcPlane.width k) v.toNat
        doneSet := insertCoord k s.doneSet
        picks := s.picks.tail } := rfl

theorem Fp.isNan_iff {v : Fp} : v.isNan = true ↔ v = .nan := by
  cases v <;> simp [Fp.isNan]

/-- Storing a float at a coordinate, field by field: a NaN takes a free draw (43_format_converter.md R189, R193). -/
theorem State.storeDst_flt_processed (s : State) (k : Nat) (v : Fp) :
    (s.storeDst k (.flt v)).processed k =
      { s with
        mem := storeRaw s.mem s.regs.dstPlane (coordX s.regs.srcPlane.width k) (coordY s.regs.srcPlane.width k)
          (storedBits (Config.nanDraw s.draws) v).toNat
        draws := if fcvt .b32 v = .nan then s.draws + 1 else s.draws
        doneSet := insertCoord k s.doneSet
        picks := s.picks.tail } := by
  simp only [← Fp.isNan_iff]
  rfl

/-- Half away from zero is half up where nothing is negative (43_format_converter.md R186). -/
theorem rha_256_of_nonneg {n : Int} (h : 0 ≤ n) : rha n 256 = (n + 128) / 256 := by
  rw [rha, if_pos h]
  omega

theorem rha_256_nonpos {n : Int} (h : n < 0) : rha n 256 ≤ 0 := by
  rw [rha, if_neg (not_le.mpr h)]
  omega

theorem clamp_of_nonpos {v m : Int} (hv : v ≤ 0) (hm : 0 ≤ m) : clamp v 0 m = 0 := by
  unfold clamp
  split
  · rfl
  · split <;> omega

theorem clamp_of_nonneg {v m : Int} (hv : 0 ≤ v) : clamp v 0 m = min v m := by
  rw [clamp, if_neg (not_lt.mpr hv)]
  split <;> omega

/-- The closed form of the detail (41_extract.md R143). -/
theorem detailInt_eq (fmt : PixFmt) (sample v : Int) :
    detailInt fmt sample v = if 256 * (sample + fmt.neutral) - v < 0 then 0
      else min ((256 * (sample + fmt.neutral) - v + 128) / 256) fmt.max := by
  rw [detailInt]
  split
  · rename_i hneg
    exact clamp_of_nonpos (rha_256_nonpos hneg) fmt.max_nonneg
  · rename_i hpos
    rw [rha_256_of_nonneg (not_lt.mp hpos), clamp_of_nonneg (by omega)]

section Vpass

variable {s : State} {radius : Int} {k : Nat}

/-- The step of VPASS at the coordinate it takes (41_extract.md R142). -/
theorem execExtract_vpass_takes (hb : s.busy = true) (hv : validateOp (.extract radius) s.regs = none)
    (hp : s.phase = .vpass) (hk : s.takes k) :
    execExtract radius s = .next ((s.storeDst k (detailSample s (dilation radius) k)).processed k) := by
  rw [execExtract_vpass hb hv hp, vpassStep_some hk]

/-- Row and height of a coordinate that an accepted EXTRACT takes: what the range lemma asks for (40_blur.md R113). -/
theorem row_of_takes (hv : validateOp (.extract radius) s.regs = none) (hk : s.takes k) :
    2 * dilation radius + 1 ≤ s.regs.srcPlane.height ∧ coordY s.regs.srcPlane.width k < s.regs.srcPlane.height :=
  ⟨(accepted_step hv).2, (coord_lt (nextCoord_some hk).1).2⟩

end Vpass

/-- Settles O20: the vertical sum over the mirrored rows, and the closed form of the detail. -/
theorem extractVerticalStepInteger : Obligations.ExtractVerticalStepInteger := by
  intro s radius k hb hv hp hk hf
  obtain ⟨hsize, hy⟩ := row_of_takes hv hk
  rw [exec_extract, execExtract_vpass_takes hb hv hp hk, detailSample_int hf, State.storeDst_int_processed,
    detailInt_eq, verticalInt, passInt_eq_mirrored hsize hy, natCast_dilation]
  rfl

/-- Settles O21, as O20 with the rounded operations. -/
theorem extractVerticalStepFloat : Obligations.ExtractVerticalStepFloat := by
  intro s radius k hb hv hp hk hf
  obtain ⟨hsize, hy⟩ := row_of_takes hv hk
  rw [exec_extract, execExtract_vpass_takes hb hv hp hk, detailSample_flt hf, State.storeDst_flt_processed,
    verticalFp, passFp_eq_mirrored hsize hy, natCast_dilation]
  rfl

/-! ## A constant plane of integers -/

/-- A pass over a constant is 16 times the constant (40_blur.md R126). -/
theorem passInt_const {f : Nat → Int} {size : Nat} {c : Int} (step x : Nat) (hs : 0 < size) (hf : ∀ i < size, f i = c) :
    passInt f size step x = 16 * c := by
  have htap (k : Int) : f (tapCoord size step x k) = c := hf _ (tapCoord_lt step x k hs)
  simp only [passInt_eq, htap]
  ring

/-- The detail of a sample that equals its blurred value is the neutral value (41_extract.md R147). -/
theorem detailInt_neutral (fmt : PixFmt) (c : Int) : detailInt fmt c (16 * (16 * c)) = fmt.neutral := by
  have hn : 256 * (c + fmt.neutral) - 16 * (16 * c) = 256 * fmt.neutral := by ring
  rw [detailInt, hn]
  cases fmt <;> decide

/-- EXTRACT gives every coordinate of a constant plane the neutral value (41_extract.md R147). -/
theorem extractValue_of_const {s : State} {c : Int} (radius : Int) {k : Nat} (hf : s.regs.fmt ≠ .f32)
    (hc : ∀ x y, x < s.regs.srcPlane.width → y < s.regs.srcPlane.height → loadInt s.mem s.regs.srcPlane x y = c)
    (hk : k < s.regs.srcPlane.count) : extractValue s radius k = .int s.regs.fmt.neutral := by
  obtain ⟨hx, hy⟩ := coord_lt hk
  have hw : 0 < s.regs.srcPlane.width := by omega
  have hh : 0 < s.regs.srcPlane.height := by omega
  have hrow (r : Nat) (hr : r < s.regs.srcPlane.height) := passInt_const (dilation radius)
    (coordX s.regs.srcPlane.width k) hw fun x hx => hc x r hx hr
  rw [extractValue_int hf, hc _ _ hx hy, passInt_const _ _ hh hrow, detailInt_neutral]

theorem PixFmt.neutral_nonneg (f : PixFmt) : 0 ≤ f.neutral := by cases f <;> decide

/-- Settles O25: the run to DONE stores the value of each coordinate, which is the neutral one. -/
theorem extractOfConstantIsNeutral : Obligations.ExtractOfConstantIsNeutral := by
  intro s radius c hinv hb hd hv hr hf hc
  obtain ⟨t, ht, -, -, -, hnew, -⟩ := extract_runs_to_done hinv hb hd hv hr
  refine ⟨t, ht, fun k hk => ?_⟩
  have hstored := hnew k hk
  rw [extractValue_of_const radius hf hc hk] at hstored
  rw [show t.dstRaw k = s.regs.fmt.neutral.toNat from hstored, Int.toNat_of_nonneg s.regs.fmt.neutral_nonneg]

end Sys2Proof.Machine

/-! # Proofs: a constant plane of floats (40_blur.md R126; 41_extract.md R147)

A binary32 significand has 24 bits and the weights of both passes add up to 256, so every product and partial sum over a
constant has a significand below `2^32`, which binary64 represents. The blurred value is then the constant itself, and
a number less itself is a zero, of either sign before `+0.0` is added and `+0.0` after. -/

namespace Sys2Proof.Machine

theorem AccFmt.holds_b32_iff {m : Nat} {e : Int} : AccFmt.b32.holds m e ↔ m < 2 ^ 24 ∧ -149 ≤ e ∧ e ≤ 104 := Iff.rfl

theorem AccFmt.holds_b64_iff {m : Nat} {e : Int} : AccFmt.b64.holds m e ↔ m < 2 ^ 53 ∧ -1074 ≤ e ∧ e ≤ 971 := Iff.rfl

/-- A multiple of a binary32 number by at most the sum of all weights is one of binary64 (40_blur.md R126). -/
theorem AccFmt.represents_b64_mul {q : ℚ} {n : Nat} (h : AccFmt.b32.represents q) (hn : n ≤ 256) :
    AccFmt.b64.represents (n * q) := by
  obtain ⟨neg, m, e, hm, rfl⟩ := h
  have hprod : n * m ≤ 256 * m := Nat.mul_le_mul_right m hn
  rw [AccFmt.holds_b32_iff] at hm
  refine ⟨neg, n * m, e, AccFmt.holds_b64_iff.mpr (by omega), ?_⟩
  push_cast
  ring

/-- A pattern that is neither an infinity nor a NaN is a number of binary32 (20_memory.md R53). -/
theorem fpOfBits_value {w : Word} (h : bits w 30 23 ≠ 255) :
    ∃ q, (fpOfBits w).value = some q ∧ AccFmt.b32.represents q := by
  have hex : bits w 30 23 < 2 ^ 8 := bits_lt w 30 23
  have hfr : bits w 22 0 < 2 ^ 23 := bits_lt w 22 0
  simp only [fpOfBits, if_neg h]
  split
  · exact ⟨_, rfl, _, _, _, AccFmt.holds_b32_iff.mpr (by omega), rfl⟩
  · exact ⟨_, rfl, _, _, _, AccFmt.holds_b32_iff.mpr (by omega), rfl⟩

/-- A number of the format is converted to itself (43_format_converter.md R192). -/
theorem fcvt_value {f : AccFmt} {a : Fp} {q : ℚ} (ha : a.value = some q) (hq : f.represents q) :
    (fcvt f a).value = some q := by
  obtain ⟨neg, m, e, rfl, -⟩ := Fp.exists_of_value ha
  exact roundFin_value hq ha

/-! ## The pass over a constant -/

section Constant

variable {f : AccFmt} {q : ℚ}

/-- Products and sums over a constant stay exact as long as the format represents its multiples by the weights. -/
theorem foldl_fadd_const_value {N : Nat} (hN : N < 2 ^ 24) (hq : ∀ n : Nat, n ≤ N → f.represents (n * q)) {F : Int → Fp}
    (hF : ∀ k, (F k).value = some q) :
    ∀ (l : List (Int × Nat)) (acc : Fp) (v : Nat), acc.value = some (v * q) → v + (l.map Prod.snd).sum ≤ N →
      (l.foldl (fun acc t => fadd f acc (fmul f (F t.1) (Fp.ofNat f t.2))) acc).value =
        some ((v + (l.map Prod.snd).sum : Nat) * q)
  | [], _, _, hacc, _ => hacc
  | (k, wt) :: l, acc, v, hacc, hsum => by
    simp only [List.map_cons, List.sum_cons, ← Nat.add_assoc] at hsum ⊢
    have hmul : (fmul f (F k) (Fp.ofNat f wt)).value = some (wt * q) := by
      rw [mul_comm]
      exact fmul_value (hF k) (Fp.ofNat_value f (by omega)) (mul_comm (wt : ℚ) q ▸ hq wt (by omega))
    have hadd : (fadd f acc (fmul f (F k) (Fp.ofNat f wt))).value = some ((v + wt : Nat) * q) := by
      have hrep := hq (v + wt) (by omega)
      rw [Nat.cast_add, add_mul] at hrep ⊢
      exact fadd_value hacc hmul hrep
    exact foldl_fadd_const_value hN hq hF l _ (v + wt) hadd hsum

/-- A pass over a constant is 16 times the constant (40_blur.md R126). -/
theorem passFp_const_value {F : Nat → Fp} {size : Nat} (step c : Nat) (hs : 0 < size)
    (hq : ∀ n : Nat, n ≤ 16 → f.represents (n * q)) (hF : ∀ i < size, (F i).value = some q) :
    (passFp f F size step c).value = some (16 * q) :=
  foldl_fadd_const_value (N := 16) (by decide) hq (F := fun k => F (tapCoord size step c k))
    (fun k => hF _ (tapCoord_lt step c k hs)) taps (Fp.zero f) 0 (by simpa using Fp.zero_value f) (by rw [sum_taps])

/-- Both passes over a constant, and the division by 256, give the constant (40_blur.md R121, R126). -/
theorem blurredFp_const_value {g : Nat → Nat → Fp} {w h x y : Nat} (step : Nat)
    (hq : ∀ n : Nat, n ≤ 256 → f.represents (n * q)) (hg : ∀ c r, c < w → r < h → (g c r).value = some q)
    (hx : x < w) (hy : y < h) :
    (blurredFp f (passFp f (fun r => passFp f (fun c => g c r) w step x) h step y)).value = some q := by
  have hrow (r : Nat) (hr : r < h) : (passFp f (fun c => g c r) w step x).value = some (16 * q) :=
    passFp_const_value step x (by omega) (fun n hn => hq n (by omega)) fun c hc => hg c r hc hr
  have hrow_rep (n : Nat) (hn : n ≤ 16) : f.represents (n * (16 * q)) := by
    have hrep := hq (n * 16) (by omega)
    rwa [Nat.cast_mul, mul_assoc] at hrep
  have hcolumn := passFp_const_value step y (by omega) hrow_rep hrow
  have hquot : 16 * (16 * q) / 256 = q := by ring
  have hquot_rep : f.represents (16 * (16 * q) / (256 : Nat)) := by simpa [hquot] using hq 1 (by decide)
  exact (fdiv_value hcolumn (Fp.ofNat_value f (by decide)) (by norm_num) hquot_rep).trans (congrArg some hquot)

end Constant

/-! ## The detail of equal values -/

theorem Fp.neg_value {a : Fp} {q : ℚ} (h : a.value = some q) : a.neg.value = some (-q) := by
  obtain ⟨neg, m, e, rfl, rfl⟩ := Fp.exists_of_value h
  cases neg <;> simp [Fp.neg, Fp.value_fin]

/-- The sum of opposite numbers is a zero (43_format_converter.md R191). -/
theorem fadd_opposite (f : AccFmt) {a b : Fp} {q : ℚ} (ha : a.value = some q) (hb : b.value = some (-q)) :
    ∃ neg, fadd f a b = .fin neg 0 f.minExp := by
  obtain ⟨na, ma, ea, rfl, hqa⟩ := Fp.exists_of_value ha
  obtain ⟨nb, mb, eb, rfl, hqb⟩ := Fp.exists_of_value hb
  have hsum : ((alignedMant na ma ea (min ea eb) + alignedMant nb mb eb (min ea eb) : Int) : ℚ) * 2 ^ min ea eb = 0 := by
    rw [Int.cast_add, add_mul, alignedMant_mul_zpow na ma (min_le_left ea eb),
      alignedMant_mul_zpow nb mb (min_le_right ea eb), hqa, hqb, add_neg_cancel]
  have hzero : alignedMant na ma ea (min ea eb) + alignedMant nb mb eb (min ea eb) = 0 := by
    exact_mod_cast (mul_eq_zero.mp hsum).resolve_right (zpow_ne_zero _ two_ne_zero)
  exact ⟨na && nb, if_pos hzero⟩

/-- Adding `+0.0` to a zero of either sign gives `+0.0` (41_extract.md R144). -/
theorem fadd_zero_zero (f : AccFmt) (neg : Bool) : fadd f (.fin neg 0 f.minExp) (Fp.zero f) = Fp.zero f := by
  cases neg <;> simp [fadd, Fp.zero, alignedMant]

/-- The detail of a sample that equals its blurred value is `+0.0` (41_extract.md R147). -/
theorem detailFp_of_blurred_value {f : AccFmt} {a v : Fp} {q : ℚ} (ha : a.value = some q)
    (hv : (blurredFp f v).value = some q) : detailFp f a v = Fp.zero f := by
  obtain ⟨neg, hsub⟩ := fadd_opposite f ha (Fp.neg_value hv)
  rw [detailFp, fsub, hsub, fadd_zero_zero]

/-- `+0.0` is stored as the zero pattern (43_format_converter.md R189). -/
theorem storedBits_zero (draw : Word) (f : AccFmt) : storedBits draw (Fp.zero f) = 0 := by
  simp [storedBits, Fp.zero, fcvt, roundFin, fpToBits, packBits]

/-- Settles O58: binary64 represents the multiples of the constant that the passes form. -/
theorem constantFloatPlaneIsNeutralInB64 : Obligations.ConstantFloatPlaneIsNeutralInB64 := by
  intro pattern draw g w h step x y hfinite _ _ hg hx hy
  obtain ⟨q, hvalue, hrep⟩ := fpOfBits_value hfinite
  have hmul (n : Nat) (hn : n ≤ 256) : AccFmt.b64.represents (n * q) := AccFmt.represents_b64_mul hrep hn
  have hsample (c r : Nat) (hc : c < w) (hr : r < h) : (g c r).value = some q := by
    rw [hg c r hc hr]
    exact fcvt_value hvalue (by simpa using hmul 1 (by decide))
  have hblur := blurredFp_const_value step hmul hsample hx hy
  refine ⟨hblur.trans (hsample x y hx hy).symm, ?_⟩
  rw [detailFp_of_blurred_value (hsample x y hx hy) hblur, storedBits_zero]

end Sys2Proof.Machine

/-! # Proofs: REPLACE as a whole, its RPASS steps and its frame (42_replace.md R162 to R166; 20_memory.md R60, R61)

The run from START to DONE leaves the recombined samples in DST. On an integer format the recombination undoes the split
into base and detail wherever the original is in range, because the clamp then changes nothing. -/

namespace Sys2Proof.Machine

/-- Settles O32: the run from START to DONE. -/
theorem replaceWholeCommand : Obligations.ReplaceWholeCommand :=
  fun _ hinv hb hd hv hr => replace_runs_to_done hinv hb hd hv hr

/-! ## What the steps leave unchanged -/

/-- RPASS does not touch IB, at a coordinate or at completion (42_replace.md R165; 44_launch_and_status.md R215). -/
theorem rpassStep_ib (s : State) : (rpassStep s).ib = s.ib := by
  rcases rpassStep_cases s with ⟨k, -, e⟩ | ⟨-, e⟩ <;> simp [e]

/-- At a coordinate, RPASS changes neither STATUS nor PHASE (42_replace.md R165). -/
theorem rpassStep_takes_keeps {s : State} {k : Nat} (hk : s.takes k) :
    (rpassStep s).status = s.status ∧ (rpassStep s).phase = s.phase := by
  rw [rpassStep_some hk]
  simp

/-- RPASS stores the sample of the coordinate it takes and no other byte (20_memory.md R61). -/
theorem rpassStep_takes_read {s : State} {k a : Nat} (hm : s.mem.wf = true)
    (hv : validateOp .replace s.regs = none) (hk : s.takes k)
    (ha : a < s.dstAddrOf k ∨ s.dstAddrOf k + s.regs.dstPlane.fmt.size ≤ a) :
    (rpassStep s).mem.read a = s.mem.read a := by
  rw [rpassStep_some hk, State.processed_mem]
  exact State.read_storeDst_frame hm hv (nextCoord_some hk).1 ha

/-- RPASS stores nothing and draws nothing where it takes no coordinate (44_launch_and_status.md R215). -/
theorem rpassStep_keeps_of_takes_none {s : State} (hk : ∀ k, ¬ s.takes k) :
    (rpassStep s).mem = s.mem ∧ (rpassStep s).draws = s.draws := by
  rw [rpassStep_none (Option.eq_none_iff_forall_ne_some.mpr hk)]
  exact ⟨rfl, rfl⟩

/-- Settles O31: a launch computes nothing, and RPASS stores one sample or completes. -/
theorem replaceFrame : Obligations.ReplaceFrame := by
  intro s t hm h
  obtain ⟨hacc, hres, hag, hans⟩ := exec_keeps_surroundings h
  refine ⟨exec_regs h, hacc, hres, hag, hans, ?_⟩
  cases hb : s.busy with
  | false =>
    obtain ⟨hmem, hib, hdraws⟩ := exec_of_not_busy_keeps hb h
    simp [hmem, hib, hdraws]
  | true =>
    rcases execReplace_cases h with ⟨hn, -⟩ | ⟨hn, -⟩ | ⟨-, hv, -, rfl⟩
    · exact absurd (hb.symm.trans hn) (by decide)
    · exact absurd (hb.symm.trans hn) (by decide)
    · exact ⟨rpassStep_ib s, fun k _ hk a ha => rpassStep_takes_read hm hv hk ha,
        fun hnone => rpassStep_keeps_of_takes_none (hnone.resolve_left (by decide)),
        fun _ k hk => rpassStep_takes_keeps hk⟩

/-! ## The inverse of a detail split -/

theorem clamp_of_mem_range {v m : Int} (h0 : 0 ≤ v) (hm : v ≤ m) : clamp v 0 m = v := by
  rw [clamp_of_nonneg h0, min_eq_left hm]

/-- Recombining `S - D + n` with `D` gives back `S` (42_replace.md R166). -/
theorem recombineInt_inverts {fmt : PixFmt} {orig : Int} (detail : Int) (h0 : 0 ≤ orig) (hm : orig ≤ fmt.max) :
    recombineInt fmt (orig - detail + fmt.neutral) detail = orig := by
  have hsum : orig - detail + fmt.neutral + detail - fmt.neutral = orig := by ring
  rw [recombineInt, hsum, clamp_of_mem_range h0 hm]

/-- Settles O33: the run to DONE stores the value of each coordinate, which is the original. -/
theorem replaceInvertsDetail : Obligations.ReplaceInvertsDetail := by
  intro s orig hinv hb hd hv hr hf hsplit
  obtain ⟨t, ht, -, -, hregs, hnew, -⟩ := replace_runs_to_done hinv hb hd hv hr
  refine ⟨t, ht, fun x y hx hy => ?_⟩
  obtain ⟨h0, hm, hbase⟩ := hsplit x y hx hy
  obtain ⟨ex, ey⟩ := coord_of_key y hx
  have hstored := hnew _ (coordKey_lt hx hy)
  rw [recombineSample_int hf, ex, ey, hbase, recombineInt_inverts _ h0 hm] at hstored
  rw [rawSample_dst_eq_dstRaw y (hregs ▸ hx), hregs, show t.dstRaw _ = (orig x y).toNat from hstored,
    Int.toNat_of_nonneg h0]

/-! ## The steps of RPASS -/

/-- The step of RPASS at the coordinate it takes (42_replace.md R162). -/
theorem execReplace_rpass_takes {s : State} {k : Nat} (hb : s.busy = true) (hv : validateOp .replace s.regs = none)
    (hp : s.phase = .rpass) (hk : s.takes k) :
    execReplace s = .next ((s.storeDst k (recombineSample s k)).processed k) := by
  rw [execReplace_rpass hb hv hp, rpassStep_some hk]

/-- Clamping from below at 0 and from above at `m` (00_scope.md R12). -/
theorem clamp_eq_max_min {v m : Int} (hm : 0 ≤ m) : clamp v 0 m = max 0 (min v m) := by
  rcases le_total 0 v with hv | hv
  · rw [clamp_of_nonneg hv, max_eq_right (le_min hv hm)]
  · rw [clamp_of_nonpos hv hm, max_eq_left ((min_le_left v m).trans hv)]

/-- Settles O28: the clamped recombination is stored. -/
theorem replaceStepInteger : Obligations.ReplaceStepInteger := by
  intro s k hb hv hp hk hf
  rw [exec_replace, execReplace_rpass_takes hb hv hp hk, recombineSample_int hf, State.storeDst_int_processed,
    recombineInt, clamp_eq_max_min s.regs.fmt.max_nonneg]
  rfl

/-- Settles O29: the recombination in `ACC_FMT` is stored with one rounding and no clamp. -/
theorem replaceStepFloat : Obligations.ReplaceStepFloat := by
  intro s k hb hv hp hk hf
  rw [exec_replace, execReplace_rpass_takes hb hv hp hk, recombineSample_flt hf, State.storeDst_flt_processed,
    recombineFp]

end Sys2Proof.Machine

/-! # Proofs: rounding to an integer (43_format_converter.md R186, R195)

The integer quotient of `rha` is the floor of `q + 1/2`. Where a clamp at 0 follows, half away from zero and half up
differ only on negative numbers, which both round to at most 0. -/

namespace Sys2Proof.Machine

/-- Rounding half up, as the quotient of integers (43_format_converter.md R186). -/
theorem floor_half_up (num : Int) {den : Nat} (hd : 0 < den) :
    ⌊(num : ℚ) / den + 1 / 2⌋ = (2 * num + den) / (2 * den) := by
  have hquot : (num : ℚ) / den + 1 / 2 = ((2 * num + den : Int) : ℚ) / ((2 * den : Nat) : ℚ) := by
    push_cast
    field_simp
  rw [hquot, Rat.floor_intCast_div_natCast]
  push_cast
  rfl

theorem rha_of_nonneg {num : Int} {den : Nat} (hd : 0 < den) (h : 0 ≤ num) :
    rha num den = ⌊(num : ℚ) / den + 1 / 2⌋ := by
  rw [rha, if_pos h, floor_half_up num hd]

theorem rha_of_neg {num : Int} {den : Nat} (hd : 0 < den) (h : num < 0) :
    rha num den = -⌊-((num : ℚ) / den) + 1 / 2⌋ := by
  have hneg : -((num : ℚ) / den) = ((-num : Int) : ℚ) / den := by
    push_cast
    ring
  rw [rha, if_neg (not_le.mpr h), hneg, floor_half_up (-num) hd]

/-- Settles O51: the sign of the quotient is that of its numerator. -/
theorem rhaRoundsHalfAway : Obligations.RhaRoundsHalfAway := by
  intro num den hd
  have hden : (0 : ℚ) < den := by exact_mod_cast hd
  have hsign : 0 ≤ (num : ℚ) / den ↔ 0 ≤ num := by rw [le_div_iff₀ hden, zero_mul, Int.cast_nonneg_iff]
  split
  · rename_i h
    exact rha_of_nonneg hd (hsign.mp h)
  · rename_i h
    exact rha_of_neg hd (not_le.mp (hsign.not.mp h))

/-- A negative number is rounded to at most 0, half away from zero or half up (43_format_converter.md R195). -/
theorem rha_and_floor_nonpos {num : Int} {den : Nat} (hd : 0 < den) (h : num < 0) :
    rha num den ≤ 0 ∧ ⌊(num : ℚ) / den + 1 / 2⌋ ≤ 0 := by
  have hden : (0 : ℚ) < den := by exact_mod_cast hd
  have hq : (num : ℚ) / den < 0 := div_neg_of_neg_of_pos (by exact_mod_cast h) hden
  constructor
  · rw [rha_of_neg hd h, neg_nonpos, Int.floor_nonneg]
    linarith
  · rw [← Int.lt_add_one_iff, Int.floor_lt]
    norm_num
    linarith

/-- Clamping and taking the integer part may be exchanged (43_format_converter.md R195). -/
theorem floor_max_min (x : ℚ) (m : Int) : ⌊max 0 (min x m)⌋ = max 0 (min ⌊x⌋ m) := by
  rw [Int.floor_mono.map_max, Int.floor_mono.map_min, Int.floor_intCast, Int.floor_zero]

/-- Settles O52: from 0 on both roundings are half up, and what is negative clamps to 0. -/
theorem roundingFormsAgree : Obligations.RoundingFormsAgree := by
  intro num m den hd hm
  have hforms : clamp (rha num den) 0 m = clamp ⌊(num : ℚ) / den + 1 / 2⌋ 0 m := by
    rcases le_or_gt 0 num with h | h
    · rw [rha_of_nonneg hd h]
    · obtain ⟨hrha, hfloor⟩ := rha_and_floor_nonpos hd h
      rw [clamp_of_nonpos hrha hm, clamp_of_nonpos hfloor hm]
  exact ⟨hforms, by rw [hforms, clamp_eq_max_min hm, floor_max_min]⟩

end Sys2Proof.Machine

/-! # Proofs: binary32 patterns, infinities and NaNs (20_memory.md R53; 41_extract.md R144; 43_format_converter.md R193)

A pattern is its sign, exponent and fraction fields. A draw that is a NaN pattern stands for itself, so every NaN
pattern can be stored. An infinite column sum stays infinite when it is divided by 256, which the residual inherits. -/

namespace Sys2Proof.Machine

/-! ## Binary32 patterns -/

/-- A pattern is made of its three fields (20_memory.md R53). -/
theorem packBits_fields (w : Word) : packBits (bits w 31 31 == 1) (bits w 30 23) (bits w 22 0) = w := by
  apply BitVec.eq_of_toNat_eq
  have hw := w.isLt
  simp only [packBits, bits, BitVec.toNat_ofNat, beq_iff_eq]
  split <;> omega

/-- The value of a pattern made of fields in their ranges. -/
theorem packBits_toNat (neg : Bool) {ex fr : Nat} (hex : ex < 2 ^ 8) (hfr : fr < 2 ^ 23) :
    (packBits neg ex fr).toNat = (if neg then 2 ^ 31 else 0) + ex * 2 ^ 23 + fr := by
  rw [packBits, BitVec.toNat_ofNat, Nat.mod_eq_of_lt]
  split <;> omega

theorem bits_packBits_exponent (neg : Bool) {ex fr : Nat} (hex : ex < 2 ^ 8) (hfr : fr < 2 ^ 23) :
    bits (packBits neg ex fr) 30 23 = ex := by
  rw [bits, packBits_toNat neg hex hfr]
  split <;> omega

theorem bits_packBits_fraction (neg : Bool) {ex fr : Nat} (hex : ex < 2 ^ 8) (hfr : fr < 2 ^ 23) :
    bits (packBits neg ex fr) 22 0 = fr := by
  rw [bits, packBits_toNat neg hex hfr]
  split <;> omega

/-! ## Stored NaNs -/

theorem storedBits_nan (draw : Word) : storedBits draw .nan = nanBits draw := rfl

/-- A draw stands for a NaN pattern (43_format_converter.md R193). -/
theorem nanBits_is_nan (draw : Word) : bits (nanBits draw) 30 23 = 255 ∧ bits (nanBits draw) 22 0 ≠ 0 := by
  have hfr : (if bits draw 22 0 = 0 then 1 else bits draw 22 0) < 2 ^ 23 := by
    have := bits_lt draw 22 0
    split <;> omega
  rw [nanBits, bits_packBits_exponent _ (by decide) hfr, bits_packBits_fraction _ (by decide) hfr]
  refine ⟨rfl, ?_⟩
  split <;> omega

/-- A draw that is a NaN pattern stands for itself. -/
theorem nanBits_of_nan {w : Word} (hex : bits w 30 23 = 255) (hfr : bits w 22 0 ≠ 0) : nanBits w = w := by
  rw [nanBits, if_neg hfr, ← hex, packBits_fields]

/-- The draw is used for a NaN alone. -/
theorem fpToBits_draw_irrelevant {v : Fp} (draw draw' : Word) (h : v ≠ .nan) : fpToBits draw v = fpToBits draw' v := by
  cases v with
  | nan => exact absurd rfl h
  | inf _ => rfl
  | fin _ _ _ => rfl

/-- Settles O56: a NaN pattern is its own draw. -/
theorem storedNanIsAnyNan : Obligations.StoredNanIsAnyNan :=
  ⟨nanBits_is_nan, fun w hex hfr => ⟨w, nanBits_of_nan hex hfr⟩,
    fun _ draw draw' h => fpToBits_draw_irrelevant draw draw' h⟩

/-! ## Infinities and NaNs -/

theorem fadd_nan_right (f : AccFmt) (v : Fp) : fadd f v .nan = .nan := by cases v <;> rfl

theorem fmul_nan_right (f : AccFmt) (v : Fp) : fmul f v .nan = .nan := by cases v <;> rfl

theorem fdiv_nan_right (f : AccFmt) (v : Fp) : fdiv f v .nan = .nan := by cases v <;> rfl

theorem fsub_inf_inf (f : AccFmt) (p q : Bool) :
    fsub f (.inf p) (.inf q) = if p = q then .nan else .inf p := by
  cases p <;> cases q <;> rfl

/-- The divisor of the blurred value is a positive number (40_blur.md R121). -/
theorem ofNat_256_finite (f : AccFmt) : ∃ m e, Fp.ofNat f 256 = .fin false m e := by
  cases f with
  | b32 => exact ⟨2 ^ 23, -15, by decide⟩
  | b64 => exact ⟨2 ^ 52, -44, by decide⟩

/-- An infinite sum of the column stays an infinity (40_blur.md R121). -/
theorem blurredFp_inf (f : AccFmt) (p : Bool) : blurredFp f (.inf p) = .inf p := by
  obtain ⟨m, e, h⟩ := ofNat_256_finite f
  simp [blurredFp, h, fdiv]

/-- The residual of a finite sample and an infinite blurred value (41_extract.md R144). -/
theorem detailFp_fin_inf (f : AccFmt) (n p : Bool) (m : Nat) (e : Int) :
    detailFp f (.fin n m e) (.inf p) = .inf (!p) := by
  rw [detailFp, blurredFp_inf]
  rfl

theorem detailFp_inf_inf (f : AccFmt) (p : Bool) : detailFp f (.inf p) (.inf p) = .nan := by
  rw [detailFp, blurredFp_inf, fsub_inf_inf, if_pos rfl]
  rfl

/-- Settles O59: the arms of each operation for an infinity or a NaN, and the residual. -/
theorem nonFiniteOperandsPropagate : Obligations.NonFiniteOperandsPropagate := by
  intro f v p q n m e
  exact ⟨⟨rfl, fadd_nan_right f v, rfl, fadd_nan_right f v, rfl, fmul_nan_right f v, rfl, fdiv_nan_right f v, rfl⟩,
    ⟨rfl, rfl, rfl⟩, ⟨fsub_inf_inf f p q, rfl, rfl⟩, ⟨rfl, rfl, rfl⟩, ⟨rfl, rfl, rfl⟩, rfl,
    detailFp_fin_inf f n p m e, detailFp_inf_inf f p⟩

end Sys2Proof.Machine

/-! # Proofs: rounding to nearest, ties to even (43_format_converter.md R191, R192)

At the exponent of its last place a number becomes a rational `y` below `2^prec`. Rounding takes the integer nearest to
`y`. No number of the format is nearer: those of the same or a larger exponent are integers at this one, and those of
a smaller exponent lie below every `y` that has all its bits. A quotient is rounded from a significand that only stands
for it, so what rounding does is said of every number that a significand stands for. -/

namespace Sys2Proof.Machine

/-! ## The nearest integer -/

/-- `q` is the integer nearest to `y`, and the even one of two equally near. -/
def NearestEven (y : ℚ) (q : Nat) : Prop := |y - q| ≤ 1 / 2 ∧ (|y - q| = 1 / 2 → q % 2 = 0)

section Nearest

variable {y : ℚ} {q : Nat}

theorem nearestEven_self (n : Nat) : NearestEven n n := by simp [NearestEven]

theorem nearestEven_of_lt (h : |y - q| < 1 / 2) : NearestEven y q := ⟨h.le, fun heq => absurd heq h.ne⟩

/-- Every other integer is at least as far away. -/
theorem NearestEven.dist_le_natCast (h : NearestEven y q) (k : Nat) :
    |y - q| ≤ |y - k| ∧ (|y - q| = |y - k| → (k : ℚ) ≠ q → q % 2 = 0) := by
  obtain ⟨hhalf, heven⟩ := h
  rcases eq_or_ne k q with rfl | hk
  · exact ⟨le_rfl, fun _ hne => absurd rfl hne⟩
  · have hone : 1 ≤ |(k : ℚ) - q| := by
      exact_mod_cast Int.one_le_abs (sub_ne_zero.mpr (Nat.cast_injective.ne hk : (k : Int) ≠ q))
    have htri := abs_sub_le (k : ℚ) y q
    rw [abs_sub_comm (k : ℚ) y] at htri
    exact ⟨by linarith, fun heq _ => heven (by linarith)⟩

/-- What lies below an integer that `y` does not lie below is farther away. -/
theorem NearestEven.dist_lt_below {n : Nat} {z : ℚ} (h : NearestEven y q) (hn : (n : ℚ) ≤ y) (hz : z < n) :
    |y - q| < |y - z| := by
  have hle := (h.dist_le_natCast n).1
  rw [abs_of_nonneg (sub_nonneg.mpr hn)] at hle
  rw [abs_of_pos (a := y - z) (by linarith)]
  linarith

end Nearest

/-! ## The significand -/

/-- The significand `m` stands for `x` where it is rounded: it is `x`, or it is long, its last bit set, and `x` is less
than one away. So the last bit of a quotient stands for the remainder. -/
def StandsFor (f : AccFmt) (m : Nat) (x : ℚ) : Prop :=
  x = m ∨ (m % 2 = 1 ∧ 2 ^ (f.prec + 1) ≤ m ∧ |x - m| < 1)

/-- Between two multiples of `2^d`, `x` lies on the same side of the midpoint as the significand that stands for it,
for the multiples and the midpoint are even. -/
theorem midpoint_side {m d : Nat} {x : ℚ} (hx : x = m ∨ (m % 2 = 1 ∧ 2 ≤ d ∧ |x - m| < 1)) :
    (2 * (m % 2 ^ d) < 2 ^ d → 0 ≤ x - (m / 2 ^ d : Nat) * 2 ^ d ∧ x - (m / 2 ^ d : Nat) * 2 ^ d < 2 ^ d / 2) ∧
    (2 * (m % 2 ^ d) = 2 ^ d → x - (m / 2 ^ d : Nat) * 2 ^ d = 2 ^ d / 2) ∧
    (2 ^ d < 2 * (m % 2 ^ d) → 2 ^ d / 2 < x - (m / 2 ^ d : Nat) * 2 ^ d ∧ x - (m / 2 ^ d : Nat) * 2 ^ d ≤ 2 ^ d) := by
  have hsplit : (m : ℚ) - (m / 2 ^ d : Nat) * 2 ^ d = (m % 2 ^ d : Nat) := by
    rw [sub_eq_iff_eq_add']
    exact_mod_cast (Nat.div_add_mod' m (2 ^ d)).symm
  have hmod : m % 2 ^ d < 2 ^ d := Nat.mod_lt _ (by positivity)
  have hcast : ((2 ^ d : Nat) : ℚ) = 2 ^ d := by push_cast; rfl
  rcases hx with rfl | ⟨hodd, hd, hnear⟩
  · rw [hsplit, ← hcast]
    refine ⟨fun h => ⟨by positivity, ?_⟩, fun h => ?_, fun h => ⟨?_, by exact_mod_cast hmod.le⟩⟩
    · rw [lt_div_iff₀ two_pos, mul_comm]
      exact_mod_cast h
    · rw [eq_div_iff two_ne_zero, mul_comm]
      exact_mod_cast h
    · rw [div_lt_iff₀ two_pos, mul_comm (_ : ℚ) 2]
      exact_mod_cast h
  · obtain ⟨c, hc⟩ : ∃ c, 2 ^ d = 4 * c := pow_dvd_pow 2 hd
    have hr : m % 2 ^ d % 2 = 1 := by
      rw [Nat.mod_mod_of_dvd m (dvd_pow_self 2 (by omega)), hodd]
    have hx' : x - (m / 2 ^ d : Nat) * 2 ^ d = (x - m) + (m % 2 ^ d : Nat) := by rw [← hsplit]; ring
    obtain ⟨hlo, hhi⟩ := abs_lt.mp hnear
    rw [hx', ← hcast]
    generalize m % 2 ^ d = r at *
    rw [hc] at hmod ⊢
    push_cast
    refine ⟨fun h => ?_, fun h => by omega, fun h => ?_⟩
    · have h1 : (1 : ℚ) ≤ r := by exact_mod_cast (by omega : 1 ≤ r)
      have h2 : (r : ℚ) + 1 ≤ 2 * c := by exact_mod_cast (by omega : r + 1 ≤ 2 * c)
      constructor <;> linarith
    · have h1 : (2 : ℚ) * c + 1 ≤ r := by exact_mod_cast (by omega : 2 * c + 1 ≤ r)
      have h2 : (r : ℚ) + 1 ≤ 4 * c := by exact_mod_cast (by omega : r + 1 ≤ 4 * c)
      constructor <;> linarith

/-- Shifting right rounds to nearest, ties to even, also where `m` only stands for `x`. -/
theorem nearestEven_shiftRoundEven {m d : Nat} {x : ℚ} (hx : x = m ∨ (m % 2 = 1 ∧ 2 ≤ d ∧ |x - m| < 1)) :
    NearestEven (x / 2 ^ d) (shiftRoundEven m d) := by
  obtain ⟨hbelow, hmid, habove⟩ := midpoint_side hx
  have hpos : (0 : ℚ) < 2 ^ d := by positivity
  have hdist (c : ℚ) : x / 2 ^ d - c = (x - c * 2 ^ d) / 2 ^ d := by field_simp
  simp only [shiftRoundEven]
  rcases lt_trichotomy (2 * (m % 2 ^ d)) (2 ^ d) with h | h | h
  · obtain ⟨hlo, hhi⟩ := hbelow h
    rw [if_neg (by omega)]
    apply nearestEven_of_lt
    rw [hdist, abs_of_nonneg (by positivity), div_lt_iff₀ hpos]
    linarith
  · have htie : |x / 2 ^ d - (m / 2 ^ d : Nat)| = 1 / 2 ∧ |x / 2 ^ d - (m / 2 ^ d + 1 : Nat)| = 1 / 2 := by
      have hy : x / 2 ^ d - (m / 2 ^ d : Nat) = 1 / 2 := by
        rw [hdist, hmid h]
        field_simp
      rw [Nat.cast_add_one, ← sub_sub, hy]
      norm_num
    split
    · exact ⟨htie.2.le, fun _ => by omega⟩
    · exact ⟨htie.1.le, fun _ => by omega⟩
  · obtain ⟨hlo, hhi⟩ := habove h
    rw [if_pos (.inl h)]
    apply nearestEven_of_lt
    rw [hdist, abs_lt, lt_div_iff₀ hpos, div_lt_iff₀ hpos]
    push_cast
    constructor <;> linarith

/-- The significand that rounding takes at the exponent it chose, before a carry. -/
def roundMant (f : AccFmt) (m : Nat) (e : Int) : Nat :=
  if roundExp f m e ≤ e then m * 2 ^ (e - roundExp f m e).toNat else shiftRoundEven m (roundExp f m e - e).toNat

section Rounding

variable {f : AccFmt} {m q : Nat} {e u : Int} {x y : ℚ}

theorem AccFmt.prec_ge_two (f : AccFmt) : 2 ≤ f.prec := by cases f <;> decide

theorem AccFmt.two_pow_prec (f : AccFmt) : 2 ^ f.prec = 2 * 2 ^ (f.prec - 1) := by cases f <;> rfl

theorem AccFmt.minExp_lt_maxExp (f : AccFmt) : f.minExp < f.maxExp := by cases f <;> decide

/-- What a significand stands for is as long as it. -/
theorem StandsFor.log2_bounds (h : StandsFor f m x) (hm : m ≠ 0) : 2 ^ Nat.log2 m ≤ x ∧ x < 2 ^ (Nat.log2 m + 1) := by
  have hlo := Nat.log2_self_le hm
  have hhi : m < 2 ^ (Nat.log2 m + 1) := Nat.lt_log2_self
  rcases h with rfl | ⟨hodd, hlong, hnear⟩
  · exact ⟨by exact_mod_cast hlo, by exact_mod_cast hhi⟩
  · obtain ⟨h1, h2⟩ := abs_lt.mp hnear
    have hlog : Nat.log2 m ≠ 0 := by
      have := (Nat.le_log2 hm).mpr hlong
      omega
    have heven : 2 ^ Nat.log2 m % 2 = 0 := Nat.mod_eq_zero_of_dvd (dvd_pow_self 2 hlog)
    have hlo' : (2 : ℚ) ^ Nat.log2 m + 1 ≤ m := by exact_mod_cast (by omega : 2 ^ Nat.log2 m + 1 ≤ m)
    have hhi' : (m : ℚ) + 1 ≤ 2 ^ (Nat.log2 m + 1) := by exact_mod_cast hhi
    constructor <;> linarith

/-- A rounded significand is the nearest integer to what it stands for at the exponent that rounding chooses. -/
theorem StandsFor.nearestEven_roundMant (h : StandsFor f m x) (hm : m ≠ 0) :
    NearestEven (x * 2 ^ (e - roundExp f m e)) (roundMant f m e) := by
  rw [roundMant]
  split
  · rename_i hle
    have hexact : x = m := by
      refine h.resolve_right fun ⟨_, hlong, _⟩ => ?_
      have hlog := (Nat.le_log2 hm).mpr hlong
      have hexp := le_max_left (e + Nat.log2 m + 1 - f.prec) f.minExp
      rw [roundExp] at hle
      omega
    have hy : x * 2 ^ (e - roundExp f m e) = (m * 2 ^ (e - roundExp f m e).toNat : Nat) := by
      rw [hexact, Nat.cast_mul, Nat.cast_pow, Nat.cast_ofNat, ← zpow_natCast, Int.toNat_of_nonneg (by omega)]
    exact hy ▸ nearestEven_self _
  · rename_i hlt
    have hy : x * 2 ^ (e - roundExp f m e) = x / 2 ^ (roundExp f m e - e).toNat := by
      rw [← zpow_natCast, Int.toNat_of_nonneg (by omega), div_eq_mul_inv, ← zpow_neg, neg_sub]
    rw [hy]
    refine nearestEven_shiftRoundEven (h.imp_right fun ⟨hodd, hlong, hnear⟩ => ⟨hodd, ?_, hnear⟩)
    have hlog := (Nat.le_log2 hm).mpr hlong
    have hexp := le_max_left (e + Nat.log2 m + 1 - f.prec) f.minExp
    rw [← roundExp] at hexp
    omega

/-! ## The exponent -/

/-- The exponent `u` is that of the last place which `y * 2^u` has in the format, were exponents unbounded above: `y` is
below `2^prec`, and has all its bits unless `u` is the smallest exponent. -/
structure AccFmt.Placed (f : AccFmt) (y : ℚ) (u : Int) : Prop where
  minExp_le : f.minExp ≤ u
  lt_two_pow : y < 2 ^ f.prec
  normal : f.minExp < u → 2 ^ (f.prec - 1) ≤ y

/-- Rounding chooses the exponent of the last place. -/
theorem StandsFor.placed (h : StandsFor f m x) (hm : m ≠ 0) :
    f.Placed (x * 2 ^ (e - roundExp f m e)) (roundExp f m e) := by
  obtain ⟨hlo, hhi⟩ := h.log2_bounds hm
  have hmax := le_max_left (e + Nat.log2 m + 1 - f.prec) f.minExp
  have hprec := f.prec_ge_two
  refine ⟨le_max_right _ _, ?_, fun hu => ?_⟩
  · rw [← roundExp] at hmax
    calc x * 2 ^ (e - roundExp f m e)
        < 2 ^ (Nat.log2 m + 1) * 2 ^ (e - roundExp f m e) := by gcongr
      _ = 2 ^ (((Nat.log2 m + 1 : Nat) : Int) + (e - roundExp f m e)) := by
          rw [zpow_add₀ two_ne_zero, zpow_natCast]
      _ ≤ 2 ^ (f.prec : Int) := zpow_le_zpow_right₀ one_le_two (by omega)
      _ = 2 ^ f.prec := zpow_natCast _ _
  · have hexp : roundExp f m e = e + Nat.log2 m + 1 - f.prec :=
      max_eq_left ((lt_max_iff.mp hu).resolve_right (lt_irrefl _)).le
    calc (2 : ℚ) ^ (f.prec - 1) = 2 ^ ((Nat.log2 m : Int) + (e - roundExp f m e)) := by
          rw [← zpow_natCast]
          congr 1
          omega
      _ = 2 ^ Nat.log2 m * 2 ^ (e - roundExp f m e) := by rw [zpow_add₀ two_ne_zero, zpow_natCast]
      _ ≤ x * 2 ^ (e - roundExp f m e) := by gcongr

theorem abs_sub_mul_two_zpow (a b : ℚ) (u : Int) : |a * 2 ^ u - b * 2 ^ u| = |a - b| * 2 ^ u := by
  rw [← sub_mul, abs_mul, abs_of_pos (a := (2 : ℚ) ^ u) (by positivity)]

/-- No number of the format is nearer than the nearest integer at the exponent of the last place, for what has more
places lies below. -/
theorem AccFmt.Placed.dist_le_holds (h : f.Placed y u) (hq : NearestEven y q) (hm : f.holds m e) :
    |y * 2 ^ u - q * 2 ^ u| ≤ |y * 2 ^ u - m * 2 ^ e| ∧
      (|y * 2 ^ u - q * 2 ^ u| = |y * 2 ^ u - m * 2 ^ e| → (m : ℚ) * 2 ^ e ≠ q * 2 ^ u → q % 2 = 0) := by
  have hu : (0 : ℚ) < 2 ^ u := by positivity
  rcases le_or_gt u e with hle | hgt
  · rw [← mul_pow_toNat_mul_zpow m hle, abs_sub_mul_two_zpow, abs_sub_mul_two_zpow]
    obtain ⟨hdist, heven⟩ := hq.dist_le_natCast (m * 2 ^ (e - u).toNat)
    exact ⟨by gcongr, fun heq hne => heven (mul_right_cancel₀ hu.ne' heq) fun hk => hne (by rw [hk])⟩
  · have hval : (m : ℚ) * 2 ^ e = m * 2 ^ (e - u) * 2 ^ u := by
      rw [mul_assoc, ← zpow_add₀ two_ne_zero, sub_add_cancel]
    obtain ⟨hprec, hmin, -⟩ := hm
    have hbelow : (m : ℚ) * 2 ^ (e - u) < (2 ^ (f.prec - 1) : Nat) := by
      calc (m : ℚ) * 2 ^ (e - u) < (2 ^ f.prec : Nat) * 2 ^ (e - u) := by gcongr
        _ ≤ (2 ^ f.prec : Nat) * 2 ^ (-1 : Int) := by
            gcongr
            · exact one_le_two
            · omega
        _ = (2 ^ (f.prec - 1) : Nat) := by
            rw [f.two_pow_prec, zpow_neg_one]
            push_cast
            ring
    have hnormal : ((2 ^ (f.prec - 1) : Nat) : ℚ) ≤ y := by exact_mod_cast h.normal (by omega)
    have hlt := hq.dist_lt_below hnormal hbelow
    rw [hval, abs_sub_mul_two_zpow, abs_sub_mul_two_zpow]
    exact ⟨by gcongr, fun heq => absurd (mul_right_cancel₀ hu.ne' heq) hlt.ne⟩

/-! ## Carry and overflow -/

/-- The end of a rounding: a significand that reached `2^prec` is carried into the exponent, and an exponent past the
largest gives an infinity. -/
def carryOut (f : AccFmt) (neg : Bool) (q : Nat) (u : Int) : Fp :=
  let q' := if q = 2 ^ f.prec then 2 ^ (f.prec - 1) else q
  let u' := if q = 2 ^ f.prec then u + 1 else u
  if f.maxExp < u' then .inf neg else .fin neg q' u'

theorem carryOut_two_pow_prec (f : AccFmt) (neg : Bool) (u : Int) : carryOut f neg (2 ^ f.prec) u =
    if f.maxExp < u + 1 then .inf neg else .fin neg (2 ^ (f.prec - 1)) (u + 1) := by
  simp only [carryOut, if_true]

theorem carryOut_of_ne (neg : Bool) (u : Int) (hq : q ≠ 2 ^ f.prec) :
    carryOut f neg q u = if f.maxExp < u then .inf neg else .fin neg q u := by
  simp only [carryOut, if_neg hq]

theorem roundFin_eq_carryOut (neg : Bool) (hm : m ≠ 0) :
    roundFin f neg m e = carryOut f neg (roundMant f m e) (roundExp f m e) := by
  rw [roundFin, if_neg hm]
  rfl

/-- A nearest integer that the format holds lies at least half a place below `2^prec`: a tie has gone to the even
one. -/
theorem NearestEven.lt_of_lt_two_pow_prec (hq : NearestEven y q) (hlt : q < 2 ^ f.prec) : y < 2 ^ f.prec - 1 / 2 := by
  obtain ⟨hhalf, heven⟩ := hq
  have hle : (q : ℚ) + 1 ≤ 2 ^ f.prec := by exact_mod_cast hlt
  have hy := (abs_le.mp hhalf).2
  refine lt_of_le_of_ne (by linarith) fun htie => ?_
  have hlast : q + 1 = 2 ^ f.prec := by exact_mod_cast le_antisymm hle (by linarith)
  have hqtie : y - q = 1 / 2 := by
    have hcast : (q : ℚ) + 1 = 2 ^ f.prec := by exact_mod_cast hlast
    linarith
  have := heven (by rw [hqtie]; norm_num)
  have := f.two_pow_prec
  omega

theorem two_pow_prec_mul_zpow (f : AccFmt) (u : Int) : (2 : ℚ) ^ f.prec * 2 ^ u = 2 ^ (f.prec - 1) * 2 ^ (u + 1) := by
  have hprec : (2 : ℚ) ^ f.prec = 2 * 2 ^ (f.prec - 1) := by exact_mod_cast f.two_pow_prec
  rw [hprec, zpow_add_one₀ two_ne_zero]
  ring

/-- Half the range of significands lies below the overflow bound. -/
theorem half_prec_lt_overflow (f : AccFmt) : (2 : ℚ) ^ (f.prec - 1) < 2 ^ f.prec - 1 / 2 := by
  have hprec : (2 : ℚ) ^ f.prec = 2 * 2 ^ (f.prec - 1) := by exact_mod_cast f.two_pow_prec
  have hone : (1 : ℚ) ≤ 2 ^ (f.prec - 1) := one_le_pow₀ one_le_two
  linarith

/-- A nearest integer that is not carried is below `2^prec`. -/
theorem AccFmt.Placed.nearest_lt (h : f.Placed y u) (hq : NearestEven y q) (hcarry : q ≠ 2 ^ f.prec) :
    q < 2 ^ f.prec := by
  have hy := h.lt_two_pow
  have hdist := (abs_le.mp hq.1).1
  have hsucc : (q : ℚ) < 2 ^ f.prec + 1 := by linarith
  exact lt_of_le_of_ne (Nat.lt_succ_iff.mp (by exact_mod_cast hsucc)) hcarry

/-- A significand that reached `2^prec`, carried into the exponent, is the rounding (43_format_converter.md R191). -/
theorem AccFmt.Placed.roundsTo_carried (neg : Bool) (h : f.Placed y u) (hq : NearestEven y (2 ^ f.prec)) :
    f.roundsTo neg (y * 2 ^ u) (carryOut f neg (2 ^ f.prec) u) := by
  have hhalf := half_prec_lt_overflow f
  have hbound : (0 : ℚ) ≤ 2 ^ f.prec - 1 / 2 := hhalf.le.trans' (by positivity)
  have hval := two_pow_prec_mul_zpow f u
  rw [carryOut_two_pow_prec]
  split
  · rename_i hover
    have hy : (2 : ℚ) ^ f.prec - 1 / 2 ≤ y := by
      have hdist := (abs_le.mp hq.1).1
      push_cast at hdist
      linarith
    exact ⟨rfl, mul_le_mul hy (zpow_le_zpow_right₀ one_le_two (Int.lt_add_one_iff.mp hover)) (by positivity)
      (hbound.trans hy)⟩
  · rename_i hover
    have hexp := not_lt.mp hover
    refine ⟨rfl, ?_, ⟨?_, (h.minExp_le).trans (by omega), hexp⟩, fun m e hm => ?_⟩
    · calc y * 2 ^ u < 2 ^ f.prec * 2 ^ u := by gcongr; exact h.lt_two_pow
        _ = 2 ^ (f.prec - 1) * 2 ^ (u + 1) := hval
        _ ≤ f.overflow := mul_le_mul hhalf.le (zpow_le_zpow_right₀ one_le_two hexp) (by positivity) hbound
    · rw [f.two_pow_prec]
      exact lt_two_mul_self (by positivity)
    · have heven : 2 ^ (f.prec - 1) % 2 = 0 :=
        Nat.mod_eq_zero_of_dvd (dvd_pow_self 2 (by have := f.prec_ge_two; omega))
      have hdist := (h.dist_le_holds hq hm).1
      push_cast at hdist ⊢
      rw [hval] at hdist
      exact ⟨hdist, fun _ _ => heven⟩

/-- The nearest integer at the exponent of the last place, carried and checked for overflow, is the rounding
(43_format_converter.md R191). -/
theorem AccFmt.Placed.roundsTo_carryOut (neg : Bool) (h : f.Placed y u) (hq : NearestEven y q) :
    f.roundsTo neg (y * 2 ^ u) (carryOut f neg q u) := by
  have hhalf := half_prec_lt_overflow f
  by_cases hcarry : q = 2 ^ f.prec
  · subst hcarry
    exact h.roundsTo_carried neg hq
  have hlt := h.nearest_lt hq hcarry
  rw [carryOut_of_ne neg u hcarry]
  split
  · rename_i hover
    have hnormal := h.normal (f.minExp_lt_maxExp.trans hover)
    refine ⟨rfl, ?_⟩
    calc f.overflow ≤ 2 ^ f.prec * 2 ^ f.maxExp := by
          unfold AccFmt.overflow
          gcongr
          linarith
      _ = 2 ^ (f.prec - 1) * 2 ^ (f.maxExp + 1) := two_pow_prec_mul_zpow f f.maxExp
      _ ≤ y * 2 ^ u := mul_le_mul hnormal (zpow_le_zpow_right₀ one_le_two hover) (by positivity)
          (hnormal.trans' (by positivity))
  · rename_i hover
    have hexp := not_lt.mp hover
    refine ⟨rfl, ?_, ⟨hlt, h.minExp_le, hexp⟩, fun m e hm => h.dist_le_holds hq hm⟩
    calc y * 2 ^ u < (2 ^ f.prec - 1 / 2) * 2 ^ u := by gcongr; exact hq.lt_of_lt_two_pow_prec hlt
      _ ≤ f.overflow := mul_le_mul_of_nonneg_left (zpow_le_zpow_right₀ one_le_two hexp)
          (hhalf.le.trans' (by positivity))

/-- Zero is a number of the format. -/
theorem roundsTo_zero (f : AccFmt) (neg : Bool) : f.roundsTo neg 0 (.fin neg 0 f.minExp) := by
  have hover : 0 < f.overflow := mul_pos ((half_prec_lt_overflow f).trans' (by positivity)) (by positivity)
  refine ⟨rfl, hover, ⟨by positivity, le_rfl, f.minExp_lt_maxExp.le⟩, fun m e _ => ⟨?_, fun _ _ => rfl⟩⟩
  rw [Nat.cast_zero, zero_mul, sub_zero, abs_zero]
  exact abs_nonneg _

/-- Rounding a significand rounds what it stands for (43_format_converter.md R191). -/
theorem StandsFor.roundsTo_roundFin (neg : Bool) (h : StandsFor f m x) :
    f.roundsTo neg (x * 2 ^ e) (roundFin f neg m e) := by
  by_cases hm : m = 0
  · have hx : x = 0 := by
      rcases h with hx | ⟨hodd, -⟩
      · rw [hx, hm, Nat.cast_zero]
      · omega
    rw [hx, zero_mul, roundFin, if_pos hm]
    exact roundsTo_zero f neg
  · have hval : x * 2 ^ e = x * 2 ^ (e - roundExp f m e) * 2 ^ roundExp f m e := by
      rw [mul_assoc, ← zpow_add₀ two_ne_zero, sub_add_cancel]
    rw [roundFin_eq_carryOut neg hm, hval]
    exact (h.placed hm).roundsTo_carryOut neg (h.nearestEven_roundMant hm)

end Rounding

/-- Settles O53: a significand stands for itself, and a conversion is a rounding. -/
theorem roundingIsNearestEven : Obligations.RoundingIsNearestEven := by
  intro f neg m e
  have h : f.roundsTo neg ((m : ℚ) * 2 ^ e) (roundFin f neg m e) := StandsFor.roundsTo_roundFin neg (.inl rfl)
  exact ⟨h, h⟩

end Sys2Proof.Machine

/-! # Proofs: the operations round once (43_format_converter.md R191)

A sum of finite data is an integer at the smaller exponent, a product a product of significands, and the sticky quotient
stands for the exact quotient. The sign of a result is that of the exact one, or the rule for zeros. -/

namespace Sys2Proof.Machine

section ExactResult

variable {f : AccFmt} {na nb : Bool} {ma mb : Nat} {ea eb : Int} {qa qb : ℚ}

/-! ## Sums and differences -/

theorem mul_two_zpow_neg_iff (v e : Int) : (v : ℚ) * 2 ^ e < 0 ↔ v < 0 := by
  have he : (0 : ℚ) < 2 ^ e := by positivity
  rw [← Int.cast_lt_zero (R := ℚ), mul_neg_iff]
  simp [he, he.not_gt]

theorem mul_two_zpow_eq_zero_iff (v e : Int) : (v : ℚ) * 2 ^ e = 0 ↔ v = 0 := by
  simp [zpow_ne_zero]

/-- The sum of finite data is the rounding of their exact sum, which is an integer at the smaller of the exponents. -/
theorem fadd_fin_eq (f : AccFmt) (ha : (Fp.fin na ma ea).value = some qa) (hb : (Fp.fin nb mb eb).value = some qb) :
    ∃ v e : Int, (v : ℚ) * 2 ^ e = qa + qb ∧ fadd f (.fin na ma ea) (.fin nb mb eb) =
      if v = 0 then .fin (na && nb) 0 f.minExp else roundFin f (decide (v < 0)) v.natAbs e := by
  rw [Fp.value_fin, Option.some.injEq] at ha hb
  refine ⟨alignedMant na ma ea (min ea eb) + alignedMant nb mb eb (min ea eb), min ea eb, ?_, rfl⟩
  rw [Int.cast_add, add_mul, alignedMant_mul_zpow na ma (min_le_left ea eb),
    alignedMant_mul_zpow nb mb (min_le_right ea eb), ha, hb]

theorem fadd_roundsTo (f : AccFmt) (ha : (Fp.fin na ma ea).value = some qa) (hb : (Fp.fin nb mb eb).value = some qb)
    (hne : qa + qb ≠ 0) :
    f.roundsTo (decide (qa + qb < 0)) |qa + qb| (fadd f (.fin na ma ea) (.fin nb mb eb)) := by
  obtain ⟨v, e, hsum, heq⟩ := fadd_fin_eq f ha hb
  rw [← hsum] at hne ⊢
  have hsign : decide ((v : ℚ) * 2 ^ e < 0) = decide (v < 0) := decide_eq_decide.mpr (mul_two_zpow_neg_iff v e)
  have hmag : |(v : ℚ) * 2 ^ e| = (v.natAbs : ℚ) * 2 ^ e := by
    rw [abs_mul, abs_of_pos (a := (2 : ℚ) ^ e) (by positivity), Nat.cast_natAbs, Int.cast_abs]
  rw [heq, if_neg ((mul_two_zpow_eq_zero_iff v e).not.mp hne), hsign, hmag]
  exact StandsFor.roundsTo_roundFin _ (.inl rfl)

/-- The sign of a zero sum. -/
theorem fadd_of_sum_zero (f : AccFmt) (ha : (Fp.fin na ma ea).value = some qa) (hb : (Fp.fin nb mb eb).value = some qb)
    (hz : qa + qb = 0) : fadd f (.fin na ma ea) (.fin nb mb eb) = .fin (na && nb) 0 f.minExp := by
  obtain ⟨v, e, hsum, heq⟩ := fadd_fin_eq f ha hb
  rw [heq, if_pos ((mul_two_zpow_eq_zero_iff v e).mp (hsum.trans hz))]

/-! ## Products -/

theorem Fp.abs_value (ha : (Fp.fin na ma ea).value = some qa) : |qa| = ma * 2 ^ ea := by
  rw [← Option.some.inj ha, abs_sign_mul]

theorem Fp.value_eq_zero_iff (ha : (Fp.fin na ma ea).value = some qa) : qa = 0 ↔ ma = 0 := by
  rw [← abs_eq_zero, Fp.abs_value ha]
  simp [zpow_ne_zero]

theorem fmul_roundsTo (f : AccFmt) (ha : (Fp.fin na ma ea).value = some qa) (hb : (Fp.fin nb mb eb).value = some qb) :
    f.roundsTo (na ^^ nb) |qa * qb| (fmul f (.fin na ma ea) (.fin nb mb eb)) := by
  have hmag : |qa * qb| = ((ma * mb : Nat) : ℚ) * 2 ^ (ea + eb) := by
    rw [abs_mul, Fp.abs_value ha, Fp.abs_value hb, zpow_add₀ two_ne_zero, Nat.cast_mul]
    ring
  rw [hmag]
  exact StandsFor.roundsTo_roundFin _ (.inl rfl)

/-! ## Quotients -/

/-- A dividend that is not zero, once shifted, has more quotient bits than the format. -/
theorem two_pow_prec_le_shifted_quotient (f : AccFmt) (ha : ma ≠ 0) (hb : mb ≠ 0) :
    2 ^ f.prec ≤ ma * 2 ^ divShift f mb / mb := by
  rw [Nat.le_div_iff_mul_le (Nat.pos_of_ne_zero hb)]
  calc 2 ^ f.prec * mb ≤ 2 ^ f.prec * 2 ^ (Nat.log2 mb + 1) := Nat.mul_le_mul_left _ Nat.lt_log2_self.le
    _ ≤ 2 ^ divShift f mb := by
        rw [← pow_add]
        exact Nat.pow_le_pow_right two_pos (by unfold divShift; omega)
    _ ≤ ma * 2 ^ divShift f mb := Nat.le_mul_of_pos_left _ (Nat.pos_of_ne_zero ha)

/-- The sticky quotient stands for twice the exact quotient of the shifted dividend. -/
theorem stickyQuotient_standsFor (f : AccFmt) (ma : Nat) (hb : mb ≠ 0) :
    StandsFor f (stickyQuotient f ma mb) (2 * (ma * 2 ^ divShift f mb) / mb) := by
  have hmb : (0 : ℚ) < mb := by exact_mod_cast Nat.pos_of_ne_zero hb
  by_cases hdvd : mb ∣ ma * 2 ^ divShift f mb
  · left
    have hmul : (stickyQuotient f ma mb : ℚ) * mb = ma * 2 ^ (divShift f mb + 1) := by
      exact_mod_cast stickyQuotient_mul hdvd
    rw [div_eq_iff hmb.ne', hmul, pow_succ]
    ring
  · right
    have hrem : ma * 2 ^ divShift f mb % mb ≠ 0 := fun h => hdvd (Nat.dvd_of_mod_eq_zero h)
    have hma : ma ≠ 0 := by
      rintro rfl
      simp at hdvd
    have hlong := two_pow_prec_le_shifted_quotient f hma hb
    have hlt := Nat.mod_lt (ma * 2 ^ divShift f mb) (Nat.pos_of_ne_zero hb)
    have hsplit : (ma : ℚ) * 2 ^ divShift f mb =
        mb * (ma * 2 ^ divShift f mb / mb : Nat) + (ma * 2 ^ divShift f mb % mb : Nat) := by
      exact_mod_cast (Nat.div_add_mod (ma * 2 ^ divShift f mb) mb).symm
    rw [hsplit, stickyQuotient, if_neg hrem]
    generalize ma * 2 ^ divShift f mb % mb = r at *
    generalize ma * 2 ^ divShift f mb / mb = q at *
    have hr0 : (0 : ℚ) < r := by exact_mod_cast Nat.pos_of_ne_zero hrem
    have hr1 : (r : ℚ) < mb := by exact_mod_cast hlt
    have hdist : 2 * ((mb : ℚ) * q + r) / mb - (2 * q + 1 : Nat) = 2 * (r / mb) - 1 := by
      push_cast
      field_simp
      ring
    refine ⟨by omega, by rw [pow_succ]; omega, ?_⟩
    have hfrac0 : 0 < (r : ℚ) / mb := by positivity
    have hfrac1 : (r : ℚ) / mb < 1 := (div_lt_one hmb).mpr hr1
    rw [hdist, abs_lt]
    constructor <;> linarith

theorem fdiv_roundsTo (f : AccFmt) (ha : (Fp.fin na ma ea).value = some qa) (hb : (Fp.fin nb mb eb).value = some qb)
    (hqb : qb ≠ 0) : f.roundsTo (na ^^ nb) |qa / qb| (fdiv f (.fin na ma ea) (.fin nb mb eb)) := by
  have hmb : mb ≠ 0 := (Fp.value_eq_zero_iff hb).not.mp hqb
  have hexp : (2 : ℚ) ^ ea = 2 ^ (ea - eb - divShift f mb - 1) * 2 ^ eb * 2 ^ divShift f mb * 2 := by
    rw [← zpow_natCast, ← zpow_add₀ two_ne_zero, ← zpow_add₀ two_ne_zero, ← zpow_add_one₀ two_ne_zero]
    congr 1
    ring
  have hmag : |qa / qb| = 2 * (ma * 2 ^ divShift f mb) / mb * 2 ^ (ea - eb - divShift f mb - 1) := by
    rw [abs_div, Fp.abs_value ha, Fp.abs_value hb, hexp]
    field_simp
  simp only [fdiv, if_neg hmb]
  rw [hmag]
  exact (stickyQuotient_standsFor f ma hmb).roundsTo_roundFin _

/-- A quotient by zero. -/
theorem fdiv_zero_divisor (f : AccFmt) (ha : (Fp.fin na ma ea).value = some qa)
    (hb : (Fp.fin nb mb eb).value = some qb) (hqb : qb = 0) :
    fdiv f (.fin na ma ea) (.fin nb mb eb) = if qa = 0 then .nan else .inf (na ^^ nb) := by
  simp only [fdiv, if_pos ((Fp.value_eq_zero_iff hb).mp hqb), Fp.value_eq_zero_iff ha]

end ExactResult

/-- Settles O54: each operation rounds its exact result, a difference as the sum with the negated operand; a result
that the format represents is rounded to itself. -/
theorem operationsRoundExactResult : Obligations.OperationsRoundExactResult := by
  intro f na nb ma mb ea eb a b qa qb ha hb
  have hneg : (Fp.fin (!nb) mb eb).value = some (-qb) := Fp.neg_value hb
  simp only [sub_eq_add_neg]
  exact ⟨fadd_roundsTo f ha hb, fadd_of_sum_zero f ha hb, fadd_roundsTo f ha hneg, fadd_of_sum_zero f ha hneg,
    fmul_roundsTo f ha hb, fdiv_roundsTo f ha hb, fdiv_zero_divisor f ha hb, fadd_value ha hb, fadd_value ha hneg,
    fmul_value ha hb, fdiv_value ha hb⟩

end Sys2Proof.Machine

/-! # Proofs: a loaded sample stored again (43_format_converter.md R185, R189, R192)

Of the forms of one number, rounding answers the one that has all its bits or the smallest exponent. A binary32 pattern
is loaded in that form, so the two conversions lead back to it. -/

namespace Sys2Proof.Machine

section Normal

variable {f : AccFmt} {m p : Nat} {e q : Int}

/-- The exponent that rounding chooses is at least that of a form of the number with all its bits, or with the smallest
exponent. -/
theorem le_roundExp_of_normal (hn : q = f.minExp ∨ 2 ^ (f.prec - 1) ≤ p) (hv : (m : ℚ) * 2 ^ e = p * 2 ^ q) :
    q ≤ roundExp f m e := by
  rw [roundExp, le_max_iff]
  refine hn.symm.imp (fun hlong => ?_) le_of_eq
  have hlt : (2 : ℚ) ^ (((f.prec - 1 : Nat) : Int) + q) < 2 ^ (((Nat.log2 m + 1 : Nat) : Int) + e) := by
    calc (2 : ℚ) ^ (((f.prec - 1 : Nat) : Int) + q)
        = (2 ^ (f.prec - 1) : Nat) * 2 ^ q := (two_pow_mul_zpow _ _).symm
      _ ≤ p * 2 ^ q := by gcongr
      _ = m * 2 ^ e := hv.symm
      _ < (2 ^ (Nat.log2 m + 1) : Nat) * 2 ^ e := by
          gcongr
          exact Nat.lt_log2_self
      _ = 2 ^ (((Nat.log2 m + 1 : Nat) : Int) + e) := two_pow_mul_zpow _ _
  have hexp := (zpow_lt_zpow_iff_right₀ (one_lt_two (α := ℚ))).mp hlt
  have hprec := f.prec_ge_two
  omega

/-- Rounding answers a number of the format in the one form that has all its bits or the smallest exponent. -/
theorem roundFin_eq_normal (neg : Bool) (hp : f.holds p q) (hn : q = f.minExp ∨ 2 ^ (f.prec - 1) ≤ p)
    (hv : (m : ℚ) * 2 ^ e = p * 2 ^ q) : roundFin f neg m e = .fin neg p q := by
  have hzero : m = 0 ↔ p = 0 := by
    simpa [zpow_ne_zero] using (congrArg (· = 0) hv).to_iff
  by_cases hm : m = 0
  · have hp0 := hzero.mp hm
    have hq : q = f.minExp := hn.resolve_right (by rw [hp0]; exact not_le.mpr (by positivity))
    rw [roundFin, if_pos hm, hp0, hq]
  · have hexp : roundExp f m e = q := (roundExp_le_of_holds hm hp hv).antisymm (le_roundExp_of_normal hn hv)
    have hfin := roundFin_eq_fin (n := p) neg hm (hexp ▸ hp.2.2) hp.1 (hexp ▸ hv.symm)
    rwa [hexp] at hfin

/-- Rounding keeps sign and magnitude of a number of the format. -/
theorem roundFin_keeps {neg : Bool} (hx : f.represents ((if neg then -1 else 1) * (m : ℚ) * 2 ^ e)) :
    ∃ p q, roundFin f neg m e = .fin neg p q ∧ (p : ℚ) * 2 ^ q = m * 2 ^ e := by
  obtain ⟨sign, p, q, hfin, hval⟩ := Fp.exists_of_value (roundFin_value hx rfl)
  have hround : f.roundsTo neg ((m : ℚ) * 2 ^ e) (roundFin f neg m e) := StandsFor.roundsTo_roundFin neg (.inl rfl)
  rw [hfin] at hround
  obtain ⟨rfl, -⟩ := hround
  refine ⟨p, q, hfin, ?_⟩
  rw [← abs_sign_mul sign p q, hval, abs_sign_mul]

end Normal

/-- Both formats represent the numbers of binary32 (43_format_converter.md R185). -/
theorem AccFmt.represents_of_b32 (f : AccFmt) {q : ℚ} (h : AccFmt.b32.represents q) : f.represents q := by
  cases f with
  | b32 => exact h
  | b64 => simpa using AccFmt.represents_b64_mul (n := 1) h (by decide)

/-- Taken into `ACC_FMT` and back, a number of binary32 is the same in the same form (43_format_converter.md R192). -/
theorem fcvt_b32_fcvt (f : AccFmt) (neg : Bool) {m : Nat} {e : Int} (hm : AccFmt.b32.holds m e)
    (hn : e = -149 ∨ 2 ^ 23 ≤ m) : fcvt .b32 (fcvt f (.fin neg m e)) = .fin neg m e := by
  obtain ⟨p, q, hfin, hval⟩ := roundFin_keeps (f.represents_of_b32 ⟨neg, m, e, hm, rfl⟩)
  rw [fcvt, hfin]
  exact roundFin_eq_normal neg hm hn hval

/-- A pattern with a finite exponent field is a number of binary32 in the form that rounding answers, and its bits are
those of that number (20_memory.md R53). -/
theorem fpOfBits_finite {w : Word} (draw : Word) (hw : bits w 30 23 ≠ 255) :
    ∃ neg m e, fpOfBits w = .fin neg m e ∧ AccFmt.b32.holds m e ∧ (e = -149 ∨ 2 ^ 23 ≤ m) ∧
      fpToBits draw (.fin neg m e) = w := by
  have hex : bits w 30 23 < 2 ^ 8 := bits_lt w 30 23
  have hfr : bits w 22 0 < 2 ^ 23 := bits_lt w 22 0
  have hpack := packBits_fields w
  simp only [fpOfBits, if_neg hw]
  split
  · rename_i hzero
    refine ⟨_, _, _, rfl, AccFmt.holds_b32_iff.mpr (by omega), .inl rfl, ?_⟩
    rw [hzero] at hpack
    rw [fpToBits, if_pos hfr, hpack]
  · refine ⟨_, _, _, rfl, AccFmt.holds_b32_iff.mpr (by omega), .inr (Nat.le_add_right _ _), ?_⟩
    have hexp : ((bits w 30 23 : Int) - 150 + 150).toNat = bits w 30 23 := by omega
    rw [fpToBits, if_neg (by omega), hexp, Nat.add_sub_cancel_left, hpack]

/-- Settles O55: an infinity has one pattern for each sign, and a number keeps its form. -/
theorem loadStoreKeepsPattern : Obligations.LoadStoreKeepsPattern := by
  intro f w draw hnan
  by_cases hw : bits w 30 23 = 255
  · have hfr : bits w 22 0 = 0 := by
      by_contra hfr
      simp [fpOfBits, hw, hfr] at hnan
    have hpack := packBits_fields w
    rw [hw, hfr] at hpack
    simp only [fpOfBits, hw, hfr, if_true]
    exact hpack
  · obtain ⟨neg, m, e, hload, hm, hn, hstore⟩ := fpOfBits_finite draw hw
    rw [hload, storedBits, fcvt_b32_fcvt f neg hm hn, hstore]

end Sys2Proof.Machine

/-! # Proofs: register accesses, STATUS, and the progress of a BUSY block (44_launch_and_status.md R209 to R221)

What a register access does is said once for each kind of register it can name. A BUSY block whose host is idle goes on
by its own turns, and each of them leaves fewer steps to do. -/

namespace Sys2Proof.Machine

/-! ## The register an access names -/

/-- The block's registers are the multiples of 4 below `0x40` (10_state.md R21). -/
theorem regTarget_isSome_iff {off : Nat} : (regTarget off).isSome = true ↔ off % 4 = 0 ∧ off < 0x40 := by
  constructor
  · intro h
    unfold regTarget at h
    split at h <;> simp_all
  · rintro ⟨hmod, hlt⟩
    obtain ⟨k, rfl⟩ := Nat.dvd_of_mod_eq_zero hmod
    have hk : k < 16 := by omega
    interval_cases k <;> rfl

/-- An access names no register exactly where it is not an aligned 32-bit one inside the block
(44_launch_and_status.md R217). -/
theorem accessTarget_eq_none_iff {off size : Nat} :
    accessTarget off size = none ↔ size ≠ 4 ∨ off % 4 ≠ 0 ∨ 0x40 ≤ off := by
  by_cases hsize : size = 4
  · rw [accessTarget, if_pos hsize, ← Option.not_isSome_iff_eq_none, regTarget_isSome_iff]
    omega
  · simp [accessTarget, hsize]

/-- CTRL stands at offset 0 alone (10_state.md R21). -/
theorem accessTarget_eq_ctrl {off size : Nat} (h : accessTarget off size = some .ctrl) : off = 0x00 ∧ size = 4 := by
  unfold accessTarget at h
  split at h
  · rename_i hsize
    unfold regTarget at h
    split at h <;> simp_all
  · cases h

/-! ## What a register access does, by the register it names -/

section Access

variable {off size : Nat} {v : Word} {s : State}

theorem hostWrite_of_none (h : accessTarget off size = none) : hostWrite off size v s = .refused .registerAccess := by
  simp [hostWrite, h]

/-- Bit 0 of a write to CTRL is START; the other bits are not read (44_launch_and_status.md R210). -/
theorem hostWrite_of_ctrl (h : accessTarget off size = some .ctrl) :
    hostWrite off size v s = if bits v 0 0 = 1 then start s else .next s := by
  simp [hostWrite, h]

theorem hostWrite_of_status (h : accessTarget off size = some .status) : hostWrite off size v s = .next s := by
  simp [hostWrite, h]

theorem hostWrite_of_reserved (h : accessTarget off size = some .reserved) : hostWrite off size v s = .next s := by
  simp [hostWrite, h]

/-- A read-write register is frozen while BUSY (44_launch_and_status.md R212). -/
theorem hostWrite_of_storage {n : RegName} (h : accessTarget off size = some (.storage n)) :
    hostWrite off size v s = if s.busy then .next s else .next { s with regs := s.regs.set n v } := by
  simp [hostWrite, h]

theorem hostRead_of_none (h : accessTarget off size = none) : hostRead off size s = .refused .registerAccess := by
  simp [hostRead, h]

theorem hostRead_of_some {r : RegTarget} (h : accessTarget off size = some r) :
    hostRead off size s = .next (s.answer (.register (s.readReg r))) := by
  simp [hostRead, h]

/-- START of a BUSY block is ignored (44_launch_and_status.md R214). -/
theorem start_of_busy (hb : s.busy = true) : start s = .next s := by
  simp [start, hb]

/-- A BUSY block ignores a write to any register it has (44_launch_and_status.md R212, R214). -/
theorem hostWrite_of_busy {r : RegTarget} (hb : s.busy = true) (h : accessTarget off size = some r) :
    hostWrite off size v s = .next s := by
  cases r with
  | ctrl => rw [hostWrite_of_ctrl h, start_of_busy hb, ite_self]
  | status => exact hostWrite_of_status h
  | reserved => exact hostWrite_of_reserved h
  | storage n => rw [hostWrite_of_storage h, if_pos hb]

/-- A register write that is not START leaves STATUS as it is (44_launch_and_status.md R216). -/
theorem hostWrite_keeps_status {t : State} (hstart : off = 0x00 → size = 4 → bits v 0 0 ≠ 1)
    (ht : hostWrite off size v s = .next t) : t.status = s.status := by
  cases h : accessTarget off size with
  | none =>
    rw [hostWrite_of_none h] at ht
    cases ht
  | some r =>
    cases r with
    | ctrl =>
      obtain ⟨hoff, hsize⟩ := accessTarget_eq_ctrl h
      rw [hostWrite_of_ctrl h, if_neg (hstart hoff hsize)] at ht
      cases ht
      rfl
    | status =>
      rw [hostWrite_of_status h] at ht
      cases ht
      rfl
    | reserved =>
      rw [hostWrite_of_reserved h] at ht
      cases ht
      rfl
    | storage n =>
      rw [hostWrite_of_storage h] at ht
      split at ht <;> cases ht <;> rfl

end Access

/-! ## STATUS of a block that is not BUSY -/

theorem not_busy_of_runState {s : State} (h : s.runState = .done ∨ s.runState = .rejected) : s.busy = false := by
  rcases h with h | h <;> simp [State.busy, h]

/-- On a block that is not BUSY only START and reset change STATUS (44_launch_and_status.md R216). -/
theorem takeTurn_keeps_status {u : Turn} {s t : State} (hb : s.busy = false)
    (hstart : ∀ v, u = .regWrite 0x00 4 v → bits v 0 0 ≠ 1) (hreset : u ≠ .reset) (ht : takeTurn u s = .next t) :
    t.status = s.status := by
  cases u with
  | regWrite off size v =>
    refine hostWrite_keeps_status (fun hoff hsize => hstart v ?_) ht
    rw [hoff, hsize]
  | regRead off size =>
    obtain ⟨a, rfl⟩ := hostRead_cases ht
    rfl
  | load addr =>
    obtain ⟨a, rfl⟩ := hostLoad_cases ht
    rfl
  | store addr v =>
    obtain ⟨-, -, -, rfl⟩ := hostStore_cases ht
    rfl
  | block =>
    rcases blockTurn_cases ht with ⟨-, rfl⟩ | ⟨hbusy, -⟩
    · rfl
    · exact absurd (hb.symm.trans hbusy) (by decide)
  | wait =>
    rcases hostWait_cases ht with ⟨hbusy, -⟩ | ⟨-, rfl⟩
    · exact absurd (hb.symm.trans hbusy) (by decide)
    · rfl
  | reset => exact absurd rfl hreset

/-! ## The turns of a BUSY block -/

/-- A BUSY block runs the instruction that CMD holds (44_launch_and_status.md R220). -/
theorem blockTurn_of_decode {s : State} {i : Instr} (hb : s.busy = true) (hi : decode s.regs.cmd = .instr i) :
    blockTurn s = exec i s := by
  simp [blockTurn, fetch, hb, hi]

/-- `WAIT` on a BUSY block polls on: it stays on the schedule, and the block has its turn (30_encoding.md R94). -/
theorem hostWait_of_busy {s : State} (hb : s.busy = true) :
    hostWait s = blockTurn { s with agenda := .wait :: s.agenda } := by
  simp [hostWait, hb]

/-! ## The steps a BUSY block has left (44_launch_and_status.md R219, R221) -/

/-- How many of the first `n` coordinates are not in DONE_SET. -/
def todoCount (n : Nat) (done : List Nat) : Nat := ((Finset.range n).filter (· ∉ done)).card

theorem todoCount_le (n : Nat) (done : List Nat) : todoCount n done ≤ n :=
  (Finset.card_filter_le _ _).trans (Finset.card_range n).le

/-- A coordinate that enters DONE_SET is one less to do. -/
theorem todoCount_insertCoord_lt {n k : Nat} {done : List Nat} (hk : k < n) (hnot : k ∉ done) :
    todoCount n (insertCoord k done) < todoCount n done := by
  refine Finset.card_lt_card (Finset.ssubset_iff_subset_ne.mpr ⟨?_, fun heq => ?_⟩)
  · exact Finset.monotone_filter_right _ fun j _ hj hmem => hj (mem_insertCoord.mpr (.inr hmem))
  · have hmem : k ∈ (Finset.range n).filter (· ∉ done) := by simp [hk, hnot]
    rw [← heq] at hmem
    simp at hmem

/-- A bound on the steps a running command still takes: the coordinates of its phase, in HPASS those of VPASS and the turn
to it as well, and completion. -/
def State.stepsLeft (s : State) : Nat :=
  if s.phase = .hpass then todoCount s.regs.srcPlane.count s.doneSet + s.regs.srcPlane.count + 2
  else todoCount s.regs.srcPlane.count s.doneSet + 1

theorem State.stepsLeft_pos (s : State) : 0 < s.stepsLeft := by
  unfold State.stepsLeft
  split <;> omega

theorem State.stepsLeft_le (s : State) : s.stepsLeft ≤ 2 * s.regs.srcPlane.count + 2 := by
  have := todoCount_le s.regs.srcPlane.count s.doneSet
  unfold State.stepsLeft
  split <;> omega

/-- A step at a coordinate, of whichever pass, leaves fewer steps. -/
theorem State.stepsLeft_lt_of_takes {s t : State} {k : Nat} (hk : s.takes k) (hr : t.regs = s.regs)
    (hp : t.phase = s.phase) (hd : t.doneSet = insertCoord k s.doneSet) : t.stepsLeft < s.stepsLeft := by
  obtain ⟨hlt, hnot⟩ := nextCoord_some hk
  have := todoCount_insertCoord_lt hlt hnot
  unfold State.stepsLeft
  rw [hr, hp, hd]
  split <;> omega

/-- The turn to VPASS leaves fewer steps. -/
theorem State.stepsLeft_turn_lt {s : State} (hp : s.phase = .hpass) :
    { s with phase := .vpass, doneSet := [] }.stepsLeft < s.stepsLeft := by
  have := todoCount_le s.regs.srcPlane.count []
  simp only [State.stepsLeft, hp, reduceCtorEq, if_true, if_false]
  omega

/-- The step from `s` to `t` completes the command, or leaves it BUSY with fewer steps to do. -/
def State.Progresses (s t : State) : Prop :=
  t.status = statusWord .done 0 ∨ (t.busy = true ∧ t.stepsLeft < s.stepsLeft)

section Progress

variable {s : State}

theorem State.progresses_storeDst {k : Nat} (hb : s.busy = true) (hk : s.takes k) (d : Datum) :
    s.Progresses ((s.storeDst k d).processed k) :=
  .inr ⟨(State.busy_congr (by simp)).trans hb, State.stepsLeft_lt_of_takes hk (by simp) (by simp) (by simp)⟩

theorem hpassStep_progresses (d : Nat) (hb : s.busy = true) (hp : s.phase = .hpass) :
    s.Progresses (hpassStep d s) := by
  rcases hpassStep_cases d s with ⟨k, hk, e⟩ | ⟨-, e⟩ <;> rw [e]
  · exact .inr ⟨hb, State.stepsLeft_lt_of_takes hk rfl rfl rfl⟩
  · exact .inr ⟨hb, State.stepsLeft_turn_lt hp⟩

theorem vpassStep_progresses (d : Nat) (hb : s.busy = true) : s.Progresses (vpassStep d s) := by
  rcases vpassStep_cases d s with ⟨k, hk, e⟩ | ⟨-, e⟩ <;> rw [e]
  · exact State.progresses_storeDst hb hk _
  · exact .inl rfl

theorem rpassStep_progresses (hb : s.busy = true) : s.Progresses (rpassStep s) := by
  rcases rpassStep_cases s with ⟨k, hk, e⟩ | ⟨-, e⟩ <;> rw [e]
  · exact State.progresses_storeDst hb hk _
  · exact .inl rfl

/-- A running command always has a next step, and it makes progress (44_launch_and_status.md R219, R220). -/
theorem State.Running.exec_progresses {i : Instr} (h : s.Running i) (hb : s.busy = true) :
    ∃ t, exec i s = .next t ∧ s.Progresses t := by
  obtain ⟨-, hv, -, hfits⟩ := h
  cases i with
  | extract radius =>
    rcases phaseFits_extract.mp hfits with hp | hp
    · exact ⟨_, execExtract_hpass hb hv hp, hpassStep_progresses _ hb hp⟩
    · exact ⟨_, execExtract_vpass hb hv hp, vpassStep_progresses _ hb⟩
  | replace => exact ⟨_, execReplace_rpass hb hv (phaseFits_replace.mp hfits), rpassStep_progresses hb⟩

/-- The step of a BUSY block with an idle host: the invariant, the registers and the empty schedule stay, and the command
makes progress. -/
theorem State.Inv.step_progresses (h : s.Inv) (hb : s.busy = true) (hs : s.agenda = []) :
    ∃ t, step s = .next t ∧ t.Inv ∧ t.regs = s.regs ∧ t.agenda = [] ∧ s.Progresses t := by
  obtain ⟨i, hrun⟩ := h.running hb
  have ⟨hd, _⟩ := hrun
  obtain ⟨t, he, hprog⟩ := hrun.exec_progresses hb
  obtain ⟨-, -, hagenda, -⟩ := exec_keeps_surroundings he
  exact ⟨t, (step_of_idle_host hs).trans ((blockTurn_of_decode hb hd).trans he), exec_keeps_inv h hd he, exec_regs he,
    hagenda.trans hs, hprog⟩

end Progress

/-- A BUSY block with an idle host is DONE within the steps it has left, by induction on a bound of them
(44_launch_and_status.md R219). -/
theorem State.Inv.core_run_to_done : ∀ {n : Nat} {s : State}, s.Inv → s.busy = true → s.agenda = [] → s.stepsLeft ≤ n →
    ∃ m t, m ≤ n ∧ core.run m s = .next t ∧ t.status = statusWord .done 0 ∧ t.regs = s.regs
  | 0, s, _, _, _, hn => absurd s.stepsLeft_pos (by omega)
  | n + 1, s, h, hb, hs, hn => by
    obtain ⟨u, hstep, hinv, hregs, hagenda, hdone | ⟨hbusy, hlt⟩⟩ := h.step_progresses hb hs
    · exact ⟨1, u, by omega, core_run_succ hstep, hdone, hregs⟩
    · obtain ⟨m, t, hm, hrun, hdone, hregs'⟩ := hinv.core_run_to_done hbusy hagenda (n := n) (by omega)
      exact ⟨m + 1, t, by omega, (core_run_succ hstep).trans hrun, hdone, hregs'.trans hregs⟩

/-! ## The statements -/

/-- Settles O37: each turn of the block makes progress, and at most `2 W H + 2` steps are left at any time. -/
theorem busyBlockReachesDone : Obligations.BusyBlockReachesDone :=
  fun s hinv hb hs => hinv.core_run_to_done hb hs s.stepsLeft_le

/-- Settles O40: a block that is DONE or REJECTED is not BUSY, so its own turn is idle, and the other entries of the
schedule keep STATUS. -/
theorem statusPersists : Obligations.StatusPersists := by
  intro s t hrun ht hstart hreset
  have hb := not_busy_of_runState hrun
  cases hs : s.agenda with
  | nil =>
    rcases blockTurn_cases (step_of_idle_host hs ▸ ht) with ⟨-, rfl⟩ | ⟨hbusy, -⟩
    · rfl
    · exact absurd (hb.symm.trans hbusy) (by decide)
  | cons u rest =>
    rw [step_of_turn hs] at ht
    refine takeTurn_keeps_status (s := { s with agenda := rest }) hb (fun v hu => hstart v ?_) (fun hu => hreset ?_) ht
    · rw [hs, hu, List.head?_cons]
    · rw [hs, hu, List.head?_cons]

/-- Settles O42: an aligned 32-bit access inside the block names a register, and a BUSY block ignores its write. -/
theorem busyBlockIgnoresWrites : Obligations.BusyBlockIgnoresWrites := by
  intro s off v rest hb hmod hlt hs
  have hsome : accessTarget off 4 ≠ none := fun hnone => by
    have := accessTarget_eq_none_iff.mp hnone
    omega
  obtain ⟨r, hr⟩ := Option.ne_none_iff_exists'.mp hsome
  exact (step_of_turn hs).trans (hostWrite_of_busy (s := { s with agenda := rest }) hb hr)

/-- Settles O8: a write to CTRL with bit 0 set is START, which runs the instruction that CMD holds. -/
theorem startRunsDecodedCommand : Obligations.StartRunsDecodedCommand := by
  intro s v rest i hs hv hb hi
  calc step s
      = hostWrite 0x00 4 v { s with agenda := rest } := step_of_turn hs
    _ = start { s with agenda := rest } := by rw [hostWrite_of_ctrl rfl, if_pos hv]
    _ = exec i { s with agenda := rest } := start_of_decode (s := { s with agenda := rest }) hb hi

/-- Settles O9: each of the three schedules gives the BUSY block its turn, and a poll is put back. -/
theorem busyBlockRunsDecodedCommand : Obligations.BusyBlockRunsDecodedCommand := by
  intro s i hb hi
  refine ⟨fun hs => ?_, fun rest hs => ?_, fun rest hs => ?_⟩
  · exact (step_of_idle_host hs).trans (blockTurn_of_decode hb hi)
  · exact (step_of_turn hs).trans (blockTurn_of_decode (s := { s with agenda := rest }) hb hi)
  · calc step s
        = hostWait { s with agenda := rest } := step_of_turn hs
      _ = blockTurn { s with agenda := .wait :: rest } := hostWait_of_busy (s := { s with agenda := rest }) hb
      _ = blockTurn s := by rw [← hs]
      _ = exec i s := blockTurn_of_decode hb hi

/-- Settles O16: the launch of a valid and resident EXTRACT. -/
theorem extractStartBecomesBusy : Obligations.ExtractStartBecomesBusy :=
  fun _ _ hb hv hr => execExtract_start hb hv hr

/-- Settles O22: with every coordinate done VPASS has none to take, so it discards IB and completes. -/
theorem extractCompletes : Obligations.ExtractCompletes := by
  intro s radius hb hv hp hdone
  rw [exec_extract, execExtract_vpass hb hv hp, vpassStep_none (nextCoord_none.mpr hdone)]
  rfl

/-- Settles O27: the launch of a valid and resident REPLACE. -/
theorem replaceStartBecomesBusy : Obligations.ReplaceStartBecomesBusy :=
  fun _ hb hv hr => execReplace_start hb hv hr

/-- Settles O30: with every coordinate done RPASS has none to take, so it completes. -/
theorem replaceCompletes : Obligations.ReplaceCompletes := by
  intro s hb hv hp hdone
  rw [exec_replace, execReplace_rpass hb hv hp, rpassStep_none (nextCoord_none.mpr hdone)]
  rfl

/-- Settles O43, by the register that each offset names. -/
theorem writesWithoutEffect : Obligations.WritesWithoutEffect := by
  intro s off v rest hoff hs
  have hstep : step s = hostWrite off 4 v { s with agenda := rest } := step_of_turn hs
  rw [hstep]
  rcases hoff with rfl | rfl | rfl | rfl | ⟨rfl, hv⟩
  · exact hostWrite_of_status rfl
  · exact hostWrite_of_reserved rfl
  · exact hostWrite_of_reserved rfl
  · exact hostWrite_of_reserved rfl
  · exact (hostWrite_of_ctrl rfl).trans (if_neg (by simp [hv]))

/-- Settles O44, by the register that each offset names. -/
theorem hostReadAnswers : Obligations.HostReadAnswers := by
  intro s off rest hs
  have hstep : step s = hostRead off 4 { s with agenda := rest } := step_of_turn hs
  rw [hstep]
  refine ⟨?_, ?_, ?_⟩
  · rintro (rfl | rfl | rfl | rfl)
    · exact hostRead_of_some (r := .ctrl) rfl
    · exact hostRead_of_some (r := .reserved) rfl
    · exact hostRead_of_some (r := .reserved) rfl
    · exact hostRead_of_some (r := .reserved) rfl
  · rintro rfl
    exact hostRead_of_some (r := .status) rfl
  · rintro n rfl
    exact hostRead_storage { s with agenda := rest } n

/-- Settles O45: such an access names no register. -/
theorem oddRegisterAccessRefused : Obligations.OddRegisterAccessRefused := by
  intro s off size v rest hodd
  have hnone := accessTarget_eq_none_iff.mpr hodd
  exact ⟨fun hs => (step_of_turn hs).trans (hostWrite_of_none hnone),
    fun hs => (step_of_turn hs).trans (hostRead_of_none hnone)⟩

end Sys2Proof.Machine

/-! # Proofs: rejections and the absence of faults (60_exceptions.md R230 to R249)

Validation is a chain of tests in the order of their codes, so one rule about a link of such a chain says that it reports
the lowest code. A START that validation rejects changes STATUS alone. In the states of the invariant no turn ends in a
fault: a block that is not BUSY launches, and a BUSY one runs a command that has a next step. -/

namespace Sys2Proof

/-! ## The fields of a decoded command word (30_encoding.md R81 to R83) -/

/-- The operation code of an instruction (30_encoding.md R82). -/
def Instr.opCode : Instr → Nat
  | .extract _ => 1
  | .replace => 2

theorem op_of_decode {w : Word} {i : Instr} (h : decode w = .instr i) : bits w 3 0 = i.opCode := by
  cases i with
  | extract radius =>
    obtain ⟨⟨-, -, hop⟩, -⟩ := decode_eq_extract_iff.mp h
    exact hop
  | replace =>
    obtain ⟨-, -, hop⟩ := decode_eq_replace_iff.mp h
    exact hop

/-- The radius of a decoded EXTRACT is the signed byte CMD[15:8] (30_encoding.md R83). -/
theorem radius_of_decode {w : Word} {radius : Int} (h : decode w = .instr (.extract radius)) :
    (w.extractLsb' 8 8).toInt = radius :=
  (decode_eq_extract_iff_row.mp h).2

end Sys2Proof

namespace Sys2Proof.Machine

/-! ## No step faults (60_exceptions.md R239, R249) -/

section NoFault

variable {s : State} {f : Fault}

theorem launch_ne_fault {i : Instr} {p : Phase} : launch i p s ≠ .fault f := by
  unfold launch
  split
  · simp
  · split <;> simp

/-- The instruction that CMD holds is launched, or it runs and has a next step (44_launch_and_status.md R213, R220). -/
theorem State.Inv.exec_ne_fault {i : Instr} (h : s.Inv) (hd : decode s.regs.cmd = .instr i) : exec i s ≠ .fault f := by
  cases hb : s.busy with
  | false =>
    obtain ⟨p, hp⟩ := exec_of_not_busy hb i
    exact hp ▸ launch_ne_fault
  | true =>
    obtain ⟨t, ht, -⟩ := (h.running_of_decode hb hd).exec_progresses hb
    simp [ht]

/-- CMD of a BUSY block holds an instruction, so its turn is a step of it (44_launch_and_status.md R212, R220). -/
theorem State.Inv.blockTurn_ne_fault (h : s.Inv) : blockTurn s ≠ .fault f := by
  cases hb : s.busy with
  | false => simp [blockTurn, hb]
  | true =>
    obtain ⟨i, hd, -⟩ := h.running hb
    exact blockTurn_of_decode hb hd ▸ h.exec_ne_fault hd

theorem State.Inv.start_ne_fault (h : s.Inv) : start s ≠ .fault f := by
  cases hb : s.busy with
  | true => simp [start_of_busy hb]
  | false =>
    cases hd : decode s.regs.cmd with
    | rejected e => simp [start, fetch, hb, hd]
    | instr i => exact start_of_decode hb hd ▸ h.exec_ne_fault hd

theorem State.Inv.hostWrite_ne_fault {off size : Nat} {v : Word} (h : s.Inv) : hostWrite off size v s ≠ .fault f := by
  cases ha : accessTarget off size with
  | none => simp [hostWrite_of_none ha]
  | some r =>
    cases r with
    | ctrl =>
      rw [hostWrite_of_ctrl ha]
      split
      · exact h.start_ne_fault
      · simp
    | status => simp [hostWrite_of_status ha]
    | reserved => simp [hostWrite_of_reserved ha]
    | storage n =>
      rw [hostWrite_of_storage ha]
      split <;> simp

theorem hostRead_ne_fault {off size : Nat} : hostRead off size s ≠ .fault f := by
  unfold hostRead
  split <;> simp

theorem hostLoad_ne_fault {a : Word} : hostLoad a s ≠ .fault f := by
  unfold hostLoad
  split_ifs <;> simp

theorem hostStore_ne_fault {a : Word} {v : Byte} : hostStore a v s ≠ .fault f := by
  unfold hostStore
  split_ifs <;> simp

theorem State.Inv.hostWait_ne_fault (h : s.Inv) : hostWait s ≠ .fault f := by
  cases hb : s.busy with
  | true => exact hostWait_of_busy hb ▸ (h.setAgenda _).blockTurn_ne_fault
  | false => simp [hostWait_of_not_busy hb]

theorem State.Inv.takeTurn_ne_fault {u : Turn} (h : s.Inv) : takeTurn u s ≠ .fault f := by
  cases u with
  | regWrite off size v => exact h.hostWrite_ne_fault
  | regRead off size => exact hostRead_ne_fault
  | load addr => exact hostLoad_ne_fault
  | store addr v => exact hostStore_ne_fault
  | block => exact h.blockTurn_ne_fault
  | wait => exact h.hostWait_ne_fault
  | reset => simp [takeTurn]

end NoFault

/-! ## The rejected START (60_exceptions.md R240) -/

/-- A write to CTRL with bit 0 set is START (44_launch_and_status.md R210). -/
theorem step_of_start {s : State} {v : Word} {rest : List Turn} (hs : s.agenda = .regWrite 0x00 4 v :: rest)
    (hv : bits v 0 0 = 1) : step s = start { s with agenda := rest } := by
  have hctrl : accessTarget 0x00 4 = some .ctrl := rfl
  exact (step_of_turn hs).trans ((hostWrite_of_ctrl hctrl).trans (if_pos hv))

/-- START of a command that validation rejects, be it the word or a check on its planes (60_exceptions.md R240). -/
theorem start_of_invalid {s : State} {c : RejectCode} (hb : s.busy = false) (hc : validate s.regs = some c) :
    start s = .next (s.reject c) := by
  cases hd : decode s.regs.cmd with
  | rejected e =>
    obtain rfl : c = .eOp := Option.some.inj (hc.symm.trans (validate_of_rejected hd))
    simp [start, fetch, hb, hd]
  | instr i =>
    obtain ⟨p, hp⟩ := exec_of_not_busy hb i
    rw [start_of_decode hb hd, hp, launch_reject (validate_of_instr hd ▸ hc)]

/-- The STATUS word of a rejection: STATE 3 in bits 1:0, the code in bits 7:4 (30_encoding.md R87, R88). -/
theorem statusWord_rejected (c : RejectCode) : statusWord .rejected c.code = BitVec.ofNat 32 (3 + 16 * c.code) := by
  cases c <;> rfl

/-! ## The lowest code whose condition holds (60_exceptions.md R238) -/

section Lowest

variable {P : RejectCode → Prop}

/-- No code below `n` has its condition met. -/
def NoneBelow (P : RejectCode → Prop) (n : Nat) : Prop := ∀ c : RejectCode, c.code < n → ¬ P c

/-- The answer names the lowest code whose condition is met; none, if no condition is. -/
def LowestCause (P : RejectCode → Prop) : Option RejectCode → Prop
  | some c => P c ∧ NoneBelow P c.code
  | none => ∀ c, ¬ P c

theorem RejectCode.code_injective : Function.Injective RejectCode.code := by
  intro c d h
  cases c <;> cases d <;> cases h <;> rfl

theorem noneBelow_succ {c : RejectCode} (hbelow : NoneBelow P c.code) (hc : ¬ P c) : NoneBelow P (c.code + 1) := by
  intro d hd
  rcases Nat.lt_succ_iff_lt_or_eq.mp hd with hlt | heq
  · exact hbelow d hlt
  · rwa [RejectCode.code_injective heq]

/-- No code is lower than E_OP's. -/
theorem noneBelow_eOp : NoneBelow P RejectCode.eOp.code := by
  intro c hc
  cases c <;> simp [RejectCode.code] at hc

/-- The codes end at 7 (30_encoding.md R88). -/
theorem RejectCode.code_lt_eight (c : RejectCode) : c.code < 8 := by
  cases c <;> decide

/-- Two answers that name the lowest code are the same. -/
theorem LowestCause.unique {o o' : Option RejectCode} (h : LowestCause P o) (h' : LowestCause P o') : o = o' := by
  cases o with
  | none =>
    cases o' with
    | none => rfl
    | some d => exact absurd h'.1 (h d)
  | some c =>
    cases o' with
    | none => exact absurd h.1 (h' c)
    | some d =>
      have hcd : c.code ≤ d.code := not_lt.mp fun hlt => h.2 d hlt h'.1
      have hdc : d.code ≤ c.code := not_lt.mp fun hlt => h'.2 c hlt h.1
      rw [RejectCode.code_injective (hcd.antisymm hdc)]

theorem LowestCause.eq_iff {o : Option RejectCode} (h : LowestCause P o) (o' : Option RejectCode) :
    o = o' ↔ LowestCause P o' :=
  ⟨fun heq => heq ▸ h, h.unique⟩

/-- One link of the chain of tests: where no lower code's condition is met, the test answers for its own code, and the rest
of the chain for the codes above it. -/
theorem lowestCause_ite {c : RejectCode} {b : Bool} {o : Option RejectCode} (hbelow : NoneBelow P c.code)
    (hc : P c ↔ b = true) (hrest : NoneBelow P (c.code + 1) → LowestCause P o) :
    LowestCause P (if b then some c else o) := by
  cases b with
  | true => exact ⟨hc.mpr rfl, hbelow⟩
  | false => exact hrest (noneBelow_succ hbelow fun h => absurd (hc.mp h) Bool.false_ne_true)

end Lowest

/-! ## The conditions of the codes, test by test (60_exceptions.md R231 to R237) -/

theorem ofCode_eq_none_iff {w : Word} : PixFmt.ofCode w = none ↔ badFormat w := by
  unfold PixFmt.ofCode badFormat
  split_ifs with h0 h1 h2
  · simp [h0]
  · simp [h1]
  · simp [h2]
  · exact iff_of_true rfl ⟨h0, h1, h2⟩

/-- The plane at a descriptor's address and stride, with the shape that all planes of a command have. -/
def Regs.descriptorPlane (r : Regs) (d : Nat × Nat) : Plane :=
  { addr := d.1, stride := d.2, width := dimWidth r.p0.dim, height := dimHeight r.p0.dim, fmt := r.fmt }

section Conditions

variable {r : Regs} {i : Instr}

/-- E_OP is the cause of the words that are no instruction (60_exceptions.md R231). -/
theorem rejectCause_eOp_iff : RejectCause r .eOp ↔ ∃ e, decode r.cmd = .rejected e := by
  unfold RejectCause decode
  split_ifs <;> simp <;> omega

/-- The planes a command uses are those of its descriptors (60_exceptions.md R230). -/
theorem usedPlanes_eq_map (hd : decode r.cmd = .instr i) : usedPlanes r i = r.descriptors.map r.descriptorPlane := by
  have hop := op_of_decode hd
  rw [Regs.descriptors, hop]
  cases i <;> rfl

theorem inputPlanes_eq_map (hd : decode r.cmd = .instr i) : inputPlanes r i = r.inputs.map r.descriptorPlane := by
  have hop := op_of_decode hd
  rw [Regs.inputs, hop]
  cases i <;> rfl

/-- Once E_FMT has passed, the sample size is that of P0's format code (43_format_converter.md R182). -/
theorem size_fmt_eq_sampleBytes (hf : ¬ badFormat r.p0.fmt) : r.fmt.size = r.sampleBytes := by
  unfold badFormat at hf
  unfold Regs.fmt PixFmt.ofCode Regs.sampleBytes
  split_ifs with h0 h1 h2
  · rfl
  · rfl
  · rfl
  · exact absurd ⟨h0, h1, h2⟩ hf

theorem footEnd_descriptorPlane (hf : ¬ badFormat r.p0.fmt) (d : Nat × Nat) :
    (r.descriptorPlane d).footEnd = r.endOf d := by
  rw [Regs.endOf, ← size_fmt_eq_sampleBytes hf]
  rfl

/-- E_FMT (60_exceptions.md R232). -/
theorem rejectCause_eFmt_iff (hd : decode r.cmd = .instr i) : RejectCause r .eFmt ↔ condFmt i r = true := by
  have hop := op_of_decode hd
  cases i <;> simp [RejectCause, condFmt, inputRegs, ofCode_eq_none_iff, hop, Instr.opCode]

/-- E_RADIUS (60_exceptions.md R233). -/
theorem rejectCause_eRadius_iff (hd : decode r.cmd = .instr i) : RejectCause r .eRadius ↔ condRadius i = true := by
  have hop := op_of_decode hd
  cases i with
  | extract radius => simp [RejectCause, condRadius, hop, Instr.opCode, radius_of_decode hd]
  | replace => simp [RejectCause, condRadius, hop, Instr.opCode]

/-- E_MISMATCH (60_exceptions.md R234). -/
theorem rejectCause_eMismatch_iff (hd : decode r.cmd = .instr i) :
    RejectCause r .eMismatch ↔ condMismatch i r = true := by
  have hop := op_of_decode hd
  cases i <;> simp [RejectCause, condMismatch, hop, Instr.opCode]

/-- E_GEOM (b) and (c), for one plane (60_exceptions.md R235). -/
theorem badGeometry_descriptorPlane (hf : ¬ badFormat r.p0.fmt) (d : Nat × Nat) :
    (r.descriptorPlane d).badGeometry = true ↔
      d.2 < dimWidth r.p0.dim * r.sampleBytes ∨ 2 ^ 32 < r.endOf d := by
  rw [Plane.badGeometry, Bool.or_eq_true, decide_eq_true_iff, decide_eq_true_iff, footEnd_descriptorPlane hf,
    ← size_fmt_eq_sampleBytes hf]
  rfl

/-- E_GEOM (d), along one axis (60_exceptions.md R235). -/
theorem tooSmall_iff (hd : decode r.cmd = .instr i) (size : Nat) : tooSmall i size = true ↔
    bits r.cmd 3 0 = 1 ∧ (size : Int) - 1 < 2 * 2 ^ ((r.cmd.extractLsb' 8 8).toInt - 1).toNat := by
  have hop := op_of_decode hd
  cases i with
  | extract radius =>
    rw [radius_of_decode hd, ← natCast_dilation]
    simp only [tooSmall, oneReflectionSuffices, Bool.not_eq_true', decide_eq_false_iff_not, hop, Instr.opCode, true_and]
    omega
  | replace => simp [tooSmall, hop, Instr.opCode]

/-- E_GEOM (60_exceptions.md R235): (b) and (c) over the descriptors, (d) on both axes. -/
theorem rejectCause_eGeom_iff (hd : decode r.cmd = .instr i) (hf : ¬ badFormat r.p0.fmt) :
    RejectCause r .eGeom ↔ condGeom i r = true := by
  simp only [RejectCause, condGeom, usedPlanes_eq_map hd, Bool.or_eq_true, decide_eq_true_eq, List.any_map,
    List.any_eq_true, Function.comp_apply, badGeometry_descriptorPlane hf, tooSmall_iff hd,
    and_or_left, or_assoc]

/-- E_ALIGN (60_exceptions.md R236). -/
theorem rejectCause_eAlign_iff (hd : decode r.cmd = .instr i) (hf : ¬ badFormat r.p0.fmt) :
    RejectCause r .eAlign ↔ condAlign i r = true := by
  simp only [RejectCause, condAlign, usedPlanes_eq_map hd, List.any_map, List.any_eq_true, Function.comp_apply,
    Plane.misaligned, Bool.or_eq_true, decide_eq_true_eq, ← size_fmt_eq_sampleBytes hf]
  rfl

/-- E_OVERLAP (60_exceptions.md R237). -/
theorem rejectCause_eOverlap_iff (hd : decode r.cmd = .instr i) (hf : ¬ badFormat r.p0.fmt) :
    RejectCause r .eOverlap ↔ condOverlap i r = true := by
  have hdst : r.dstPlane = r.descriptorPlane (r.dstAddr.toNat, r.dstStride.toNat) := rfl
  simp only [RejectCause, condOverlap, inputPlanes_eq_map hd, List.any_map, List.any_eq_true, Function.comp_apply,
    Bool.not_eq_true', Plane.disjoint, Bool.or_eq_false_iff, decide_eq_false_iff_not, hdst, footEnd_descriptorPlane hf,
    not_or]
  rfl

/-- The chain of tests of a decoded command names the lowest code whose condition is met (60_exceptions.md R238). -/
theorem lowestCause_validateOp (hd : decode r.cmd = .instr i) : LowestCause (RejectCause r) (validateOp i r) := by
  have hword : ¬ RejectCause r .eOp := fun h => by
    obtain ⟨e, he⟩ := rejectCause_eOp_iff.mp h
    cases hd.symm.trans he
  have belowFmt : NoneBelow (RejectCause r) RejectCode.eFmt.code := noneBelow_succ (c := .eOp) noneBelow_eOp hword
  refine lowestCause_ite belowFmt (rejectCause_eFmt_iff hd) fun belowRadius => ?_
  have hf : ¬ badFormat r.p0.fmt := fun h => belowRadius .eFmt (by decide) (.inl h)
  refine lowestCause_ite belowRadius (rejectCause_eRadius_iff hd) fun belowMismatch => ?_
  refine lowestCause_ite belowMismatch (rejectCause_eMismatch_iff hd) fun belowGeom => ?_
  refine lowestCause_ite belowGeom (rejectCause_eGeom_iff hd hf) fun belowAlign => ?_
  refine lowestCause_ite belowAlign (rejectCause_eAlign_iff hd hf) fun belowOverlap => ?_
  exact lowestCause_ite belowOverlap (rejectCause_eOverlap_iff hd hf) fun belowEnd c => belowEnd c c.code_lt_eight

/-- `validate` names the lowest code whose condition is met (60_exceptions.md R238). -/
theorem lowestCause_validate (r : Regs) : LowestCause (RejectCause r) (validate r) := by
  cases hd : decode r.cmd with
  | rejected e =>
    rw [validate_of_rejected hd]
    exact ⟨rejectCause_eOp_iff.mpr ⟨e, hd⟩, noneBelow_eOp⟩
  | instr i => exact validate_of_instr hd ▸ lowestCause_validateOp hd

end Conditions

/-! ## The statements -/

/-- Settles O36: where the schedule is empty the block has its turn, else the first entry has its own. -/
theorem noStepFaults : Obligations.NoStepFaults := by
  intro s f h
  cases hs : s.agenda with
  | nil => exact step_of_idle_host hs ▸ h.blockTurn_ne_fault
  | cons u rest => exact step_of_turn hs ▸ (h.setAgenda rest).takeTurn_ne_fault

/-- Settles O11: `validate` answers the lowest code whose condition is met, and there is one at most. -/
theorem validationReportsLowestCause : Obligations.ValidationReportsLowestCause :=
  fun r => ⟨fun c => (lowestCause_validate r).eq_iff (some c), (lowestCause_validate r).eq_iff none⟩

/-- Settles O12: START takes the rejection, which writes STATUS. -/
theorem rejectionChangesStatusAlone : Obligations.RejectionChangesStatusAlone := by
  intro s v rest c hs hv hb hc
  rw [step_of_start hs hv, start_of_invalid (s := { s with agenda := rest }) hb hc, State.reject, statusWord_rejected]

/-- Settles O13: CMD of reset holds OP 0, so it is E_OP that START reports. -/
theorem resetCommandIsRejected : Obligations.ResetCommandIsRejected := by
  intro s rest hr hb hs
  have hc : validate s.regs = some .eOp := hr ▸ (by decide : validate State.reset.regs = some .eOp)
  exact rejectionChangesStatusAlone s 1 rest .eOp hs (by decide) hb hc

end Sys2Proof.Machine

/-! # Proofs: reset, and a command that it cuts short (70_reset_and_hazards.md R270 to R273)

Reset leaves memory as it is, so R272 is about the states a run goes through. Before START and in HPASS memory is that of
START; in VPASS and RPASS `Stored` tells the samples already stored from those that are not. Either way each sample is old
or new. -/

namespace Sys2Proof.Machine

/-! ## The turn of reset -/

@[simp] theorem ibLookup_nil (k : Nat) : ibLookup k [] = none := rfl

theorem takeTurn_reset (s : State) : takeTurn .reset s = .next s.applyReset := rfl

/-! ## Memory in the middle of a command -/

/-- Memory as a command started in `s₀` may leave it at any time: each sample of DST holds its old value or the one the
command stores, and the bytes that belong to no sample are those of START (70_reset_and_hazards.md R272). -/
structure OldOrNew (i : Instr) (s₀ : State) (m : Memory) : Prop where
  samples : ∀ k < s₀.regs.srcPlane.count,
    rawSample m s₀.regs.dstPlane (coordX s₀.regs.dstPlane.width k) (coordY s₀.regs.dstPlane.width k) = s₀.dstRaw k ∨
    storedAs (commandValue i s₀ k)
      (rawSample m s₀.regs.dstPlane (coordX s₀.regs.dstPlane.width k) (coordY s₀.regs.dstPlane.width k))
  outside : ∀ a, ¬ s₀.regs.dstPlane.sampleByte a → m.read a = s₀.mem.read a

/-- In the memory of START every sample is old. -/
theorem OldOrNew.of_mem_eq {i : Instr} {s₀ : State} {m : Memory} (h : m = s₀.mem) : OldOrNew i s₀ m := by
  subst h
  exact ⟨fun _ _ => .inl rfl, fun _ _ => rfl⟩

/-- While samples are being stored, those in DONE_SET are new and the others old. -/
theorem Stored.oldOrNew {i : Instr} {s₀ s : State} (h : Stored i s₀ s) (hr : s.regs = s₀.regs) :
    OldOrNew i s₀ s.mem := by
  refine ⟨fun k hk => ?_, h.outside⟩
  rw [← hr]
  by_cases hdone : k ∈ s.doneSet
  · exact .inr (h.new k hdone)
  · exact .inl (h.old k (hr ▸ hk) hdone)

/-! ## A command after some of its steps -/

theorem iterExec_succ {i : Instr} {n : Nat} {s t : State} (h : exec i s = .next t) :
    iterExec i (n + 1) s = iterExec i n t := by
  simp [iterExec, h]

section CutShort

variable {s₀ : State}

/-- START and all of HPASS, with the turn to VPASS (40_blur.md R118; 44_launch_and_status.md R221). -/
theorem extract_reaches_vpass {radius : Int} (hinv : s₀.Inv) (hb : s₀.busy = false)
    (hd : decode s₀.regs.cmd = .instr (.extract radius)) (hv : validateOp (.extract radius) s₀.regs = none)
    (hr : commandResident (.extract radius) s₀ = true) :
    ∃ t, iterExec (.extract radius) (s₀.regs.srcPlane.count + 1 + 1) s₀ = .next t ∧ InVpass radius s₀ t ∧
      t.doneSet = [] := by
  obtain ⟨hstart, hin⟩ := extract_start hinv hb hd hv hr
  obtain ⟨s₁, hpass, hin₁, hlen⟩ := iterExec_pass (fun _ _ h hk => InHpass.step hd hv h hk) s₀.regs.srcPlane.count
    (s₀.enter .hpass) hin (by simp)
  obtain ⟨t, hturn, hin₂, hdone⟩ := hin₁.turn hd hv (by simpa using hlen)
  exact ⟨t, (iterExec_succ hstart).trans ((iterExec_add hpass).trans (iterExec_one hturn)), hin₂, hdone⟩

/-- EXTRACT after any number of steps before DONE: not started, in HPASS, or in VPASS. -/
theorem extract_cut_short {radius : Int} (hinv : s₀.Inv) (hb : s₀.busy = false)
    (hd : decode s₀.regs.cmd = .instr (.extract radius)) (hv : validateOp (.extract radius) s₀.regs = none)
    (hr : commandResident (.extract radius) s₀ = true) :
    ∀ n < 2 * s₀.regs.srcPlane.count + 3,
      ∃ t, iterExec (.extract radius) n s₀ = .next t ∧ OldOrNew (.extract radius) s₀ t.mem
  | 0, _ => ⟨s₀, rfl, .of_mem_eq rfl⟩
  | n + 1, hn => by
    by_cases hh : n ≤ s₀.regs.srcPlane.count
    · obtain ⟨hstart, hin⟩ := extract_start hinv hb hd hv hr
      obtain ⟨t, hpass, ⟨-, -, hmem⟩, -⟩ := iterExec_pass (fun _ _ h hk => InHpass.step hd hv h hk) n
        (s₀.enter .hpass) hin (by simpa using hh)
      exact ⟨t, (iterExec_succ hstart).trans hpass, .of_mem_eq hmem⟩
    · obtain ⟨s₁, hreach, hin, hdone⟩ := extract_reaches_vpass hinv hb hd hv hr
      obtain ⟨m, rfl⟩ : ∃ m, n = s₀.regs.srcPlane.count + 1 + m := Nat.exists_eq_add_of_le (by omega)
      obtain ⟨t, hpass, ⟨hrun, -, hst⟩, -⟩ := iterExec_pass (fun _ _ h hk => InVpass.step hd hv h hk) m s₁ hin
        (by rw [hdone, List.length_nil]; omega)
      refine ⟨t, ?_, hst.oldOrNew hrun.regs⟩
      rw [Nat.add_right_comm, iterExec_add hreach, hpass]

/-- REPLACE after any number of steps before DONE: not started, or in RPASS. -/
theorem replace_cut_short (hinv : s₀.Inv) (hb : s₀.busy = false) (hd : decode s₀.regs.cmd = .instr .replace)
    (hv : validateOp .replace s₀.regs = none) (hr : commandResident .replace s₀ = true) :
    ∀ n < s₀.regs.srcPlane.count + 2, ∃ t, iterExec .replace n s₀ = .next t ∧ OldOrNew .replace s₀ t.mem
  | 0, _ => ⟨s₀, rfl, .of_mem_eq rfl⟩
  | n + 1, hn => by
    obtain ⟨hstart, hin⟩ := replace_start hinv hb hd hv hr
    obtain ⟨t, hpass, ⟨hrun, -, hst⟩, -⟩ := iterExec_pass (fun _ _ h hk => InRpass.step hd hv h hk) n
      (s₀.enter .rpass) hin (by rw [State.enter_doneSet, List.length_nil]; omega)
    exact ⟨t, (iterExec_succ hstart).trans hpass, hst.oldOrNew hrun.regs⟩

/-- Either command after any number of steps before DONE. -/
theorem command_cut_short {i : Instr} {n : Nat} (hinv : s₀.Inv) (hb : s₀.busy = false)
    (hd : decode s₀.regs.cmd = .instr i) (hv : validateOp i s₀.regs = none) (hr : commandResident i s₀ = true)
    (hn : n < commandSteps i s₀) : ∃ t, iterExec i n s₀ = .next t ∧ OldOrNew i s₀ t.mem := by
  cases i with
  | extract radius => exact extract_cut_short hinv hb hd hv hr n hn
  | replace => exact replace_cut_short hinv hb hd hv hr n hn

end CutShort

/-! ## The statements -/

/-- Settles O26: wherever the command is cut, memory is old or new, and reset leaves it so. -/
theorem abandonedCommandKeepsOldOrNew : Obligations.AbandonedCommandKeepsOldOrNew := by
  intro s i n hinv hb hd hv hr hn
  obtain ⟨t, ht, hmem⟩ := command_cut_short hinv hb hd hv hr hn
  exact ⟨t, t.applyReset, ht, takeTurn_reset t, t.applyReset_status, hmem.samples, hmem.outside⟩

/-- Settles O1: each field of the reset state by its definition. -/
theorem resetStateValues : Obligations.ResetStateValues :=
  ⟨rfl, rfl, rfl, rfl, rfl, rfl, rfl, rfl, rfl, rfl, rfl, rfl, rfl, rfl, ibLookup_nil, rfl, rfl⟩

/-- Settles O2, by the rules of what reset sets and leaves. -/
theorem resetInAnyState : Obligations.ResetInAnyState := by
  intro s rest hs
  refine ⟨{ s with agenda := rest }.applyReset, (step_of_turn hs).trans (takeTurn_reset _), ?_⟩
  exact ⟨State.applyReset_status _, State.applyReset_regs _, State.applyReset_phase _, State.applyReset_doneSet _,
    fun k => by rw [State.applyReset_ib, ibLookup_nil], State.applyReset_mem _⟩

end Sys2Proof.Machine
